-- ==== Sys2Proof/Word.lean ====
section
/-! DEFINITION. The words of robstride-codec: bytes, fixed runs of raw bytes, and 64-bit floating-point values
as their bit patterns (00_scope.md R10). Arithmetic on them is in Machine/Bytes.lean and Machine/Float64.lean. -/

namespace Sys2Proof

/-- A byte: 8 bits, bit 0 the least significant (R10). -/
abbrev Byte := BitVec 8

/-- An `f64`: an IEEE 754 binary64 value, held as its 64-bit pattern (R10): bit 63 the sign, bits 62:52 the
exponent, bits 51:0 the fraction. -/
structure F64 where
  bits : BitVec 64
deriving DecidableEq, Repr, Inhabited

/-- Two raw bytes in frame order (`tail`, `rsv`; 20_memory.md R32: no numeric reading). -/
structure Bytes2 where
  b0 : Byte
  b1 : Byte
deriving DecidableEq, Repr, Inhabited

/-- Four raw bytes in frame order (the `data` of the single-parameter messages). -/
structure Bytes4 where
  b0 : Byte
  b1 : Byte
  b2 : Byte
  b3 : Byte
deriving DecidableEq, Repr, Inhabited

/-- Six raw bytes in frame order (the `data` of a ReadAllParams fragment). -/
structure Bytes6 where
  b0 : Byte
  b1 : Byte
  b2 : Byte
  b3 : Byte
  b4 : Byte
  b5 : Byte
deriving DecidableEq, Repr, Inhabited

/-- Eight raw bytes in frame order (a whole payload, `P[0..7]`). -/
structure Bytes8 where
  b0 : Byte
  b1 : Byte
  b2 : Byte
  b3 : Byte
  b4 : Byte
  b5 : Byte
  b6 : Byte
  b7 : Byte
deriving DecidableEq, Repr, Inhabited

/-- Eight zero bytes: the default of both payload parameters (00_scope.md R9). -/
def Bytes8.zero : Bytes8 := ⟨0, 0, 0, 0, 0, 0, 0, 0⟩

end Sys2Proof
end

