-- ==== Sys2Proof/Machine/Bytes.lean ====
section
/-! DEFINITION. The byte-order primitives of 00_scope.md R11. -/

namespace Sys2Proof

/-- Byte `k` of a value: `v[8k+7:8k]`. -/
def byteOf {n : Nat} (v : BitVec n) (k : Nat) : Byte := v.extractLsb' (8 * k) 8

/-- `le16(b0, b1) = b0 + 256*b1`. -/
def le16 (b0 b1 : Byte) : BitVec 16 := b1 ++ b0

/-- `be16(b0, b1) = 256*b0 + b1`. -/
def be16 (b0 b1 : Byte) : BitVec 16 := b0 ++ b1

/-- `le32(b0..b3)`. -/
def le32 (b0 b1 b2 b3 : Byte) : BitVec 32 := b3 ++ b2 ++ b1 ++ b0

/-- `le64(b0..b7)`. -/
def le64 (b : Bytes8) : BitVec 64 :=
  b.b7 ++ b.b6 ++ b.b5 ++ b.b4 ++ b.b3 ++ b.b2 ++ b.b1 ++ b.b0

/-- `bytes_le(v, n)`: byte `k` is `v[8k+7:8k]`. -/
def bytesLe {w : Nat} (v : BitVec w) (n : Nat) : List Byte := (List.range n).map (byteOf v)

/-- `bytes_be(v, n)`: `bytes_le(v, n)` reversed. -/
def bytesBe {w : Nat} (v : BitVec w) (n : Nat) : List Byte := (bytesLe v n).reverse

/-- `bswap16(v) = be16(bytes_le(v, 2))`. -/
def bswap16 (v : BitVec 16) : BitVec 16 := be16 (byteOf v 0) (byteOf v 1)

/-- The raw bytes of a field, first byte first. -/
def Bytes2.toList (b : Bytes2) : List Byte := [b.b0, b.b1]

def Bytes4.toList (b : Bytes4) : List Byte := [b.b0, b.b1, b.b2, b.b3]

def Bytes6.toList (b : Bytes6) : List Byte := [b.b0, b.b1, b.b2, b.b3, b.b4, b.b5]

def Bytes8.toList (b : Bytes8) : List Byte := [b.b0, b.b1, b.b2, b.b3, b.b4, b.b5, b.b6, b.b7]

end Sys2Proof
end

