-- ==== Sys2Proof/Syntax.lean ====
section
/-! DEFINITION. The typed records of 10_state.md section 3, the 34 operations of 30_encoding.md R60 with their operands
(`Instr`, one constructor per row of spec/opcode_table.json, in the table's order), their names without operands
(`Operation`), and the reasons a record on the `op` channel can fail to be an operation. -/

namespace Sys2Proof

/-- `Hdr` (R21): the five frame fields no message kind gives a meaning. -/
structure Hdr where
  res2 : BitVec 2
  len : Byte
  pad : Byte
  res0 : Byte
  len8 : Byte
deriving DecidableEq, Repr, Inhabited

/-- `HDR0` (R21): the canonical header every request is encoded with. -/
def Hdr.canonical : Hdr := { res2 := 0, len := 8, pad := 0, res0 := 0, len8 := 0 }

/-! ### Requests (R22) -/

structure ObtainIdReq where
  canId : Byte
deriving DecidableEq, Repr, Inhabited

/-- All five axes in transport units. -/
structure ControlReq where
  canId : Byte
  angle : BitVec 16
  velocity : BitVec 16
  torque : BitVec 16
  kp : BitVec 16
  kd : BitVec 16
deriving DecidableEq, Repr, Inhabited

structure MotorEnableReq where
  canId : Byte
deriving DecidableEq, Repr, Inhabited

structure FeedbackReq where
  canId : Byte
deriving DecidableEq, Repr, Inhabited

structure ReadAllParamsReq where
  canId : Byte
  mcuUid : BitVec 64
deriving DecidableEq, Repr, Inhabited

structure ZeroPositionReq where
  canId : Byte
deriving DecidableEq, Repr, Inhabited

structure ParamReadReq where
  canId : Byte
  index : BitVec 16
deriving DecidableEq, Repr, Inhabited

structure ParamWriteReq where
  canId : Byte
  index : BitVec 16
  data : Bytes4
deriving DecidableEq, Repr, Inhabited

structure DataSaveReq where
  canId : Byte
deriving DecidableEq, Repr, Inhabited

/-! ### Responses (R22) -/

structure ObtainIdResp where
  host : Byte
  canId : Byte
  aux : Byte
  mcuUid : BitVec 64
  hdr : Hdr
deriving DecidableEq, Repr, Inhabited

structure FeedbackResp where
  host : Byte
  canId : Byte
  status : Byte
  angle : BitVec 16
  velocity : BitVec 16
  torque : BitVec 16
  tail : Bytes2
  hdr : Hdr
deriving DecidableEq, Repr, Inhabited

structure ReadAllParamsResp where
  host : Byte
  canId : Byte
  byteMarker : Byte
  paramCode : BitVec 16
  data : Bytes6
  hdr : Hdr
deriving DecidableEq, Repr, Inhabited

structure ParamReadResp where
  host : Byte
  canId : Byte
  status : Byte
  index : BitVec 16
  rsv : Bytes2
  data : Bytes4
  hdr : Hdr
deriving DecidableEq, Repr, Inhabited

/-- The tagged union `DEC` answers with (42_decode.md R120). -/
inductive Response where
  | obtainId (m : ObtainIdResp)
  | feedback (m : FeedbackResp)
  | paramRead (m : ParamReadResp)
  | readAllParams (m : ReadAllParamsResp)
deriving DecidableEq, Repr

/-! ### Scaler records (R24, R28) -/

/-- `PhysicalRange` (R24). Its invariant `min <= max` is `PhysicalRange.wf` of WellFormed.lean. -/
structure PhysicalRange where
  min : F64
  max : F64
deriving DecidableEq, Repr, Inhabited

/-- `RangeSet` (R24): one range per axis. -/
structure RangeSet where
  angle : PhysicalRange
  velocity : PhysicalRange
  torque : PhysicalRange
  kp : PhysicalRange
  kd : PhysicalRange
deriving DecidableEq, Repr, Inhabited

/-- `ActuatorCommand` (R28), in engineering units. -/
structure ActuatorCommand where
  qpos : F64
  qvel : F64
  qfrc : F64
  kp : F64
  kd : F64
deriving DecidableEq, Repr, Inhabited

/-- `FeedbackUpdate` (R28), in engineering units. Gains, temperature and faults are left unset by the spec and
are no fields of the record. -/
structure FeedbackUpdate where
  position : F64
  velocity : F64
  torque : F64
deriving DecidableEq, Repr, Inhabited

/-- The five hardware models (00_scope.md R9, D23; only `Robstride01` is named by the source). The order of the constructors
means nothing (91 N6). -/
inductive ActuatorType where
  | robstride00 | robstride01 | robstride02 | robstride03 | robstride04
deriving DecidableEq, Repr, Inhabited

/-- `ActuatorRanges` (R24) as data: the engineering ranges of each model. -/
structure RangeTable where
  robstride00 : RangeSet
  robstride01 : RangeSet
  robstride02 : RangeSet
  robstride03 : RangeSet
  robstride04 : RangeSet
deriving DecidableEq, Repr, Inhabited

/-- `ActuatorRanges(t)`. -/
def RangeTable.of (table : RangeTable) : ActuatorType → RangeSet
  | .robstride00 => table.robstride00
  | .robstride01 => table.robstride01
  | .robstride02 => table.robstride02
  | .robstride03 => table.robstride03
  | .robstride04 => table.robstride04

/-! ### Records of the host (50_host_context.md R142, R158) -/

inductive ParamType where
  | string | uint8 | uint16 | uint32 | int16 | int32 | float32
deriving DecidableEq, Repr, Inhabited

inductive ParamAccess where
  | readOnly | readWrite | settings | disposition
deriving DecidableEq, Repr, Inhabited

/-- `ParameterInfo` (R142). -/
structure ParameterInfo where
  code : BitVec 16
  name : String
  type : ParamType
  access : ParamAccess
  description : String
deriving DecidableEq, Repr, Inhabited

/-- `ActuatorState`, what `requestFeedback` returns (R158). The source lists none of its fields (91 N16), so `content` stands for
all of them together and has no reading. -/
structure ActuatorState where
  content : Nat
deriving DecidableEq, Repr, Inhabited

/-! ### The operations -/

/-- The 34 operations with their operands (R60, R70). An operation that reads a frame reads the `frame_in` channel
(10_state.md R20), so the frame is no operand here. -/
inductive Instr where
  | scale (value : F64) (source target : PhysicalRange)
  | quant16 (r : F64)
  | scaleToWire (value : F64) (eng : PhysicalRange)
  | scaleFromWire (raw : BitVec 16) (eng : PhysicalRange)
  | encObtainId (m : ObtainIdReq)
  | encControl (m : ControlReq)
  | encMotorEnable (m : MotorEnableReq)
  | encFeedback (m : FeedbackReq)
  | encReadAllParams (m : ReadAllParamsReq)
  | encZeroPosition (m : ZeroPositionReq)
  | encParamRead (m : ParamReadReq)
  | encParamWrite (m : ParamWriteReq)
  | encDataSave (m : DataSaveReq)
  | controlFromEng (canId : Byte) (cmd : ActuatorCommand) (ranges : RangeSet)
  | packObtainIdResp (m : ObtainIdResp)
  | packFeedbackResp (m : FeedbackResp)
  | packReadAllParamsResp (m : ReadAllParamsResp)
  | packParamReadResp (m : ParamReadResp)
  | mux
  | dec
  | unpackObtainIdResp
  | unpackFeedbackResp
  | unpackReadAllParamsResp
  | unpackParamReadResp
  | unpackObtainIdReq
  | unpackControlReq
  | unpackMotorEnableReq
  | unpackFeedbackReq
  | unpackReadAllParamsReq
  | unpackZeroPositionReq
  | unpackParamReadReq
  | unpackParamWriteReq
  | unpackDataSaveReq
  | feedbackToEng (ranges : RangeSet)
deriving DecidableEq, Repr

/-- The mnemonics of R60 without operands, in the order of spec/opcode_table.json. -/
inductive Operation where
  | scale | quant16 | scaleToWire | scaleFromWire
  | encObtainId | encControl | encMotorEnable | encFeedback | encReadAllParams
  | encZeroPosition | encParamRead | encParamWrite | encDataSave | controlFromEng
  | packObtainIdResp | packFeedbackResp | packReadAllParamsResp | packParamReadResp
  | mux | dec
  | unpackObtainIdResp | unpackFeedbackResp | unpackReadAllParamsResp | unpackParamReadResp
  | unpackObtainIdReq | unpackControlReq | unpackMotorEnableReq | unpackFeedbackReq | unpackReadAllParamsReq
  | unpackZeroPositionReq | unpackParamReadReq | unpackParamWriteReq | unpackDataSaveReq
  | feedbackToEng
deriving DecidableEq, Repr

/-- The mnemonic an operation goes by. -/
def Instr.operation : Instr → Operation
  | .scale _ _ _ => .scale
  | .quant16 _ => .quant16
  | .scaleToWire _ _ => .scaleToWire
  | .scaleFromWire _ _ => .scaleFromWire
  | .encObtainId _ => .encObtainId
  | .encControl _ => .encControl
  | .encMotorEnable _ => .encMotorEnable
  | .encFeedback _ => .encFeedback
  | .encReadAllParams _ => .encReadAllParams
  | .encZeroPosition _ => .encZeroPosition
  | .encParamRead _ => .encParamRead
  | .encParamWrite _ => .encParamWrite
  | .encDataSave _ => .encDataSave
  | .controlFromEng _ _ _ => .controlFromEng
  | .packObtainIdResp _ => .packObtainIdResp
  | .packFeedbackResp _ => .packFeedbackResp
  | .packReadAllParamsResp _ => .packReadAllParamsResp
  | .packParamReadResp _ => .packParamReadResp
  | .mux => .mux
  | .dec => .dec
  | .unpackObtainIdResp => .unpackObtainIdResp
  | .unpackFeedbackResp => .unpackFeedbackResp
  | .unpackReadAllParamsResp => .unpackReadAllParamsResp
  | .unpackParamReadResp => .unpackParamReadResp
  | .unpackObtainIdReq => .unpackObtainIdReq
  | .unpackControlReq => .unpackControlReq
  | .unpackMotorEnableReq => .unpackMotorEnableReq
  | .unpackFeedbackReq => .unpackFeedbackReq
  | .unpackReadAllParamsReq => .unpackReadAllParamsReq
  | .unpackZeroPositionReq => .unpackZeroPositionReq
  | .unpackParamReadReq => .unpackParamReadReq
  | .unpackParamWriteReq => .unpackParamWriteReq
  | .unpackDataSaveReq => .unpackDataSaveReq
  | .feedbackToEng _ => .feedbackToEng

/-- Why a record on the `op` channel is no operation (log 1). -/
inductive DecodeError where
  /-- the record ends before the operands of its operation do -/
  | truncated
  /-- the selector byte names none of the 34 operations -/
  | unknownSelector (selector : Byte)
  /-- the selector byte is 0 and no row of the table matches the identifier word -/
  | unknownIdentifier (identifier : BitVec 32)
  /-- the identifier word is not one of the row the selector byte names -/
  | identifierMismatch (identifier : BitVec 32)
deriving DecidableEq, Repr

end Sys2Proof
end

