-- ==== Sys2Proof/Config.lean ====
section
/-! DEFINITION. What an implementation fixes: the constants of 10_state.md R23, the parameters of 00_scope.md R9 with the
spec's defaults (`Params`, carried in the state and never written), and the free values, which have no body. -/

namespace Sys2Proof

/-! ### Constants (R23, 30_encoding.md R46) -/

def hostId : BitVec 16 := 0xFD00
/-- The single-byte form of the host identifier in a 16-bit field (41_encode.md R101). -/
def hostIdByteForm : BitVec 16 := 0x00FD
def effMask : BitVec 32 := 0x80000000
/-- Applied to frame byte 3. -/
def muxMask : Byte := 0x1F

def muxObtainId : BitVec 5 := 0x00
def muxControl : BitVec 5 := 0x01
/-- The mux of the feedback-shaped response. -/
def muxFeedback : BitVec 5 := 0x02
def muxZeroPosition : BitVec 5 := 0x06
def muxParamRead : BitVec 5 := 0x11
def muxParamWrite : BitVec 5 := 0x12
def muxReadAllParams : BitVec 5 := 0x13
def muxDataSave : BitVec 5 := 0x16

/-- `T = {0.0, 65535.0}`, the transport range of every quantity (40_scaler.md R81). -/
def transportRange : PhysicalRange := { min := ⟨0⟩, max := ⟨0x40EFFFE000000000⟩ }

/-! ### Parameters (R9) -/

/-- `HOST_DATA16(kind)` for the eight request kinds that carry the host identifier (41_encode.md R101). -/
structure HostData16 where
  obtainId : BitVec 16
  motorEnable : BitVec 16
  feedback : BitVec 16
  readAllParams : BitVec 16
  zeroPosition : BitVec 16
  paramRead : BitVec 16
  paramWrite : BitVec 16
  dataSave : BitVec 16
deriving DecidableEq, Repr

/-- `QUANT_ROUND`: the roundings to nearest that send 32767.5 to 32768, as 40_scaler.md R85 and 90_conflicts.md C7
require (log 9). The default is `tiesAway`. -/
inductive QuantRound where
  | tiesAway
  | tiesEven
  | halfUp
deriving DecidableEq, Repr

/-- `Numerics`: the `f64` arithmetic `SCALE` uses, an open parameter (D19; log 10). `ieee754` is the spec's default, IEEE 754
binary64 rounded to nearest, ties to even; `other k` is any arithmetic the model's user puts in its place. -/
inductive Numerics where
  | ieee754
  | other (k : Nat)
deriving DecidableEq, Repr

/-- `QUANT_POLICY` (40_scaler.md R86). -/
inductive QuantPolicy where
  | fault
  | saturate
deriving DecidableEq, Repr

/-- `DECODABLE_MUX`: a subset of the four muxes that have a response shape (42_decode.md R121), so one Boolean for
each: no other mux can be put into it. -/
structure DecodableMux where
  obtainId : Bool
  feedback : Bool
  paramRead : Bool
  readAllParams : Bool
deriving DecidableEq, Repr

/-- The parameters the block is built with (R9, R18). -/
structure Params where
  hostData16 : HostData16
  muxFeedbackReq : BitVec 5
  muxMotorEnable : BitVec 5
  zeroPosPayload : Bytes8
  dataSavePayload : Bytes8
  numerics : Numerics
  quantRound : QuantRound
  quantPolicy : QuantPolicy
  decodableMux : DecodableMux
deriving DecidableEq, Repr

/-- The column "spec default" of R9. -/
def Params.default : Params where
  hostData16 :=
    { obtainId := hostId, motorEnable := hostId, feedback := hostId, readAllParams := hostId
      zeroPosition := hostId, paramRead := hostId, paramWrite := hostId, dataSave := hostId }
  muxFeedbackReq := 0x02
  muxMotorEnable := 0x03
  zeroPosPayload := Bytes8.zero
  dataSavePayload := Bytes8.zero
  numerics := .ieee754
  quantRound := .tiesAway
  quantPolicy := .fault
  decodableMux := { obtainId := true, feedback := true, paramRead := true, readAllParams := true }

/-! ### Free values -/

/-- The four `f64` operations the scaler uses (40_scaler.md R82). -/
inductive FloatOp where
  | add | sub | mul | div
deriving DecidableEq, Repr

/-- The sign (top bit) and payload (the other 52) of the NaN an operation on these operands gives. Free: "the sign
and payload of a NaN result are unspecified" (40_scaler.md R84, 93 U3; log 11). A function of the operation and its
operands, because the same operation on the same operands gives the same outcome twice (10_state.md R19). -/
opaque Config.freeNan : FloatOp → F64 → F64 → BitVec 53

/-- What an operation of a `Numerics` other than the default answers: free (R9, 40_scaler.md R82; log 10). -/
opaque Config.arithmetic : Nat → FloatOp → F64 → F64 → F64

/-- What replaces a byte of an invalid UTF-8 sequence in a String parameter: free (50_host_context.md R147, 93 U6;
log 17). -/
opaque Config.utf8Replacement : Byte → List Nat

/-- The parameter table but for its one known entry: free (50_host_context.md R142, 91 N20; log 23). -/
opaque Config.otherParameters : List ParameterInfo

/-- The access and the description of the known entry, which the source does not give (log 23). -/
opaque Config.limitTorqueAccess : ParamAccess
opaque Config.limitTorqueDescription : String

/-- The `ActuatorState` that `requestFeedback` returns, from the session's identifier, UID and ranges and the bytes of the
reply: free (50_host_context.md R158, 91 N16; log 24). -/
opaque Config.actuatorState : Byte → Option (BitVec 64) → RangeSet → List Byte → ActuatorState

end Sys2Proof
end

