-- ==== Sys2Proof/Machine/Float64.lean ====
section
/-! DEFINITION. IEEE 754 binary64 arithmetic, round to nearest, ties to even, with gradual underflow (40_scaler.md R82,
R84), and the arithmetic that the parameter `Numerics` names, of which it is the default (log 10).

Every finite binary64 value is a whole number of units of `2^-1074`, so the exact result of an operation is a whole
number of units, or a quotient of two, and `F64.roundMag` rounds such a quotient once. -/

namespace Sys2Proof

/-! ### Reading a value -/

/-- The sign bit. -/
def F64.sign (x : F64) : Bool := x.bits.msb

/-- Bits 62:0 as a number. Magnitudes are in the order of the values they stand for. -/
def F64.mag (x : F64) : Nat := x.bits.toNat % 2 ^ 63

/-- The magnitude of an infinity: exponent field all ones, fraction zero. -/
def F64.infMag : Nat := 2047 * 2 ^ 52

def F64.isNaN (x : F64) : Bool := decide (F64.infMag < x.mag)

def F64.isInf (x : F64) : Bool := decide (x.mag = F64.infMag)

def F64.isFinite (x : F64) : Bool := decide (x.mag < F64.infMag)

def F64.isZero (x : F64) : Bool := decide (x.mag = 0)

/-- The size of a finite value, in units of `2^-1074`, from its magnitude. -/
def F64.unitsOfMag (mag : Nat) : Nat :=
  if mag / 2 ^ 52 = 0 then mag % 2 ^ 52 else (2 ^ 52 + mag % 2 ^ 52) * 2 ^ (mag / 2 ^ 52 - 1)

/-- The size of a finite value, in units of `2^-1074`. -/
def F64.units (x : F64) : Nat := F64.unitsOfMag x.mag

/-- A finite value, in units of `2^-1074`. -/
def F64.signedUnits (x : F64) : Int := if x.sign then -(x.units : Int) else (x.units : Int)

/-- How many units one is. -/
@[irreducible] def F64.unitsOfOne : Nat := 2 ^ 1074

/-! ### Making a value -/

/-- The value with this sign and magnitude. -/
def F64.ofMag (negative : Bool) (mag : Nat) : F64 :=
  ⟨BitVec.ofNat 64 ((if negative then 2 ^ 63 else 0) + mag)⟩

def F64.zero (negative : Bool) : F64 := F64.ofMag negative 0

def F64.infinity (negative : Bool) : F64 := F64.ofMag negative F64.infMag

/-- The NaN an invalid operation, or one on a NaN, gives: some NaN, its sign and payload free (log 11). -/
def F64.nan (op : FloatOp) (x y : F64) : F64 :=
  let free := Config.freeNan op x y
  let payload := (free.setWidth 52).toNat
  F64.ofMag free.msb (F64.infMag + if payload = 0 then 1 else payload)

/-- `n / d` to the nearest integer, ties to even. -/
def F64.nearestEven (n d : Nat) : Nat :=
  let q := n / d
  let r := n % d
  if d < 2 * r || (2 * r == d && q % 2 == 1) then q + 1 else q

/-- The magnitude nearest to `n / d` units, ties to even; an infinity's where the result overflows. Below `2^53` units
the spacing of binary64 is one unit (subnormals, and the first binade of normals); from there on it is `2^k` units
where the quotient lies in `[2^(52+k), 2^(53+k))`. -/
def F64.roundMag (n d : Nat) : Nat :=
  let k := (n / d).log2 - 52
  min (k * 2 ^ 52 + F64.nearestEven n (d * 2 ^ k)) F64.infMag

/-- The value with its sign bit turned over. -/
def F64.neg (x : F64) : F64 := F64.ofMag (!x.sign) x.mag

/-! ### Arithmetic -/

/-- `x + y`; `op` says on whose behalf, which only a NaN result can show. -/
def F64.addAs (op : FloatOp) (x y : F64) : F64 :=
  if x.isNaN || y.isNaN then F64.nan op x y
  else if x.isInf then
    if y.isInf && (x.sign != y.sign) then F64.nan op x y else x
  else if y.isInf then y
  else
    let sum := x.signedUnits + y.signedUnits
    if sum = 0 then F64.zero (x.sign && y.sign)
    else F64.ofMag (decide (sum < 0)) (F64.roundMag sum.natAbs 1)

def F64.add (x y : F64) : F64 := F64.addAs .add x y

def F64.sub (x y : F64) : F64 := F64.addAs .sub x y.neg

def F64.mul (x y : F64) : F64 :=
  if x.isNaN || y.isNaN then F64.nan .mul x y
  else if x.isInf || y.isInf then
    if x.isZero || y.isZero then F64.nan .mul x y else F64.infinity (x.sign != y.sign)
  else F64.ofMag (x.sign != y.sign) (F64.roundMag (x.units * y.units) F64.unitsOfOne)

def F64.div (x y : F64) : F64 :=
  if x.isNaN || y.isNaN then F64.nan .div x y
  else if x.isInf then
    if y.isInf then F64.nan .div x y else F64.infinity (x.sign != y.sign)
  else if y.isInf then F64.zero (x.sign != y.sign)
  else if y.isZero then
    if x.isZero then F64.nan .div x y else F64.infinity (x.sign != y.sign)
  else F64.ofMag (x.sign != y.sign) (F64.roundMag (x.units * F64.unitsOfOne) y.units)

/-- The operation of the arithmetic `Numerics` names (00_scope.md R9, 40_scaler.md R82). -/
def Numerics.compute : Numerics → FloatOp → F64 → F64 → F64
  | .ieee754, .add => F64.add
  | .ieee754, .sub => F64.sub
  | .ieee754, .mul => F64.mul
  | .ieee754, .div => F64.div
  | .other k, op => Config.arithmetic k op

/-- `f64(raw)`: exact for every 16-bit code (R88). -/
def F64.ofU16 (raw : BitVec 16) : F64 := F64.ofMag false (F64.roundMag (raw.toNat * F64.unitsOfOne) 1)

/-! ### Comparison -/

/-- The place of a value in the order of all values that are no NaN; both zeros stand at 0. -/
def F64.key (x : F64) : Int := if x.sign then -(x.mag : Int) else (x.mag : Int)

/-- Equality as `f64` values: `+0.0 = -0.0`, and a NaN equals nothing (R83). -/
def F64.eq (x y : F64) : Bool := !x.isNaN && !y.isNaN && decide (x.key = y.key)

/-- `x <= y` as `f64` values. -/
def F64.le (x y : F64) : Bool := !x.isNaN && !y.isNaN && decide (x.key ≤ y.key)

/-! ### Rounding to an integer -/

/-- `ROUND` of a finite value (40_scaler.md R85): exact, on the value as a real number. -/
def F64.roundToInt (mode : QuantRound) (x : F64) : Int :=
  let q := x.units / F64.unitsOfOne
  let r := x.units % F64.unitsOfOne
  let tieUp : Bool :=
    match mode with
    | .tiesAway => true
    | .tiesEven => q % 2 == 1
    | .halfUp => !x.sign
  let n := if F64.unitsOfOne < 2 * r || (2 * r == F64.unitsOfOne && tieUp) then q + 1 else q
  if x.sign then -(n : Int) else (n : Int)

end Sys2Proof
end

