-- ==== Sys2Proof/Decode.lean ====
section
/-! DEFINITION. The record of an operation on the `op` channel, as bytes, and back.

The spec gives an operation no encoding as bits: it is "selected by mnemonic on the `op` channel" (30_encoding.md R70). What the
spec's table does give is, for each operation that works on a frame, the identifier word its frames match (`match`, `mask`) and the
place of every operand in the frame. The record is the model's own (log 1) and follows the table:
* bytes 0 to 15: an image laid out as the row's frame, holding each operand at the row's place, positions the row does not
  assign to an operand being ignored;
* byte 16: the selector, 1 to 34 for the table's rows in order, or 0 for the first row of the table whose `match` and `mask`
  fit the identifier word (log 2);
* bytes 17 on: the operands that have no place in the frame (`f64` values and ranges), little-endian, in the row's order. -/

namespace Sys2Proof

/-! ### The table -/

/-- The row's `match` and `mask` over `ID = le32(F[0..3])` (spec/opcode_table.json). -/
def Operation.identifier : Operation → BitVec 32 × BitVec 32
  | .scale => (0x00000000, 0x00000000)
  | .quant16 => (0x00000000, 0x00000000)
  | .scaleToWire => (0x00000000, 0x00000000)
  | .scaleFromWire => (0x00000000, 0x00000000)
  | .encObtainId => (0x80000000, 0xFF000000)
  | .encControl => (0x81000000, 0xFF000000)
  | .encMotorEnable => (0x83000000, 0xFF000000)
  | .encFeedback => (0x82000000, 0xFF000000)
  | .encReadAllParams => (0x93000000, 0xFF000000)
  | .encZeroPosition => (0x86000000, 0xFF000000)
  | .encParamRead => (0x91000000, 0xFF000000)
  | .encParamWrite => (0x92000000, 0xFF000000)
  | .encDataSave => (0x96000000, 0xFF000000)
  | .controlFromEng => (0x81000000, 0xFF000000)
  | .packObtainIdResp => (0x80000000, 0x9F000000)
  | .packFeedbackResp => (0x82000000, 0x9F000000)
  | .packReadAllParamsResp => (0x93000000, 0x9F000000)
  | .packParamReadResp => (0x91000000, 0x9F000000)
  | .mux => (0x00000000, 0x00000000)
  | .dec => (0x00000000, 0x00000000)
  | .unpackObtainIdResp => (0x00000000, 0x1F000000)
  | .unpackFeedbackResp => (0x02000000, 0x1F000000)
  | .unpackReadAllParamsResp => (0x13000000, 0x1F000000)
  | .unpackParamReadResp => (0x11000000, 0x1F000000)
  | .unpackObtainIdReq => (0x00000000, 0x1F000000)
  | .unpackControlReq => (0x01000000, 0x1F000000)
  | .unpackMotorEnableReq => (0x03000000, 0x1F000000)
  | .unpackFeedbackReq => (0x02000000, 0x1F000000)
  | .unpackReadAllParamsReq => (0x13000000, 0x1F000000)
  | .unpackZeroPositionReq => (0x06000000, 0x1F000000)
  | .unpackParamReadReq => (0x11000000, 0x1F000000)
  | .unpackParamWriteReq => (0x12000000, 0x1F000000)
  | .unpackDataSaveReq => (0x16000000, 0x1F000000)
  | .feedbackToEng => (0x02000000, 0x1F000000)

/-- The rows of spec/opcode_table.json, in its order. -/
def operationTable : List Operation :=
  [.scale, .quant16, .scaleToWire, .scaleFromWire,
   .encObtainId, .encControl, .encMotorEnable, .encFeedback, .encReadAllParams,
   .encZeroPosition, .encParamRead, .encParamWrite, .encDataSave, .controlFromEng,
   .packObtainIdResp, .packFeedbackResp, .packReadAllParamsResp, .packParamReadResp,
   .mux, .dec,
   .unpackObtainIdResp, .unpackFeedbackResp, .unpackReadAllParamsResp, .unpackParamReadResp,
   .unpackObtainIdReq, .unpackControlReq, .unpackMotorEnableReq, .unpackFeedbackReq, .unpackReadAllParamsReq,
   .unpackZeroPositionReq, .unpackParamReadReq, .unpackParamWriteReq, .unpackDataSaveReq,
   .feedbackToEng]

/-- The selector byte of an operation: its place in the table, from 1. -/
def Operation.selector : Operation → Byte
  | .scale => 1 | .quant16 => 2 | .scaleToWire => 3 | .scaleFromWire => 4
  | .encObtainId => 5 | .encControl => 6 | .encMotorEnable => 7 | .encFeedback => 8 | .encReadAllParams => 9
  | .encZeroPosition => 10 | .encParamRead => 11 | .encParamWrite => 12 | .encDataSave => 13 | .controlFromEng => 14
  | .packObtainIdResp => 15 | .packFeedbackResp => 16 | .packReadAllParamsResp => 17 | .packParamReadResp => 18
  | .mux => 19 | .dec => 20
  | .unpackObtainIdResp => 21 | .unpackFeedbackResp => 22 | .unpackReadAllParamsResp => 23 | .unpackParamReadResp => 24
  | .unpackObtainIdReq => 25 | .unpackControlReq => 26 | .unpackMotorEnableReq => 27 | .unpackFeedbackReq => 28
  | .unpackReadAllParamsReq => 29 | .unpackZeroPositionReq => 30 | .unpackParamReadReq => 31 | .unpackParamWriteReq => 32
  | .unpackDataSaveReq => 33 | .feedbackToEng => 34

/-- A frame belongs to the row when `(ID AND mask) = match` (R70). -/
def Operation.fits (o : Operation) (identifier : BitVec 32) : Bool :=
  identifier &&& o.identifier.2 == o.identifier.1

/-- The first row of the table that the identifier word fits. Rows with a zero mask are "selected by mnemonic" only (R70). -/
def operationOfIdentifier (identifier : BitVec 32) : Option Operation :=
  operationTable.find? fun o => o.identifier.2 != 0 && o.fits identifier

/-- The row a selector byte names. -/
def operationOfSelector (selector : Byte) : Option Operation :=
  if selector = 0 then none else operationTable[selector.toNat - 1]?

/-! ### Reading operands -/

/-- Where the operands without a place in the frame begin. -/
def extensionStart : Nat := 17

def byteAt (record : List Byte) (k : Nat) : Byte := record.getD k 0

def le16At (record : List Byte) (k : Nat) : BitVec 16 := le16 (byteAt record k) (byteAt record (k + 1))

def be16At (record : List Byte) (k : Nat) : BitVec 16 := be16 (byteAt record k) (byteAt record (k + 1))

def bytes2At (record : List Byte) (k : Nat) : Bytes2 := ⟨byteAt record k, byteAt record (k + 1)⟩

def bytes4At (record : List Byte) (k : Nat) : Bytes4 :=
  ⟨byteAt record k, byteAt record (k + 1), byteAt record (k + 2), byteAt record (k + 3)⟩

def bytes6At (record : List Byte) (k : Nat) : Bytes6 :=
  ⟨byteAt record k, byteAt record (k + 1), byteAt record (k + 2), byteAt record (k + 3), byteAt record (k + 4),
   byteAt record (k + 5)⟩

def bytes8At (record : List Byte) (k : Nat) : Bytes8 :=
  ⟨byteAt record k, byteAt record (k + 1), byteAt record (k + 2), byteAt record (k + 3), byteAt record (k + 4),
   byteAt record (k + 5), byteAt record (k + 6), byteAt record (k + 7)⟩

def le64At (record : List Byte) (k : Nat) : BitVec 64 := le64 (bytes8At record k)

def f64At (record : List Byte) (k : Nat) : F64 := ⟨le64At record k⟩

def rangeAt (record : List Byte) (k : Nat) : PhysicalRange := ⟨f64At record k, f64At record (k + 8)⟩

def rangeSetAt (record : List Byte) (k : Nat) : RangeSet :=
  ⟨rangeAt record k, rangeAt record (k + 16), rangeAt record (k + 32), rangeAt record (k + 48), rangeAt record (k + 64)⟩

def commandAt (record : List Byte) (k : Nat) : ActuatorCommand :=
  ⟨f64At record k, f64At record (k + 8), f64At record (k + 16), f64At record (k + 24), f64At record (k + 32)⟩

/-- The header of a response image: `res2` in bits 6:5 of byte 3, then bytes 4 to 7 (R50). -/
def hdrAt (record : List Byte) : Hdr :=
  { res2 := (byteAt record 3).extractLsb' 5 2, len := byteAt record 4, pad := byteAt record 5
    res0 := byteAt record 6, len8 := byteAt record 7 }

/-- The identifier word of a record. -/
def identifierAt (record : List Byte) : BitVec 32 :=
  le32 (byteAt record 0) (byteAt record 1) (byteAt record 2) (byteAt record 3)

/-- How many bytes an operation's record has. -/
def Operation.recordBytes : Operation → Nat
  | .scale => 57 | .quant16 => 25 | .scaleToWire => 41
  | .scaleFromWire => 35 | .encObtainId => 17 | .encControl => 17
  | .encMotorEnable => 17 | .encFeedback => 17 | .encReadAllParams => 17
  | .encZeroPosition => 17 | .encParamRead => 17 | .encParamWrite => 17
  | .encDataSave => 17 | .controlFromEng => 137 | .packObtainIdResp => 17
  | .packFeedbackResp => 17 | .packReadAllParamsResp => 17 | .packParamReadResp => 17
  | .mux => 17 | .dec => 17 | .unpackObtainIdResp => 17
  | .unpackFeedbackResp => 17 | .unpackReadAllParamsResp => 17 | .unpackParamReadResp => 17
  | .unpackObtainIdReq => 17 | .unpackControlReq => 17 | .unpackMotorEnableReq => 17
  | .unpackFeedbackReq => 17 | .unpackReadAllParamsReq => 17 | .unpackZeroPositionReq => 17
  | .unpackParamReadReq => 17 | .unpackParamWriteReq => 17 | .unpackDataSaveReq => 17
  | .feedbackToEng => 97

/-- The longest record. -/
def longestRecord : Nat := 137

/-- The operands of an operation, read from the places its row gives them (R51 to R64). -/
def Operation.operands (record : List Byte) : Operation → Instr
  | .scale => .scale (f64At record 17) (rangeAt record 25) (rangeAt record 41)
  | .quant16 => .quant16 (f64At record 17)
  | .scaleToWire => .scaleToWire (f64At record 17) (rangeAt record 25)
  | .scaleFromWire => .scaleFromWire (le16At record 17) (rangeAt record 19)
  | .encObtainId => .encObtainId { canId := byteAt record 0 }
  | .encControl => .encControl
      { canId := byteAt record 0, torque := le16At record 1, angle := be16At record 8, velocity := be16At record 10
        kp := be16At record 12, kd := be16At record 14 }
  | .encMotorEnable => .encMotorEnable { canId := byteAt record 0 }
  | .encFeedback => .encFeedback { canId := byteAt record 0 }
  | .encReadAllParams => .encReadAllParams { canId := byteAt record 0, mcuUid := le64At record 8 }
  | .encZeroPosition => .encZeroPosition { canId := byteAt record 0 }
  | .encParamRead => .encParamRead { canId := byteAt record 0, index := le16At record 8 }
  | .encParamWrite => .encParamWrite
      { canId := byteAt record 0, index := le16At record 8, data := bytes4At record 12 }
  | .encDataSave => .encDataSave { canId := byteAt record 0 }
  | .controlFromEng => .controlFromEng (byteAt record 0) (commandAt record 17) (rangeSetAt record 57)
  | .packObtainIdResp => .packObtainIdResp
      { host := byteAt record 0, canId := byteAt record 1, aux := byteAt record 2, mcuUid := le64At record 8
        hdr := hdrAt record }
  | .packFeedbackResp => .packFeedbackResp
      { host := byteAt record 0, canId := byteAt record 1, status := byteAt record 2, angle := be16At record 8
        velocity := be16At record 10, torque := be16At record 12, tail := bytes2At record 14, hdr := hdrAt record }
  | .packReadAllParamsResp => .packReadAllParamsResp
      { host := byteAt record 0, canId := byteAt record 1, byteMarker := byteAt record 2, paramCode := le16At record 8
        data := bytes6At record 10, hdr := hdrAt record }
  | .packParamReadResp => .packParamReadResp
      { host := byteAt record 0, canId := byteAt record 1, status := byteAt record 2, index := le16At record 8
        rsv := bytes2At record 10, data := bytes4At record 12, hdr := hdrAt record }
  | .mux => .mux
  | .dec => .dec
  | .unpackObtainIdResp => .unpackObtainIdResp
  | .unpackFeedbackResp => .unpackFeedbackResp
  | .unpackReadAllParamsResp => .unpackReadAllParamsResp
  | .unpackParamReadResp => .unpackParamReadResp
  | .unpackObtainIdReq => .unpackObtainIdReq
  | .unpackControlReq => .unpackControlReq
  | .unpackMotorEnableReq => .unpackMotorEnableReq
  | .unpackFeedbackReq => .unpackFeedbackReq
  | .unpackReadAllParamsReq => .unpackReadAllParamsReq
  | .unpackZeroPositionReq => .unpackZeroPositionReq
  | .unpackParamReadReq => .unpackParamReadReq
  | .unpackParamWriteReq => .unpackParamWriteReq
  | .unpackDataSaveReq => .unpackDataSaveReq
  | .feedbackToEng => .feedbackToEng (rangeSetAt record 17)

/-! ### Decoding -/

/-- The operation a record names, or why it names none. -/
def selectOperation (record : List Byte) : Except DecodeError Operation :=
  if record.length < extensionStart then .error .truncated
  else if byteAt record 16 = 0 then
    match operationOfIdentifier (identifierAt record) with
    | some o => .ok o
    | none => .error (.unknownIdentifier (identifierAt record))
  else
    match operationOfSelector (byteAt record 16) with
    | some o => if o.fits (identifierAt record) then .ok o else .error (.identifierMismatch (identifierAt record))
    | none => .error (.unknownSelector (byteAt record 16))

/-- The operation at the front of the bytes, with the bytes after its record. Total. -/
def decode (record : List Byte) : Except DecodeError (Instr × List Byte) :=
  match selectOperation record with
  | .error e => .error e
  | .ok o =>
    if record.length < o.recordBytes then .error .truncated
    else .ok (o.operands record, record.drop o.recordBytes)

/-! ### Encoding -/

/-- The top byte of the row's identifier word. -/
def Operation.topByte (o : Operation) : Byte := byteOf o.identifier.1 3

/-- The record of an operation without an extension, from its image's identifier bytes, header bytes and payload. -/
def imageRecord (o : Operation) (id0 id1 id2 id3 : Byte) (header : List Byte) (payload : List Byte) : List Byte :=
  [id0, id1, id2, id3] ++ header ++ payload ++ [o.selector]

def zeros4 : List Byte := [0, 0, 0, 0]

def zeros8 : List Byte := [0, 0, 0, 0, 0, 0, 0, 0]

/-- The record of a request encoder: only `can_id`, `data16` and the payload carry operands (R49). -/
def requestRecord (o : Operation) (canId : Byte) (data16 : BitVec 16) (payload : List Byte) : List Byte :=
  imageRecord o canId (byteOf data16 0) (byteOf data16 1) o.topByte zeros4 payload

/-- The record of a response packer (R50). -/
def responseRecord (o : Operation) (host canId aux : Byte) (hdr : Hdr) (payload : List Byte) : List Byte :=
  imageRecord o host canId aux (o.topByte ||| (hdr.res2.setWidth 8 <<< 5)) [hdr.len, hdr.pad, hdr.res0, hdr.len8] payload

/-- The record of an operation whose image carries no operand. -/
def bareRecord (o : Operation) : List Byte := imageRecord o 0 0 0 o.topByte zeros4 zeros8

def encodeF64 (x : F64) : List Byte := bytesLe x.bits 8

def encodeRange (r : PhysicalRange) : List Byte := encodeF64 r.min ++ encodeF64 r.max

def encodeRangeSet (r : RangeSet) : List Byte :=
  encodeRange r.angle ++ encodeRange r.velocity ++ encodeRange r.torque ++ encodeRange r.kp ++ encodeRange r.kd

def encodeCommand (c : ActuatorCommand) : List Byte :=
  encodeF64 c.qpos ++ encodeF64 c.qvel ++ encodeF64 c.qfrc ++ encodeF64 c.kp ++ encodeF64 c.kd

/-- The record of an operation. -/
def encode : Instr → List Byte
  | .scale value source target =>
    bareRecord .scale ++ (encodeF64 value ++ encodeRange source ++ encodeRange target)
  | .quant16 r => bareRecord .quant16 ++ encodeF64 r
  | .scaleToWire value eng => bareRecord .scaleToWire ++ (encodeF64 value ++ encodeRange eng)
  | .scaleFromWire raw eng => bareRecord .scaleFromWire ++ (bytesLe raw 2 ++ encodeRange eng)
  | .encObtainId m => requestRecord .encObtainId m.canId 0 zeros8
  | .encControl m => requestRecord .encControl m.canId m.torque
      (bytesBe m.angle 2 ++ bytesBe m.velocity 2 ++ bytesBe m.kp 2 ++ bytesBe m.kd 2)
  | .encMotorEnable m => requestRecord .encMotorEnable m.canId 0 zeros8
  | .encFeedback m => requestRecord .encFeedback m.canId 0 zeros8
  | .encReadAllParams m => requestRecord .encReadAllParams m.canId 0 (bytesLe m.mcuUid 8)
  | .encZeroPosition m => requestRecord .encZeroPosition m.canId 0 zeros8
  | .encParamRead m => requestRecord .encParamRead m.canId 0 (bytesLe m.index 2 ++ [0, 0, 0, 0, 0, 0])
  | .encParamWrite m => requestRecord .encParamWrite m.canId 0 (bytesLe m.index 2 ++ [0, 0] ++ m.data.toList)
  | .encDataSave m => requestRecord .encDataSave m.canId 0 zeros8
  | .controlFromEng canId cmd ranges =>
    requestRecord .controlFromEng canId 0 zeros8 ++ (encodeCommand cmd ++ encodeRangeSet ranges)
  | .packObtainIdResp m => responseRecord .packObtainIdResp m.host m.canId m.aux m.hdr (bytesLe m.mcuUid 8)
  | .packFeedbackResp m => responseRecord .packFeedbackResp m.host m.canId m.status m.hdr
      (bytesBe m.angle 2 ++ bytesBe m.velocity 2 ++ bytesBe m.torque 2 ++ m.tail.toList)
  | .packReadAllParamsResp m => responseRecord .packReadAllParamsResp m.host m.canId m.byteMarker m.hdr
      (bytesLe m.paramCode 2 ++ m.data.toList)
  | .packParamReadResp m => responseRecord .packParamReadResp m.host m.canId m.status m.hdr
      (bytesLe m.index 2 ++ m.rsv.toList ++ m.data.toList)
  | .mux => bareRecord .mux
  | .dec => bareRecord .dec
  | .unpackObtainIdResp => bareRecord .unpackObtainIdResp
  | .unpackFeedbackResp => bareRecord .unpackFeedbackResp
  | .unpackReadAllParamsResp => bareRecord .unpackReadAllParamsResp
  | .unpackParamReadResp => bareRecord .unpackParamReadResp
  | .unpackObtainIdReq => bareRecord .unpackObtainIdReq
  | .unpackControlReq => bareRecord .unpackControlReq
  | .unpackMotorEnableReq => bareRecord .unpackMotorEnableReq
  | .unpackFeedbackReq => bareRecord .unpackFeedbackReq
  | .unpackReadAllParamsReq => bareRecord .unpackReadAllParamsReq
  | .unpackZeroPositionReq => bareRecord .unpackZeroPositionReq
  | .unpackParamReadReq => bareRecord .unpackParamReadReq
  | .unpackParamWriteReq => bareRecord .unpackParamWriteReq
  | .unpackDataSaveReq => bareRecord .unpackDataSaveReq
  | .feedbackToEng ranges => bareRecord .feedbackToEng ++ encodeRangeSet ranges

/-! ### The host's table words -/

/-- The record whose first `nbits` bits are `w`, byte 0 the least significant, every other byte up to the longest
record's end zero. -/
def recordOfWord (nbits w : Nat) : List Byte :=
  (List.range longestRecord).map fun k => if k < nbits / 8 then BitVec.ofNat 8 (w >>> (8 * k)) else 0

/-- The operation the decoder reads from a word numbered as spec/opcode_table.json numbers it: its selector byte is zero, so
the identifier word alone selects the row (log 2). -/
def decodeTableWord (nbits w : Nat) : Option Instr :=
  match decode (recordOfWord nbits w) with
  | .ok (i, _) => some i
  | .error _ => none

end Sys2Proof
end

