-- ==== Sys2Proof/Machine/State.lean ====
section
/-! DEFINITION. The state of the block as plain data: the four channels of 10_state.md R20 and the parameters it was built
with (R18, R26). Nothing else: the block keeps no state from one operation to the next (R19), and has no registers, program
counter, flags or control registers (R15 to R18). -/

namespace Sys2Proof.Machine

/-- The one address space: byte positions 0 to 15 of a frame (R27), as the cells that differ from what an unlisted
address reads as, addresses strictly rising. -/
abbrev Memory := List Host.Cell

/-- A frame: sixteen bytes (20_memory.md R30). -/
abbrev Frame := Memory

/-- How many byte positions there are (`FRAME_BYTES`, 00_scope.md R9). -/
def frameBytes : Nat := 16

/-- What an unlisted address reads as: zero, as a frame under construction starts (41_encode.md R99). -/
def Memory.unlisted : Byte := 0

/-- The canonical form: addresses strictly rising from `lo` on, all below 16, no entry equal to what an unlisted
address reads as. -/
def Memory.wfFrom : Nat → Memory → Bool
  | _, [] => true
  | lo, (a, b) :: rest =>
    decide (lo ≤ a) && decide (a < frameBytes) && (b != Memory.unlisted) && Memory.wfFrom (a + 1) rest

def Memory.wf (m : Memory) : Bool := Memory.wfFrom 0 m

/-- The frame of sixteen zero bytes. -/
def Frame.zero : Frame := []

/-- What an operation ends with when it succeeds: the value its rule returns. -/
inductive Value where
  | f64 (x : F64)
  | u16 (n : BitVec 16)
  | u5 (m : BitVec 5)
  | frame (f : Frame)
  | response (r : Response)
  | obtainIdResp (m : ObtainIdResp)
  | feedbackResp (m : FeedbackResp)
  | readAllParamsResp (m : ReadAllParamsResp)
  | paramReadResp (m : ParamReadResp)
  | obtainIdReq (m : ObtainIdReq)
  | controlReq (m : ControlReq)
  | motorEnableReq (m : MotorEnableReq)
  | feedbackReq (m : FeedbackReq)
  | readAllParamsReq (m : ReadAllParamsReq)
  | zeroPositionReq (m : ZeroPositionReq)
  | paramReadReq (m : ParamReadReq)
  | paramWriteReq (m : ParamWriteReq)
  | dataSaveReq (m : DataSaveReq)
  | feedbackUpdate (canId : Byte) (u : FeedbackUpdate)
deriving DecidableEq, Repr

/-- The closed list of error outcomes with what each records (60_exceptions.md R160). -/
inductive OpError where
  /-- by `DEC` and `FEEDBACK_TO_ENG`: the mux is not in `DECODABLE_MUX` -/
  | unknownMux (mux : BitVec 5)
  /-- by `FEEDBACK_TO_ENG`: the frame decodes to another shape -/
  | notFeedback (mux : BitVec 5)
  /-- by `SCALE`, `SCALE_TO_WIRE`, `CONTROL_FROM_ENG`: the source range's ends are equal -/
  | scaleDegenerateRange (range : PhysicalRange)
  /-- by `QUANT16`, `SCALE_TO_WIRE`, `CONTROL_FROM_ENG`, under the policy `fault` -/
  | scaleOutOfRange (r : F64)
deriving DecidableEq, Repr

/-- The outcome on the `result` channel (R17, R20): `Ok(value)` or `Err(cause, info)`. -/
inductive OpResult where
  | ok (v : Value)
  | err (e : OpError)
deriving DecidableEq, Repr

structure State where
  /-- what the block was built with; no operation writes it (R18, 70_reset_and_hazards.md R181) -/
  params : Params
  /-- the `op` channel: the record of the operation the host has issued; empty when it has issued none (log 1, log 3) -/
  op : List Byte
  /-- the `frame_in` channel: the frame the host put there last; no operation takes it off (log 5, log 22) -/
  frameIn : Frame
  /-- the `frame_out` channel: the frame the last operation produced, if it produced one (log 6, log 7) -/
  frameOut : Option Frame
  /-- the `result` channel: the outcome of the last operation, if one has ended (log 6) -/
  result : Option OpResult
deriving DecidableEq, Repr

/-- The faults of the machine: none. Every access is inside the frame (20_memory.md R36) and an error of an operation is
an outcome on `result`, after which the block goes on (60_exceptions.md R165). Safe and unsafe do not arise. -/
inductive Fault : Type
deriving DecidableEq, Repr

inductive Refusal where
  /-- raised by an arm of `exec` for an operation without a meaning; safe. No arm raises it. -/
  | notModelled (mnemonic : String)
  /-- raised by `step` when the bytes on the `op` channel are no operation's record: the spec has no such operation; safe -/
  | undecodable (e : DecodeError)
deriving DecidableEq, Repr

/-- The machine before its first operation (R26): the parameters at the spec's defaults (log 8), no operation issued
(log 3), sixteen zero bytes on `frame_in` (log 5), nothing on the output channels (log 6). -/
def State.reset : State where
  params := Params.default
  op := []
  frameIn := Frame.zero
  frameOut := none
  result := none

end Sys2Proof.Machine
end

