-- ==== Sys2Proof/Machine/Ops.lean ====
section
/-! DEFINITION. The named operations over memory and channels: reading and writing one byte and a run of bytes of a frame
(`FrameRead`, `FrameWrite`, 20_memory.md R36), fetching the issued operation, and the three ways an operation ends: with a value,
with a frame, with an error outcome.

The error outcome is the spec's only exception (60_exceptions.md R165), and `raise` takes it. There is no return from
one and nothing to restore (R170), so there is no operation for it here. -/

namespace Sys2Proof.Machine

/-! ### Memory -/

/-- The byte at an address. Every read is idempotent and without side effect (R35). -/
def Memory.read : Memory → Nat → Byte
  | [], _ => Memory.unlisted
  | (k, b) :: rest, a => if k = a then b else Memory.read rest a

/-- A cell put in its place among cells of other addresses. -/
def Memory.insertCell (a : Nat) (b : Byte) : Memory → Memory
  | [] => [(a, b)]
  | (k, c) :: rest => if a < k then (a, b) :: (k, c) :: rest else (k, c) :: Memory.insertCell a b rest

/-- A write in the canonical form: writing what an unlisted address reads as removes the entry. -/
def Memory.put (m : Memory) (a : Nat) (b : Byte) : Memory :=
  let others := List.filter (fun cell => cell.1 != a) m
  if b = Memory.unlisted then others else Memory.insertCell a b others

/-- One byte written. There is no byte position above 15 (20_memory.md R37); no operation writes there. -/
def Memory.write (m : Memory) (a : Nat) (b : Byte) : Memory :=
  if a < frameBytes then Memory.put m a b else m

/-- `FrameRead(F, off, n)` (R36). -/
def frameRead (f : Frame) (off n : Nat) : List Byte := (List.range n).map fun k => Memory.read f (off + k)

/-- `FrameWrite(F, off, n, b)` (R36), `n` being the length of `b`. -/
def frameWrite (f : Frame) (off : Nat) : List Byte → Frame
  | [] => f
  | b :: rest => frameWrite (Memory.write f off b) (off + 1) rest

/-- The frame of these bytes, byte index 0 first. -/
def frameOfBytes (bytes : List Byte) : Frame := frameWrite Frame.zero 0 bytes

/-- The sixteen bytes of a frame. -/
def frameToBytes (f : Frame) : List Byte := frameRead f 0 frameBytes

/-! ### Fields of a frame (20_memory.md R32, R33) -/

def frameLe16 (f : Frame) (off : Nat) : BitVec 16 := le16 (Memory.read f off) (Memory.read f (off + 1))

def frameBe16 (f : Frame) (off : Nat) : BitVec 16 := be16 (Memory.read f off) (Memory.read f (off + 1))

def frameBytes2 (f : Frame) (off : Nat) : Bytes2 := ⟨Memory.read f off, Memory.read f (off + 1)⟩

def frameBytes4 (f : Frame) (off : Nat) : Bytes4 :=
  ⟨Memory.read f off, Memory.read f (off + 1), Memory.read f (off + 2), Memory.read f (off + 3)⟩

def frameBytes6 (f : Frame) (off : Nat) : Bytes6 :=
  ⟨Memory.read f off, Memory.read f (off + 1), Memory.read f (off + 2), Memory.read f (off + 3), Memory.read f (off + 4),
   Memory.read f (off + 5)⟩

def frameBytes8 (f : Frame) (off : Nat) : Bytes8 :=
  ⟨Memory.read f off, Memory.read f (off + 1), Memory.read f (off + 2), Memory.read f (off + 3), Memory.read f (off + 4),
   Memory.read f (off + 5), Memory.read f (off + 6), Memory.read f (off + 7)⟩

def frameLe64 (f : Frame) (off : Nat) : BitVec 64 := le64 (frameBytes8 f off)

/-- The identifier word `ID = le32(F[0..3])` (R31). -/
def frameIdentifier (f : Frame) : BitVec 32 :=
  le32 (Memory.read f 0) (Memory.read f 1) (Memory.read f 2) (Memory.read f 3)

/-! ### Issuing and fetching an operation -/

/-- The host puts an operation and a frame on the channels (10_state.md R20). -/
def State.issue (s : State) (i : Instr) (frameIn : Frame) : State :=
  { s with op := encode i, frameIn := frameIn }

/-- The issued operation, if there is one: `none` when the host has issued none (R16). -/
def fetch (s : State) : Option (Except DecodeError Instr) :=
  match s.op with
  | [] => none
  | record =>
    match decode record with
    | .error e => some (.error e)
    | .ok (i, _) => some (.ok i)

/-- The `op` channel after its operation has been taken (log 4). A frame on `frame_in` stays there: that a reader "consumes" it
(10_state.md R20) is taken to mean that it reads it, and only the host replaces it (DESIGN CHOICE, log 22). -/
def consumeOp (s : State) : State := { s with op := [] }

/-! ### How an operation ends -/

/-- `return v` of an operation that makes no frame (00_scope.md R12): `Ok(v)` on `result`, no frame on `frame_out`
(log 7). `frame_in` keeps the frame a reader has read (log 22). -/
def deliver (v : Value) (s : State) : Host.Outcome State Fault Refusal :=
  .next { s with frameOut := none, result := some (.ok v) }

/-- `return F` of an operation that makes a frame: "the result goes to `frame_out`" (41_encode.md R95) and the outcome is
`Ok(F)` (R100). -/
def deliverFrame (f : Frame) (s : State) : Host.Outcome State Fault Refusal :=
  .next { s with frameOut := some f, result := some (.ok (.frame f)) }

/-- `raise E(info)` (60_exceptions.md R165): the operation ends with `Err(E, info)` on `result` and produces no frame;
nothing else changes. -/
def raise (e : OpError) (s : State) : Host.Outcome State Fault Refusal :=
  .next { s with frameOut := none, result := some (.err e) }

end Sys2Proof.Machine
end

