-- ==== Sys2Proof/Machine/Flags.lean ====
section
/-! DEFINITION. The extended-frame flag and the mux, the sub-fields of frame byte 3 (30_encoding.md R43, R44). The block has
no status flags: no operation writes or reads one (10_state.md R17). -/

namespace Sys2Proof.Machine

/-- `SET_EFF(F)`: `F[3] <- F[3] OR 0x80` (41_encode.md R97). -/
def setEff (f : Frame) : Frame := Memory.write f 3 (Memory.read f 3 ||| 0x80)

/-- `CLEAR_EFF(F)`: `F[3] <- F[3] AND 0x7F` (42_decode.md R116). -/
def clearEff (f : Frame) : Frame := Memory.write f 3 (Memory.read f 3 &&& 0x7F)

/-- `MUX(F) = F[3] AND 0x1F` (42_decode.md R117). -/
def muxOf (f : Frame) : BitVec 5 := (Memory.read f 3 &&& muxMask).setWidth 5

/-- Whether a mux is in `DECODABLE_MUX` (42_decode.md R121). -/
def decodable (p : Params) (mux : BitVec 5) : Bool :=
  (p.decodableMux.obtainId && mux == muxObtainId) || (p.decodableMux.feedback && mux == muxFeedback) ||
  (p.decodableMux.paramRead && mux == muxParamRead) || (p.decodableMux.readAllParams && mux == muxReadAllParams)

end Sys2Proof.Machine
end

