-- ==== Sys2Proof/Machine/Operands.lean ====
section
/-! DEFINITION. The helper steps every shape shares, and the layout of each of the thirteen shapes in both directions
(30_encoding.md R45 to R64): a `store` function builds the frame of a record (41_encode.md R95: sixteen zero bytes, the header, the
fields, the flag last), a `load` function reads a record from a frame whose flag is clear. -/

namespace Sys2Proof.Machine

/-! ### PACK_HDR and UNPACK_HDR -/

/-- `PACK_HDR(F, dst, data16, mux, hdr)` (41_encode.md R96). -/
def packHdr (f : Frame) (dst : Byte) (data16 : BitVec 16) (mux : BitVec 5) (hdr : Hdr) : Frame :=
  frameWrite f 0
    [dst, byteOf data16 0, byteOf data16 1, (hdr.res2.setWidth 8 <<< 5) ||| mux.setWidth 8,
     hdr.len, hdr.pad, hdr.res0, hdr.len8]

/-- `UNPACK_HDR(G)` (42_decode.md R118). -/
def unpackHdr (g : Frame) : Hdr :=
  { res2 := (Memory.read g 3).extractLsb' 5 2, len := Memory.read g 4, pad := Memory.read g 5
    res0 := Memory.read g 6, len8 := Memory.read g 7 }

/-- The three steps of every encoder (41_encode.md R95): zero frame and header, payload, flag. -/
def buildFrame (dst : Byte) (data16 : BitVec 16) (mux : BitVec 5) (hdr : Hdr) (payload : List Byte) : Frame :=
  setEff (frameWrite (packHdr Frame.zero dst data16 mux hdr) 8 payload)

/-! ### Requests (R51 to R59; 41_encode.md R102 to R110) -/

def storeObtainIdReq (p : Params) (m : ObtainIdReq) : Frame :=
  buildFrame m.canId p.hostData16.obtainId muxObtainId Hdr.canonical []

/-- Torque is the identifier's data field, little-endian; the other four axes are big-endian in the payload (R52). -/
def storeControlReq (m : ControlReq) : Frame :=
  buildFrame m.canId m.torque muxControl Hdr.canonical
    (bytesBe m.angle 2 ++ bytesBe m.velocity 2 ++ bytesBe m.kp 2 ++ bytesBe m.kd 2)

def storeMotorEnableReq (p : Params) (m : MotorEnableReq) : Frame :=
  buildFrame m.canId p.hostData16.motorEnable p.muxMotorEnable Hdr.canonical []

def storeFeedbackReq (p : Params) (m : FeedbackReq) : Frame :=
  buildFrame m.canId p.hostData16.feedback p.muxFeedbackReq Hdr.canonical []

def storeReadAllParamsReq (p : Params) (m : ReadAllParamsReq) : Frame :=
  buildFrame m.canId p.hostData16.readAllParams muxReadAllParams Hdr.canonical (bytesLe m.mcuUid 8)

def storeZeroPositionReq (p : Params) (m : ZeroPositionReq) : Frame :=
  buildFrame m.canId p.hostData16.zeroPosition muxZeroPosition Hdr.canonical p.zeroPosPayload.toList

def storeParamReadReq (p : Params) (m : ParamReadReq) : Frame :=
  buildFrame m.canId p.hostData16.paramRead muxParamRead Hdr.canonical (bytesLe m.index 2)

/-- The index at `F[8..9]`, `F[10..11]` zero, the data at `F[12..15]` (R58). -/
def storeParamWriteReq (p : Params) (m : ParamWriteReq) : Frame :=
  buildFrame m.canId p.hostData16.paramWrite muxParamWrite Hdr.canonical (bytesLe m.index 2 ++ [0, 0] ++ m.data.toList)

def storeDataSaveReq (p : Params) (m : DataSaveReq) : Frame :=
  buildFrame m.canId p.hostData16.dataSave muxDataSave Hdr.canonical p.dataSavePayload.toList

def loadObtainIdReq (g : Frame) : ObtainIdReq := { canId := Memory.read g 0 }

def loadControlReq (g : Frame) : ControlReq :=
  { canId := Memory.read g 0, torque := frameLe16 g 1, angle := frameBe16 g 8, velocity := frameBe16 g 10
    kp := frameBe16 g 12, kd := frameBe16 g 14 }

def loadMotorEnableReq (g : Frame) : MotorEnableReq := { canId := Memory.read g 0 }

def loadFeedbackReq (g : Frame) : FeedbackReq := { canId := Memory.read g 0 }

def loadReadAllParamsReq (g : Frame) : ReadAllParamsReq := { canId := Memory.read g 0, mcuUid := frameLe64 g 8 }

def loadZeroPositionReq (g : Frame) : ZeroPositionReq := { canId := Memory.read g 0 }

def loadParamReadReq (g : Frame) : ParamReadReq := { canId := Memory.read g 0, index := frameLe16 g 8 }

def loadParamWriteReq (g : Frame) : ParamWriteReq :=
  { canId := Memory.read g 0, index := frameLe16 g 8, data := frameBytes4 g 12 }

def loadDataSaveReq (g : Frame) : DataSaveReq := { canId := Memory.read g 0 }

/-! ### Responses (R61 to R64; 41_encode.md R111, 42_decode.md R122 to R125) -/

/-- The identifier's data field of a response: the actuator's byte low, the kind-specific byte high (R50, R111). -/
def storeObtainIdResp (m : ObtainIdResp) : Frame :=
  buildFrame m.host (le16 m.canId m.aux) muxObtainId m.hdr (bytesLe m.mcuUid 8)

def storeFeedbackResp (m : FeedbackResp) : Frame :=
  buildFrame m.host (le16 m.canId m.status) muxFeedback m.hdr
    (bytesBe m.angle 2 ++ bytesBe m.velocity 2 ++ bytesBe m.torque 2 ++ m.tail.toList)

def storeReadAllParamsResp (m : ReadAllParamsResp) : Frame :=
  buildFrame m.host (le16 m.canId m.byteMarker) muxReadAllParams m.hdr (bytesLe m.paramCode 2 ++ m.data.toList)

def storeParamReadResp (m : ParamReadResp) : Frame :=
  buildFrame m.host (le16 m.canId m.status) muxParamRead m.hdr
    (bytesLe m.index 2 ++ m.rsv.toList ++ m.data.toList)

def loadObtainIdResp (g : Frame) : ObtainIdResp :=
  { host := Memory.read g 0, canId := Memory.read g 1, aux := Memory.read g 2, mcuUid := frameLe64 g 8
    hdr := unpackHdr g }

def loadFeedbackResp (g : Frame) : FeedbackResp :=
  { host := Memory.read g 0, canId := Memory.read g 1, status := Memory.read g 2, angle := frameBe16 g 8
    velocity := frameBe16 g 10, torque := frameBe16 g 12, tail := frameBytes2 g 14, hdr := unpackHdr g }

def loadReadAllParamsResp (g : Frame) : ReadAllParamsResp :=
  { host := Memory.read g 0, canId := Memory.read g 1, byteMarker := Memory.read g 2, paramCode := frameLe16 g 8
    data := frameBytes6 g 10, hdr := unpackHdr g }

def loadParamReadResp (g : Frame) : ParamReadResp :=
  { host := Memory.read g 0, canId := Memory.read g 1, status := Memory.read g 2, index := frameLe16 g 8
    rsv := frameBytes2 g 10, data := frameBytes4 g 12, hdr := unpackHdr g }

end Sys2Proof.Machine
end

