-- ==== Sys2Proof/Machine/Scaler.lean ====
section
/-! DEFINITION. The proportional scaler (40_scaler.md): `SCALE`, `QUANT16`, `SCALE_TO_WIRE`, `SCALE_FROM_WIRE`, as functions that
answer a value or an error outcome, and the four operations. None reads or writes a frame. -/

namespace Sys2Proof.Machine

/-- The operations of R82 in the order of the formula's parentheses, in the arithmetic `Numerics` names. -/
def scaleFormula (n : Numerics) (value : F64) (source target : PhysicalRange) : F64 :=
  let d1 := n.compute .sub value source.min
  let d2 := n.compute .sub source.max source.min
  let q := n.compute .div d1 d2
  let w := n.compute .sub target.max target.min
  let p := n.compute .mul q w
  n.compute .add target.min p

/-- `SCALE` (R82, R83): no number where the source range's ends are equal; a value outside the range is extrapolated, and a
non-finite operand gives what the operations give (R84). Ends are compared as `f64` whatever `Numerics` is. -/
def scale (n : Numerics) (value : F64) (source target : PhysicalRange) : Except OpError F64 :=
  if source.max.eq source.min then .error (.scaleDegenerateRange source)
  else .ok (scaleFormula n value source target)

/-- Where R86 applies: `r` has no code, and `saturated` is the end code nearest to it. -/
def quantOutOfRange (p : Params) (r : F64) (saturated : BitVec 16) : Except OpError (BitVec 16) :=
  match p.quantPolicy with
  | .fault => .error (.scaleOutOfRange r)
  | .saturate => .ok saturated

/-- `QUANT16` (R85, R86). -/
def quant16 (p : Params) (r : F64) : Except OpError (BitVec 16) :=
  if r.isNaN then quantOutOfRange p r 0
  else if r.isInf then quantOutOfRange p r (if r.sign then 0 else 65535)
  else
    let n := r.roundToInt p.quantRound
    if n < 0 then quantOutOfRange p r 0
    else if 65535 < n then quantOutOfRange p r 65535
    else .ok (BitVec.ofInt 16 n)

/-- `SCALE_TO_WIRE` (R87): the degenerate range is reported before the range of the result (60_exceptions.md R168). -/
def scaleToWire (p : Params) (value : F64) (eng : PhysicalRange) : Except OpError (BitVec 16) :=
  match scale p.numerics value eng transportRange with
  | .error e => .error e
  | .ok r => quant16 p r

/-- `SCALE_FROM_WIRE` (R88): the source range is `T`, which is never degenerate, so this always answers a value. -/
def scaleFromWire (n : Numerics) (raw : BitVec 16) (eng : PhysicalRange) : F64 :=
  scaleFormula n (F64.ofU16 raw) transportRange eng

/-! ### The operations -/

def execScale (value : F64) (source target : PhysicalRange) (s : State) : Host.Outcome State Fault Refusal :=
  match scale s.params.numerics value source target with
  | .error e => raise e s
  | .ok r => deliver (.f64 r) s

def execQuant16 (r : F64) (s : State) : Host.Outcome State Fault Refusal :=
  match quant16 s.params r with
  | .error e => raise e s
  | .ok n => deliver (.u16 n) s

def execScaleToWire (value : F64) (eng : PhysicalRange) (s : State) : Host.Outcome State Fault Refusal :=
  match scaleToWire s.params value eng with
  | .error e => raise e s
  | .ok n => deliver (.u16 n) s

def execScaleFromWire (raw : BitVec 16) (eng : PhysicalRange) (s : State) : Host.Outcome State Fault Refusal :=
  deliver (.f64 (scaleFromWire s.params.numerics raw eng)) s

end Sys2Proof.Machine
end

