-- ==== Sys2Proof/Machine/Encode.lean ====
section
/-! DEFINITION. The request encoders and `CONTROL_FROM_ENG` (41_encode.md sections 2 and 3). An encoder reads no frame, no
earlier result and no state but the parameters (R95), and never fails (R100). -/

namespace Sys2Proof.Machine

/-- R102. -/
def execEncObtainId (m : ObtainIdReq) (s : State) : Host.Outcome State Fault Refusal :=
  deliverFrame (storeObtainIdReq s.params m) s

/-- R103. -/
def execEncControl (m : ControlReq) (s : State) : Host.Outcome State Fault Refusal :=
  deliverFrame (storeControlReq m) s

/-- R104. -/
def execEncMotorEnable (m : MotorEnableReq) (s : State) : Host.Outcome State Fault Refusal :=
  deliverFrame (storeMotorEnableReq s.params m) s

/-- R105. -/
def execEncFeedback (m : FeedbackReq) (s : State) : Host.Outcome State Fault Refusal :=
  deliverFrame (storeFeedbackReq s.params m) s

/-- R106. The host's duty to hold a UID first is not the block's (70_reset_and_hazards.md R183). -/
def execEncReadAllParams (m : ReadAllParamsReq) (s : State) : Host.Outcome State Fault Refusal :=
  deliverFrame (storeReadAllParamsReq s.params m) s

/-- R107. -/
def execEncZeroPosition (m : ZeroPositionReq) (s : State) : Host.Outcome State Fault Refusal :=
  deliverFrame (storeZeroPositionReq s.params m) s

/-- R108. -/
def execEncParamRead (m : ParamReadReq) (s : State) : Host.Outcome State Fault Refusal :=
  deliverFrame (storeParamReadReq s.params m) s

/-- R109. -/
def execEncParamWrite (m : ParamWriteReq) (s : State) : Host.Outcome State Fault Refusal :=
  deliverFrame (storeParamWriteReq s.params m) s

/-- R110. -/
def execEncDataSave (m : DataSaveReq) (s : State) : Host.Outcome State Fault Refusal :=
  deliverFrame (storeDataSaveReq s.params m) s

/-- The five scalings of R112, in the order angle, velocity, torque, kp, kd; the first error ends them
(60_exceptions.md R168). The pairing of axes with ranges is 40_scaler.md R91. -/
def scaleCommand (p : Params) (canId : Byte) (cmd : ActuatorCommand) (ranges : RangeSet) : Except OpError ControlReq :=
  match scaleToWire p cmd.qpos ranges.angle with
  | .error e => .error e
  | .ok angle =>
    match scaleToWire p cmd.qvel ranges.velocity with
    | .error e => .error e
    | .ok velocity =>
      match scaleToWire p cmd.qfrc ranges.torque with
      | .error e => .error e
      | .ok torque =>
        match scaleToWire p cmd.kp ranges.kp with
        | .error e => .error e
        | .ok kp =>
          match scaleToWire p cmd.kd ranges.kd with
          | .error e => .error e
          | .ok kd => .ok { canId := canId, angle := angle, velocity := velocity, torque := torque, kp := kp, kd := kd }

/-- R112. -/
def execControlFromEng (canId : Byte) (cmd : ActuatorCommand) (ranges : RangeSet) (s : State) :
    Host.Outcome State Fault Refusal :=
  match scaleCommand s.params canId cmd ranges with
  | .error e => raise e s
  | .ok m => deliverFrame (storeControlReq m) s

/-! ### A typed value as write data (R113, a helper of the host) -/

/-- An integer of one byte, two's complement or unsigned: `bytes_le(v mod 2^8, 1) || 0^3`. -/
def writeDataInt1 (v : Int) : Bytes4 := ⟨BitVec.ofInt 8 v, 0, 0, 0⟩

/-- An integer of two bytes. -/
def writeDataInt2 (v : Int) : Bytes4 := ⟨byteOf (BitVec.ofInt 16 v) 0, byteOf (BitVec.ofInt 16 v) 1, 0, 0⟩

/-- An integer of four bytes. -/
def writeDataInt4 (v : Int) : Bytes4 :=
  ⟨byteOf (BitVec.ofInt 32 v) 0, byteOf (BitVec.ofInt 32 v) 1, byteOf (BitVec.ofInt 32 v) 2, byteOf (BitVec.ofInt 32 v) 3⟩

/-- An `f32`, from its binary32 bit pattern. -/
def writeDataF32 (pattern : BitVec 32) : Bytes4 :=
  ⟨byteOf pattern 0, byteOf pattern 1, byteOf pattern 2, byteOf pattern 3⟩

end Sys2Proof.Machine
end

