-- ==== Sys2Proof/Machine/Pack.lean ====
section
/-! DEFINITION. The response packers (41_encode.md R111): a response record to a frame, the header written as given. -/

namespace Sys2Proof.Machine

def execPackObtainIdResp (m : ObtainIdResp) (s : State) : Host.Outcome State Fault Refusal :=
  deliverFrame (storeObtainIdResp m) s

def execPackFeedbackResp (m : FeedbackResp) (s : State) : Host.Outcome State Fault Refusal :=
  deliverFrame (storeFeedbackResp m) s

def execPackReadAllParamsResp (m : ReadAllParamsResp) (s : State) : Host.Outcome State Fault Refusal :=
  deliverFrame (storeReadAllParamsResp m) s

def execPackParamReadResp (m : ParamReadResp) (s : State) : Host.Outcome State Fault Refusal :=
  deliverFrame (storeParamReadResp m) s

end Sys2Proof.Machine
end

