-- ==== Sys2Proof/Machine/Unpack.lean ====
section
/-! DEFINITION. The decoder (42_decode.md): `MUX`, `DEC`, the thirteen unpackers and `FEEDBACK_TO_ENG`. Each reads the frame on
`frame_in`, the constants and the parameters, and nothing else (R115); none checks a field but the mux (R119). -/

namespace Sys2Proof.Machine

/-! ### Dispatch -/

/-- `DEC` as a function (R120, R121): clear the flag, extract the mux, refuse it or unpack the shape it selects. A mux
of `DECODABLE_MUX` is one of the four, so the last line is not reached by one. -/
def decodeFrame (p : Params) (f : Frame) : Except OpError Response :=
  let g := clearEff f
  let m := muxOf g
  if !decodable p m then .error (.unknownMux m)
  else if m = muxObtainId then .ok (.obtainId (loadObtainIdResp g))
  else if m = muxFeedback then .ok (.feedback (loadFeedbackResp g))
  else if m = muxParamRead then .ok (.paramRead (loadParamReadResp g))
  else if m = muxReadAllParams then .ok (.readAllParams (loadReadAllParamsResp g))
  else .error (.unknownMux m)

/-- R117. -/
def execMux (s : State) : Host.Outcome State Fault Refusal := deliver (.u5 (muxOf s.frameIn)) s

/-- R120. -/
def execDec (s : State) : Host.Outcome State Fault Refusal :=
  match decodeFrame s.params s.frameIn with
  | .error e => raise e s
  | .ok r => deliver (.response r) s

/-! ### Response unpackers (R122 to R125): total, whatever the mux. The flag is no part of what they read. -/

def execUnpackObtainIdResp (s : State) : Host.Outcome State Fault Refusal :=
  deliver (.obtainIdResp (loadObtainIdResp s.frameIn)) s

def execUnpackFeedbackResp (s : State) : Host.Outcome State Fault Refusal :=
  deliver (.feedbackResp (loadFeedbackResp s.frameIn)) s

def execUnpackReadAllParamsResp (s : State) : Host.Outcome State Fault Refusal :=
  deliver (.readAllParamsResp (loadReadAllParamsResp s.frameIn)) s

def execUnpackParamReadResp (s : State) : Host.Outcome State Fault Refusal :=
  deliver (.paramReadResp (loadParamReadResp s.frameIn)) s

/-! ### Request unpackers (R126): total, whatever the mux, the header and the unused bytes -/

def execUnpackObtainIdReq (s : State) : Host.Outcome State Fault Refusal :=
  deliver (.obtainIdReq (loadObtainIdReq s.frameIn)) s

def execUnpackControlReq (s : State) : Host.Outcome State Fault Refusal :=
  deliver (.controlReq (loadControlReq s.frameIn)) s

def execUnpackMotorEnableReq (s : State) : Host.Outcome State Fault Refusal :=
  deliver (.motorEnableReq (loadMotorEnableReq s.frameIn)) s

def execUnpackFeedbackReq (s : State) : Host.Outcome State Fault Refusal :=
  deliver (.feedbackReq (loadFeedbackReq s.frameIn)) s

def execUnpackReadAllParamsReq (s : State) : Host.Outcome State Fault Refusal :=
  deliver (.readAllParamsReq (loadReadAllParamsReq s.frameIn)) s

def execUnpackZeroPositionReq (s : State) : Host.Outcome State Fault Refusal :=
  deliver (.zeroPositionReq (loadZeroPositionReq s.frameIn)) s

def execUnpackParamReadReq (s : State) : Host.Outcome State Fault Refusal :=
  deliver (.paramReadReq (loadParamReadReq s.frameIn)) s

def execUnpackParamWriteReq (s : State) : Host.Outcome State Fault Refusal :=
  deliver (.paramWriteReq (loadParamWriteReq s.frameIn)) s

def execUnpackDataSaveReq (s : State) : Host.Outcome State Fault Refusal :=
  deliver (.dataSaveReq (loadDataSaveReq s.frameIn)) s

/-! ### The compound decoder -/

/-- The three scalings of R128, with the pairing of 40_scaler.md R91; they cannot fail (R88). -/
def scaleFeedback (n : Numerics) (m : FeedbackResp) (ranges : RangeSet) : FeedbackUpdate :=
  { position := scaleFromWire n m.angle ranges.angle
    velocity := scaleFromWire n m.velocity ranges.velocity
    torque := scaleFromWire n m.torque ranges.torque }

/-- R128: `UnknownMux` before `NotFeedback` (60_exceptions.md R168). -/
def execFeedbackToEng (ranges : RangeSet) (s : State) : Host.Outcome State Fault Refusal :=
  match decodeFrame s.params s.frameIn with
  | .error e => raise e s
  | .ok (.feedback m) => deliver (.feedbackUpdate m.canId (scaleFeedback s.params.numerics m ranges)) s
  | .ok (.obtainId _) => raise (.notFeedback (muxOf s.frameIn)) s
  | .ok (.paramRead _) => raise (.notFeedback (muxOf s.frameIn)) s
  | .ok (.readAllParams _) => raise (.notFeedback (muxOf s.frameIn)) s

end Sys2Proof.Machine
end

