-- ==== Sys2Proof/Machine/Dispatch.lean ====
section
/-! DEFINITION. One arm per operation, each one call of its meaning. -/

namespace Sys2Proof.Machine

def exec (i : Instr) (s : State) : Host.Outcome State Fault Refusal :=
  match i with
  -- the scaler
  | .scale value source target => Sys2Proof.Machine.execScale value source target s
  | .quant16 r => Sys2Proof.Machine.execQuant16 r s
  | .scaleToWire value eng => Sys2Proof.Machine.execScaleToWire value eng s
  | .scaleFromWire raw eng => Sys2Proof.Machine.execScaleFromWire raw eng s
  -- the encoders
  | .encObtainId m => Sys2Proof.Machine.execEncObtainId m s
  | .encControl m => Sys2Proof.Machine.execEncControl m s
  | .encMotorEnable m => Sys2Proof.Machine.execEncMotorEnable m s
  | .encFeedback m => Sys2Proof.Machine.execEncFeedback m s
  | .encReadAllParams m => Sys2Proof.Machine.execEncReadAllParams m s
  | .encZeroPosition m => Sys2Proof.Machine.execEncZeroPosition m s
  | .encParamRead m => Sys2Proof.Machine.execEncParamRead m s
  | .encParamWrite m => Sys2Proof.Machine.execEncParamWrite m s
  | .encDataSave m => Sys2Proof.Machine.execEncDataSave m s
  | .controlFromEng canId cmd ranges => Sys2Proof.Machine.execControlFromEng canId cmd ranges s
  -- the response packers
  | .packObtainIdResp m => Sys2Proof.Machine.execPackObtainIdResp m s
  | .packFeedbackResp m => Sys2Proof.Machine.execPackFeedbackResp m s
  | .packReadAllParamsResp m => Sys2Proof.Machine.execPackReadAllParamsResp m s
  | .packParamReadResp m => Sys2Proof.Machine.execPackParamReadResp m s
  -- the decoder
  | .mux => Sys2Proof.Machine.execMux s
  | .dec => Sys2Proof.Machine.execDec s
  | .unpackObtainIdResp => Sys2Proof.Machine.execUnpackObtainIdResp s
  | .unpackFeedbackResp => Sys2Proof.Machine.execUnpackFeedbackResp s
  | .unpackReadAllParamsResp => Sys2Proof.Machine.execUnpackReadAllParamsResp s
  | .unpackParamReadResp => Sys2Proof.Machine.execUnpackParamReadResp s
  | .unpackObtainIdReq => Sys2Proof.Machine.execUnpackObtainIdReq s
  | .unpackControlReq => Sys2Proof.Machine.execUnpackControlReq s
  | .unpackMotorEnableReq => Sys2Proof.Machine.execUnpackMotorEnableReq s
  | .unpackFeedbackReq => Sys2Proof.Machine.execUnpackFeedbackReq s
  | .unpackReadAllParamsReq => Sys2Proof.Machine.execUnpackReadAllParamsReq s
  | .unpackZeroPositionReq => Sys2Proof.Machine.execUnpackZeroPositionReq s
  | .unpackParamReadReq => Sys2Proof.Machine.execUnpackParamReadReq s
  | .unpackParamWriteReq => Sys2Proof.Machine.execUnpackParamWriteReq s
  | .unpackDataSaveReq => Sys2Proof.Machine.execUnpackDataSaveReq s
  | .feedbackToEng ranges => Sys2Proof.Machine.execFeedbackToEng ranges s

end Sys2Proof.Machine
end

