-- ==== Sys2Proof/Machine/Step.lean ====
section
/-! DEFINITION. One step: the issued operation, run to its outcome (10_state.md R16, R20). -/

namespace Sys2Proof.Machine

/-- The block "performs one operation when its host issues one, and nothing between operations" (R16). The operation is
taken off the `op` channel (log 4) and run. The frame on `frame_in` stays until the host puts another there (log 22). -/
def step (s : State) : Host.Outcome State Fault Refusal :=
  match fetch s with
  | none => .next s
  | some (.error e) => .refused (.undecodable e)
  | some (.ok i) => exec i (consumeOp s)

/-- `s` with the record of a table word on the `op` channel, as the host would issue it (log 2, log 3). -/
def State.withFetchWord (s : State) (nbits w : Nat) : State := { s with op := recordOfWord nbits w }

end Sys2Proof.Machine
end

