-- ==== Sys2Proof/Machine/Session.lean ====
section
/-! DEFINITION. The actuator session (50_host_context.md section 2), the host's software: it issues the block's operations and
reads their outcomes. It is not part of the block (00_scope.md R6): `step` never calls it and `State` does not hold it. -/

namespace Sys2Proof.Machine

/-- The three states of R131. -/
inductive SessionStatus where
  | reset | ready | awaitingResponse
deriving DecidableEq, Repr

/-- A typed request, as the session records it (R131). -/
inductive Request where
  | obtainId (m : ObtainIdReq)
  | control (m : ControlReq)
  | motorEnable (m : MotorEnableReq)
  | feedback (m : FeedbackReq)
  | readAllParams (m : ReadAllParamsReq)
  | zeroPosition (m : ZeroPositionReq)
  | paramRead (m : ParamReadReq)
  | paramWrite (m : ParamWriteReq)
  | dataSave (m : DataSaveReq)
deriving DecidableEq, Repr

/-- What the caller hands `buildRequest` (R133): all that the session does not hold itself. -/
inductive RequestParams where
  | obtainId
  | control (cmd : ActuatorCommand)
  | motorEnable
  | feedback
  | readAllParams
  | zeroPosition
  | paramRead (index : BitVec 16)
  | paramWrite (index : BitVec 16) (data : Bytes4)
  | dataSave
deriving DecidableEq, Repr

/-- The document's `ProtocolError` class (60_exceptions.md R161, R162). -/
inductive ProtocolError where
  | unknownMux (mux : BitVec 5)
  | canIdMismatch
deriving DecidableEq, Repr

/-- The errors the host can report (R157, 60_exceptions.md R175), and an error outcome of the block that the document has no class
for. -/
inductive HostError where
  | transport
  | protocol (e : ProtocolError)
  | actuatorNotFound
  | missingIdentity
  | timeout
  | outcome (e : OpError)
deriving DecidableEq, Repr

/-- R131. -/
structure Session where
  canId : Byte
  hostId : BitVec 16
  mcuUid : Option (BitVec 64)
  status : SessionStatus
  lastRequest : Option Request
  actuatorRanges : RangeSet
  transportRanges : RangeSet
deriving DecidableEq, Repr

/-- All five transport ranges are `T` (R131, 40_scaler.md R81). -/
def transportRangeSet : RangeSet := ⟨transportRange, transportRange, transportRange, transportRange, transportRange⟩

/-- A new session (70_reset_and_hazards.md R182). -/
def newSession (canId : Byte) (ranges : RangeSet) : Session :=
  { canId := canId, hostId := hostId, mcuUid := none, status := .reset, lastRequest := none
    actuatorRanges := ranges, transportRanges := transportRangeSet }

/-- `buildRequest` (R133): pure. Without a UID a ReadAllParams request cannot be built; the driver reports it
(`MissingIdentity`). -/
def buildRequest (p : Params) (s : Session) : RequestParams → Except HostError Request
  | .obtainId => .ok (.obtainId { canId := s.canId })
  | .control cmd =>
    match scaleCommand p s.canId cmd s.actuatorRanges with
    | .error e => .error (.outcome e)
    | .ok m => .ok (.control m)
  | .motorEnable => .ok (.motorEnable { canId := s.canId })
  | .feedback => .ok (.feedback { canId := s.canId })
  | .readAllParams =>
    match s.mcuUid with
    | none => .error .missingIdentity
    | some uid => .ok (.readAllParams { canId := s.canId, mcuUid := uid })
  | .zeroPosition => .ok (.zeroPosition { canId := s.canId })
  | .paramRead index => .ok (.paramRead { canId := s.canId, index := index })
  | .paramWrite index data => .ok (.paramWrite { canId := s.canId, index := index, data := data })
  | .dataSave => .ok (.dataSave { canId := s.canId })

/-- The frame of a request: the result of the matching `ENC_*` operation (R134). -/
def requestFrame (p : Params) : Request → Frame
  | .obtainId m => storeObtainIdReq p m
  | .control m => storeControlReq m
  | .motorEnable m => storeMotorEnableReq p m
  | .feedback m => storeFeedbackReq p m
  | .readAllParams m => storeReadAllParamsReq p m
  | .zeroPosition m => storeZeroPositionReq p m
  | .paramRead m => storeParamReadReq p m
  | .paramWrite m => storeParamWriteReq p m
  | .dataSave m => storeDataSaveReq p m

/-- A session whose request has been staged (R132, R134). -/
def Session.staged (s : Session) (r : Request) : Session := { s with status := .awaitingResponse, lastRequest := some r }

/-- A session that has applied its actuator's ObtainId response (R136). -/
def Session.identified (s : Session) (uid : BitVec 64) : Session := { s with mcuUid := some uid, status := .ready }

/-- `stageRequest` (R134): the session that awaits a response, and the frame for the caller to transmit. Where the request
cannot be built nothing is staged (log 14). -/
def stageRequest (p : Params) (s : Session) (params : RequestParams) : Except HostError (Session × Frame) :=
  match buildRequest p s params with
  | .error e => .error e
  | .ok r => .ok (s.staged r, requestFrame p r)

/-- What `handleResponse` leaves: the session, and `none`, an update or an error. -/
structure Handled where
  session : Session
  answer : Except HostError (Option FeedbackUpdate)
deriving DecidableEq, Repr

/-- `handleResponse` on a decoded response: R136, R137, R138. For a ParamRead result the source gives no effect (R141), so there
is none here (log 16). -/
def applyResponse (p : Params) (s : Session) : Response → Option Handled
  | .obtainId m =>
    if m.canId = s.canId then some ⟨s.identified m.mcuUid, .ok none⟩
    else some ⟨s, .error (.protocol .canIdMismatch)⟩
  | .feedback m =>
    if m.canId = s.canId then some ⟨{ s with status := .ready }, .ok (some (scaleFeedback p.numerics m s.actuatorRanges))⟩
    else some ⟨s, .error (.protocol .canIdMismatch)⟩
  | .readAllParams _ => some ⟨{ s with status := .ready }, .ok none⟩
  | .paramRead _ => none

/-- `handleResponse` (R135): a decode failure leaves every field of the session as it was (R139). -/
def handleResponse (p : Params) (s : Session) (f : Frame) : Option Handled :=
  match decodeFrame p f with
  | .error (.unknownMux m) => some ⟨s, .error (.protocol (.unknownMux m))⟩
  | .error e => some ⟨s, .error (.outcome e)⟩
  | .ok r => applyResponse p s r

/-- The explicit reset of R140. Whether it clears the UID is not stated (R132), so the caller says (log 15). -/
def resetSession (clearsUid : Bool) (s : Session) : Session :=
  { s with status := .reset, lastRequest := none, mcuUid := if clearsUid then none else s.mcuUid }

end Sys2Proof.Machine
end

