-- ==== Sys2Proof/WellFormed.lean ====
section
/-! DEFINITION. The conditions the spec puts on operands and parameters: `min <= max` of every range (10_state.md R24), the legal
values of `HOST_DATA16` (00_scope.md R9) and of `MUX_MOTOR_ENABLE` (30_encoding.md R47), and the constraints on `ActuatorRanges` (R24). Every other operand is typed to its field's width
(41_encode.md R98) and has no condition. The machine does not test these: an operation whose range is out of order is
evaluated by the same formula (log 13). -/

namespace Sys2Proof

/-- The invariant of R24. -/
def PhysicalRange.wf (r : PhysicalRange) : Bool := r.min.le r.max

def RangeSet.wf (r : RangeSet) : Bool :=
  r.angle.wf && r.velocity.wf && r.torque.wf && r.kp.wf && r.kd.wf

/-- An operation is well-formed if every range among its operands is. -/
def Instr.wf : Instr → Bool
  | .scale _ source target => source.wf && target.wf
  | .quant16 _ => true
  | .scaleToWire _ eng => eng.wf
  | .scaleFromWire _ eng => eng.wf
  | .encObtainId _ => true
  | .encControl _ => true
  | .encMotorEnable _ => true
  | .encFeedback _ => true
  | .encReadAllParams _ => true
  | .encZeroPosition _ => true
  | .encParamRead _ => true
  | .encParamWrite _ => true
  | .encDataSave _ => true
  | .controlFromEng _ _ ranges => ranges.wf
  | .packObtainIdResp _ => true
  | .packFeedbackResp _ => true
  | .packReadAllParamsResp _ => true
  | .packParamReadResp _ => true
  | .mux => true
  | .dec => true
  | .unpackObtainIdResp => true
  | .unpackFeedbackResp => true
  | .unpackReadAllParamsResp => true
  | .unpackParamReadResp => true
  | .unpackObtainIdReq => true
  | .unpackControlReq => true
  | .unpackMotorEnableReq => true
  | .unpackFeedbackReq => true
  | .unpackReadAllParamsReq => true
  | .unpackZeroPositionReq => true
  | .unpackParamReadReq => true
  | .unpackParamWriteReq => true
  | .unpackDataSaveReq => true
  | .feedbackToEng ranges => ranges.wf

/-! ### Parameters (00_scope.md R9) -/

/-- One of the two forms of the host identifier that R9 fixes: `0xFD00`, or the single byte in the field's low byte (41_encode.md
R101). -/
def hostForm (v : BitVec 16) : Bool := v == hostId || v == hostIdByteForm

def HostData16.wf (h : HostData16) : Bool :=
  hostForm h.obtainId && hostForm h.motorEnable && hostForm h.feedback && hostForm h.readAllParams &&
  hostForm h.zeroPosition && hostForm h.paramRead && hostForm h.paramWrite && hostForm h.dataSave

/-- The request muxes other than MotorEnable's: those R46 fixes, and Feedback's parameter. That the rule's "every other request
mux" takes in an overridden `MUX_FEEDBACK_REQ` is the model's choice: R46 and R47 name its default `0x02` only, and R9 says that the rules
are written against the parameter (DESIGN CHOICE, log 8). -/
def otherRequestMuxes (p : Params) : List (BitVec 5) :=
  [muxObtainId, muxControl, p.muxFeedbackReq, muxZeroPosition, muxParamRead, muxParamWrite, muxReadAllParams, muxDataSave]

/-- "If it is not `0x02` it must differ from every other request mux of rule R46" (R47). -/
def muxMotorEnableWf (p : Params) : Bool :=
  p.muxMotorEnable == 0x02 || !(otherRequestMuxes p).contains p.muxMotorEnable

/-- The parameters are legal: R9 for the host identifier, R47 for `MUX_MOTOR_ENABLE`. Every other parameter is typed to what it may
be. -/
def Params.wf (p : Params) : Bool := p.hostData16.wf && muxMotorEnableWf p

/-! ### `ActuatorRanges` (R24) -/

/-- `min = -max`. -/
def PhysicalRange.symmetric (r : PhysicalRange) : Bool := r.min.eq r.max.neg

/-- `min < max`: what the scaler needs of a range (40_scaler.md R83). -/
def PhysicalRange.proper (r : PhysicalRange) : Bool := r.wf && !r.min.eq r.max

def RangeSet.proper (r : RangeSet) : Bool :=
  r.angle.proper && r.velocity.proper && r.torque.proper && r.kp.proper && r.kd.proper

/-- What R24 says of a table: (a) `min <= max`, and `min < max` "to use the scaler at all", for every range; (b) for `Robstride01`
angle, velocity and torque are symmetric about zero; (c) for `Robstride01` kp and kd begin at 0. -/
def RangeTable.legal (table : RangeTable) : Bool :=
  table.robstride00.proper && table.robstride01.proper && table.robstride02.proper && table.robstride03.proper &&
  table.robstride04.proper &&
  table.robstride01.angle.symmetric && table.robstride01.velocity.symmetric && table.robstride01.torque.symmetric &&
  table.robstride01.kp.min.isZero && table.robstride01.kd.min.isZero

/-- The parameter `ActuatorRanges`: "a model takes `ActuatorRanges` as an argument constrained by (a) to (c) and, to use the scaler
at all, by `min < max` for every range" (R24). Its values are in no source and it has no default (R9; log 12). -/
abbrev ActuatorRanges := { table : RangeTable // table.legal = true }

end Sys2Proof
end

