-- ==== Sys2Proof/Machine/Driver.lean ====
section
/-! DEFINITION. The driver (50_host_context.md section 4), the host's software: the transport at its boundary, the session
registry, and the commands. Discovery is in Discovery.lean and the collection of parameter fragments in Collect.lean. It is not
part of the block (00_scope.md R6): `step` never calls it. -/

namespace Sys2Proof.Machine

/-! ### Tables by number: kept in rising order of the number, so that equal tables are equal lists -/

/-- What stands under a number. -/
def tableFind {w : Nat} {α : Type} (t : List (BitVec w × α)) (k : BitVec w) : Option α :=
  (t.find? fun entry => entry.1 == k).map (·.2)

/-- The table without a number. -/
def tableErase {w : Nat} {α : Type} (t : List (BitVec w × α)) (k : BitVec w) : List (BitVec w × α) :=
  t.filter fun entry => entry.1 != k

/-- An entry put in its place among entries of other numbers. -/
def tableInsert {w : Nat} {α : Type} (k : BitVec w) (a : α) : List (BitVec w × α) → List (BitVec w × α)
  | [] => [(k, a)]
  | entry :: rest => if k < entry.1 then (k, a) :: entry :: rest else entry :: tableInsert k a rest

/-- The table with what stands under a number set or replaced. -/
def tablePut {w : Nat} {α : Type} (t : List (BitVec w × α)) (k : BitVec w) (a : α) : List (BitVec w × α) :=
  tableInsert k a (tableErase t k)

/-! ### The transport (R154, R155) -/

/-- What `sendFrame` answers: `Ok(())`, or an I/O failure. -/
inductive SendOutcome where
  | accepted | failed
deriving DecidableEq, Repr

/-- What one receive attempt yields before its deadline: a frame, nothing, or an I/O failure (R155, R156). -/
inductive Reception where
  | frame (f : Frame)
  | silent
  | broken
deriving DecidableEq, Repr

/-- The transport handle: "a duplex channel ... bound to one named network interface" (R155). What lies behind it is out of scope
(00_scope.md R7), so the handle carries what its coming calls will answer, one entry for each call (log 25). -/
structure Transport where
  interface : String
  /-- the frames it has accepted, oldest first -/
  sent : List Frame
  /-- what the coming sends answer; beyond the list they are accepted -/
  sendOutcomes : List SendOutcome
  /-- what the coming receive attempts yield; beyond the list they are silent -/
  receptions : List Reception
deriving DecidableEq, Repr

/-- `sendFrame` (R155). -/
def Transport.send (t : Transport) (f : Frame) : Transport × SendOutcome :=
  match t.sendOutcomes with
  | .failed :: rest => ({ t with sendOutcomes := rest }, .failed)
  | .accepted :: rest => ({ t with sent := t.sent ++ [f], sendOutcomes := rest }, .accepted)
  | [] => ({ t with sent := t.sent ++ [f] }, .accepted)

/-- `recvFrame` under a deadline (R155, R156). -/
def Transport.receive (t : Transport) : Transport × Reception :=
  match t.receptions with
  | [] => (t, .silent)
  | r :: rest => ({ t with receptions := rest }, r)

/-! ### The driver and its registry (R131, R148) -/

/-- "A single owning struct holding the transport handle and the session map" (R148). -/
structure Driver where
  transport : Transport
  sessions : List (Byte × Session)
deriving DecidableEq, Repr

/-- A new driver: its registry is empty (10_state.md R26). -/
def Driver.create (transport : Transport) : Driver := { transport := transport, sessions := [] }

def Driver.find (d : Driver) (id : Byte) : Option Session := tableFind d.sessions id

/-- Registers or overwrites the session of an identifier: there is one session for each (R131). -/
def Driver.put (d : Driver) (id : Byte) (s : Session) : Driver := { d with sessions := tablePut d.sessions id s }

/-- A session is "created when an actuator is registered" (R131), with the ranges of the type it is registered as. An identifier that
already has a session gets the new one in its place, the old one's UID, state, last request and ranges lost, and no error: the source says
"registers/overwrites" of `pingOne` only (R149), and there is one session for each identifier (DESIGN CHOICE, log 28). -/
def Driver.register (d : Driver) (table : ActuatorRanges) (id : Byte) (t : ActuatorType) : Driver :=
  d.put id (newSession id (table.val.of t))

/-- A session is "destroyed/dropped when the driver removes the actuator" (R131). The source describes no operation that removes one
and no error of it: where no session is registered the driver stays as it is, and no `ActuatorNotFound` is answered (DESIGN CHOICE,
log 28). -/
def Driver.remove (d : Driver) (id : Byte) : Driver := { d with sessions := tableErase d.sessions id }

def Driver.send (d : Driver) (f : Frame) : Driver × SendOutcome :=
  ({ d with transport := (d.transport.send f).1 }, (d.transport.send f).2)

def Driver.receive (d : Driver) : Driver × Reception :=
  ({ d with transport := d.transport.receive.1 }, d.transport.receive.2)

/-! ### Commands (R151) -/

/-- What a driver operation ends with: a driver and an answer or an error; or nothing said, where the source gives no effect (R141,
R152; log 16, log 18). -/
inductive DriverResult (α : Type) where
  | ended (d : Driver) (answer : Except HostError α)
  | unstated
deriving DecidableEq, Repr

/-- An error is "returned to the immediate caller" (R157); an answer goes on. -/
def DriverResult.andThen {α β : Type} (r : DriverResult α) (next : Driver → α → DriverResult β) : DriverResult β :=
  match r with
  | .unstated => .unstated
  | .ended d (.error e) => .ended d (.error e)
  | .ended d (.ok a) => next d a

/-- Looks the session up, `ActuatorNotFound` before any I/O (60_exceptions.md R175), and stages a request: the frame to transmit. -/
def Driver.stage (p : Params) (d : Driver) (id : Byte) (params : RequestParams) : DriverResult Frame :=
  match d.find id with
  | none => .ended d (.error .actuatorNotFound)
  | some s =>
    match stageRequest p s params with
    | .error e => .ended d (.error e)
    | .ok (s', f) => .ended (d.put id s') (.ok f)

/-- Sends a frame; a failed send is surfaced as `TransportError` (R175). The session stays staged (log 25). -/
def Driver.transmit (d : Driver) (f : Frame) : DriverResult Unit :=
  match d.send f with
  | (d', .accepted) => .ended d' (.ok ())
  | (d', .failed) => .ended d' (.error .transport)

/-- Feeds a received frame to the session's `handleResponse`. -/
def Driver.handle (p : Params) (d : Driver) (id : Byte) (f : Frame) : DriverResult (Option FeedbackUpdate) :=
  match d.find id with
  | none => .ended d (.error .actuatorNotFound)
  | some s =>
    match handleResponse p s f with
    | none => .unstated
    | some h => .ended (d.put id h.session) h.answer

/-- Awaits one reply: `Timeout` and `TransportError` are distinct (R175). -/
def Driver.await (d : Driver) : DriverResult Frame :=
  match d.receive with
  | (d', .silent) => .ended d' (.error .timeout)
  | (d', .broken) => .ended d' (.error .transport)
  | (d', .frame f) => .ended d' (.ok f)

/-- Looks up, stages and sends. -/
def Driver.request (p : Params) (d : Driver) (id : Byte) (params : RequestParams) : DriverResult Unit :=
  (d.stage p id params).andThen fun d f => d.transmit f

/-- A request whose reply is awaited and fed to `handleResponse` (R151): the reply. Any frame that `handleResponse` accepts ends it with
success, a frame that is no mux `0x02` response too: whether the reply answers the request is not looked at (DESIGN CHOICE, log 27). -/
def Driver.roundTrip (p : Params) (d : Driver) (id : Byte) (params : RequestParams) : DriverResult Frame :=
  (d.request p id params).andThen fun d _ =>
    d.await.andThen fun d f =>
      (d.handle p id f).andThen fun d _ => .ended d (.ok f)

/-- `enable(id)`: success on any reply that `handleResponse` accepts (log 27). -/
def Driver.enable (p : Params) (d : Driver) (id : Byte) : DriverResult Unit :=
  (d.roundTrip p id .motorEnable).andThen fun d _ => .ended d (.ok ())

/-- `requestFeedback(id) -> ActuatorState`: what the state holds is not stated, so it is a free value (R158, 91 N16; log 24),
whichever shape the accepted reply has (log 27). -/
def Driver.requestFeedback (p : Params) (d : Driver) (id : Byte) : DriverResult ActuatorState :=
  (d.roundTrip p id .feedback).andThen fun d reply =>
    match d.find id with
    | none => .ended d (.error .actuatorNotFound)
    | some s => .ended d (.ok (Config.actuatorState s.canId s.mcuUid s.actuatorRanges (frameToBytes reply)))

/-- `move(id, command)`: "fire-and-forget (no awaited reply)". -/
def Driver.move (p : Params) (d : Driver) (id : Byte) (cmd : ActuatorCommand) : DriverResult Unit :=
  d.request p id (.control cmd)

end Sys2Proof.Machine
end

