-- ==== Sys2Proof/Machine/ParamValue.lean ====
section
/-! DEFINITION. The host's parameter registry and value decoder (50_host_context.md section 3). They are not part of the block
(00_scope.md R6): `step` never calls them. -/

namespace Sys2Proof

/-- The bytes a value of the type needs (R145). -/
def ParamType.requiredBytes : ParamType → Nat
  | .string => 0
  | .uint8 => 1
  | .uint16 => 2
  | .int16 => 2
  | .uint32 => 4
  | .int32 => 4
  | .float32 => 4

namespace Machine

/-! ### The parameter table (R142, R143) -/

/-- The one entry the source reveals: code, name and type. Its access and description are free (log 23). -/
def limitTorque : ParameterInfo :=
  { code := 0x2007, name := "limit_torque", type := .float32, access := Config.limitTorqueAccess
    description := Config.limitTorqueDescription }

/-- The fixed table: that entry, and free ones of other codes (log 23). -/
def parameterTable : List ParameterInfo :=
  limitTorque :: Config.otherParameters.filter fun info => info.code != limitTorque.code

/-- `lookup(code)` (R143). -/
def lookupParameter (code : BitVec 16) : Option ParameterInfo :=
  parameterTable.find? fun info => info.code == code

/-! ### The value decoder (R144 to R147) -/

/-- R144. A string is held as its code points, a `f32` as its bit pattern. -/
inductive ParamValue where
  | string (codePoints : List Nat)
  | uint8 (v : Byte)
  | uint16 (v : BitVec 16)
  | uint32 (v : BitVec 32)
  | int16 (v : Int)
  | int32 (v : Int)
  | float32 (pattern : BitVec 32)
deriving DecidableEq, Repr

/-- A byte of the form `10xxxxxx`. -/
def utf8Continues (b : Byte) : Bool := b &&& 0xC0 == 0x80

/-- UTF-8, without failing: a byte that begins no valid sequence is replaced by a free list of code points (R147, log 17).
`pending` is how many bytes of the sequence last decoded are still to be passed over. -/
def utf8Lossy : Nat → List Byte → List Nat
  | _, [] => []
  | n + 1, _ :: rest => utf8Lossy n rest
  | 0, b :: rest =>
    let replaced := Config.utf8Replacement b ++ utf8Lossy 0 rest
    if b < 0x80 then b.toNat :: utf8Lossy 0 rest
    else if 0xC2 ≤ b && b < 0xE0 then
      match rest with
      | b1 :: _ =>
        if utf8Continues b1 then ((b.toNat - 0xC0) * 2 ^ 6 + (b1.toNat - 0x80)) :: utf8Lossy 1 rest else replaced
      | [] => replaced
    else if 0xE0 ≤ b && b < 0xF0 then
      match rest with
      | b1 :: b2 :: _ =>
        let v := (b.toNat - 0xE0) * 2 ^ 12 + (b1.toNat - 0x80) * 2 ^ 6 + (b2.toNat - 0x80)
        if utf8Continues b1 && utf8Continues b2 && decide (0x800 ≤ v) && !(decide (0xD800 ≤ v) && decide (v < 0xE000)) then
          v :: utf8Lossy 2 rest
        else replaced
      | _ => replaced
    else if 0xF0 ≤ b && b < 0xF5 then
      match rest with
      | b1 :: b2 :: b3 :: _ =>
        let v := (b.toNat - 0xF0) * 2 ^ 18 + (b1.toNat - 0x80) * 2 ^ 12 + (b2.toNat - 0x80) * 2 ^ 6 + (b3.toNat - 0x80)
        if utf8Continues b1 && utf8Continues b2 && utf8Continues b3 && decide (0x10000 ≤ v) && decide (v < 0x110000) then
          v :: utf8Lossy 3 rest
        else replaced
      | _ => replaced
    else replaced

/-- The reading of `bytes` long enough for the type (R146, R147); a shorter span reads as if zeros followed. -/
def readParamValue (bytes : List Byte) : ParamType → ParamValue
  | .string => .string (utf8Lossy 0 (bytes.takeWhile (· != 0)))
  | .uint8 => .uint8 (bytes.getD 0 0)
  | .uint16 => .uint16 (le16 (bytes.getD 0 0) (bytes.getD 1 0))
  | .int16 => .int16 (le16 (bytes.getD 0 0) (bytes.getD 1 0)).toInt
  | .uint32 => .uint32 (le32 (bytes.getD 0 0) (bytes.getD 1 0) (bytes.getD 2 0) (bytes.getD 3 0))
  | .int32 => .int32 (le32 (bytes.getD 0 0) (bytes.getD 1 0) (bytes.getD 2 0) (bytes.getD 3 0)).toInt
  | .float32 => .float32 (le32 (bytes.getD 0 0) (bytes.getD 1 0) (bytes.getD 2 0) (bytes.getD 3 0))

/-- `decode(bytes, type)` (R144): none if the span is shorter than the type's width; bytes beyond it are ignored. -/
def decodeParamValue (bytes : List Byte) (type : ParamType) : Option ParamValue :=
  if bytes.length < type.requiredBytes then none else some (readParamValue bytes type)

end Machine

end Sys2Proof
end

