-- ==== Sys2Proof/Safety.lean ====
section
/-! DEFINITION. The words claims are made in: the number an `f64` stands for and what it is to be correctly rounded, what it is
for a code to be the rounding of a number, which operations build a frame, the invariant of the state, and what a safe state is.
The machine uses none of these. -/

namespace Sys2Proof

/-! ### Numbers (40_scaler.md R82, R85) -/

/-- The number a finite value stands for. -/
def F64.value (x : F64) : ℚ := (x.signedUnits : ℚ) / (F64.unitsOfOne : ℚ)

/-- The least magnitude that rounds to an infinity: half a step beyond the largest finite value. -/
def overflowBound : ℚ := 2 ^ 1024 - 2 ^ 970

/-- `r` is `exact`, correctly rounded to nearest with ties to even (R82): no finite value is nearer, one as near and different
leaves `r` even, and an infinity stands for what is too large. -/
def CorrectlyRounded (exact : ℚ) (r : F64) : Prop :=
  r.isNaN = false ∧
  (r.isInf = true → overflowBound ≤ |exact| ∧ (r.sign = true ↔ exact < 0)) ∧
  (r.isFinite = true → |exact| < overflowBound ∧
    ∀ z : F64, z.isFinite = true →
      |exact - r.value| < |exact - z.value| ∨
      (|exact - r.value| = |exact - z.value| ∧ (z.value = r.value ∨ r.mag % 2 = 0)))

/-- `n` is the integer nearest to `v`, a tie being broken as `QUANT_ROUND` says (R85). -/
def IsQuantised (mode : QuantRound) (v : ℚ) (n : BitVec 16) : Prop :=
  |(n.toNat : ℚ) - v| ≤ 1 / 2 ∧
  (|(n.toNat : ℚ) - v| = 1 / 2 →
    match mode with
    | .tiesAway => |v| < (n.toNat : ℚ)
    | .tiesEven => n.toNat % 2 = 0
    | .halfUp => v < (n.toNat : ℚ))

/-- A scaled value that rounds to a code: a finite one below `65535.5` and above `-1/2`, or at `-1/2` where the rounding sends that
tie to zero (R85). -/
def F64.hasCode (mode : QuantRound) (r : F64) : Prop :=
  r.isFinite = true ∧ (-1 / 2 < r.value ∨ (r.value = -1 / 2 ∧ mode ≠ .tiesAway)) ∧ r.value < 65535 + 1 / 2

/-- An engineering value that `SCALE_TO_WIRE` turns into a code: the range has two different ends, and the scaled value has a code or
the policy saturates (R86). -/
def PhysicalRange.admits (p : Params) (eng : PhysicalRange) (value : F64) : Prop :=
  eng.max.eq eng.min = false ∧
  (p.quantPolicy = .saturate ∨ F64.hasCode p.quantRound (Machine.scaleFormula p.numerics value eng transportRange))

/-- Both ends are finite. -/
def PhysicalRange.finite (r : PhysicalRange) : Bool := r.min.isFinite && r.max.isFinite

/-! ### Operations -/

/-- The operations that produce a frame (10_state.md R20): every `ENC_*` and `PACK_*`, and `CONTROL_FROM_ENG`. -/
def Operation.buildsFrame : Operation → Bool
  | .scale => false | .quant16 => false | .scaleToWire => false
  | .scaleFromWire => false | .encObtainId => true | .encControl => true
  | .encMotorEnable => true | .encFeedback => true | .encReadAllParams => true
  | .encZeroPosition => true | .encParamRead => true | .encParamWrite => true
  | .encDataSave => true | .controlFromEng => true | .packObtainIdResp => true
  | .packFeedbackResp => true | .packReadAllParamsResp => true | .packParamReadResp => true
  | .mux => false | .dec => false | .unpackObtainIdResp => false
  | .unpackFeedbackResp => false | .unpackReadAllParamsResp => false | .unpackParamReadResp => false
  | .unpackObtainIdReq => false | .unpackControlReq => false | .unpackMotorEnableReq => false
  | .unpackFeedbackReq => false | .unpackReadAllParamsReq => false | .unpackZeroPositionReq => false
  | .unpackParamReadReq => false | .unpackParamWriteReq => false | .unpackDataSaveReq => false
  | .feedbackToEng => false

namespace Machine

/-! ### Outcomes -/

/-- The state after an operation that answered a value and no frame. -/
def State.answered (s : State) (v : Value) : State := { s with frameOut := none, result := some (.ok v) }

/-- The state after an operation that built a frame. -/
def State.built (s : State) (f : Frame) : State := { s with frameOut := some f, result := some (.ok (.frame f)) }

/-- The state after an operation that ended with an error (60_exceptions.md R165). -/
def State.failed (s : State) (e : OpError) : State := { s with frameOut := none, result := some (.err e) }

/-- Encoding a message and decoding the frame, its flag cleared, gives the message back (42_decode.md R127). -/
def RoundTrips (s : State) (encoder decoder : Instr) (v : Value) : Prop :=
  ∃ f, exec encoder s = .next (s.built f) ∧
    exec decoder { s.built f with frameIn := clearEff f } =
      .next (State.answered { s.built f with frameIn := clearEff f } v)

/-! ### The session (50_host_context.md R134) -/

/-- The operation that encodes a request. -/
def Request.encoder : Request → Instr
  | .obtainId m => .encObtainId m
  | .control m => .encControl m
  | .motorEnable m => .encMotorEnable m
  | .feedback m => .encFeedback m
  | .readAllParams m => .encReadAllParams m
  | .zeroPosition m => .encZeroPosition m
  | .paramRead m => .encParamRead m
  | .paramWrite m => .encParamWrite m
  | .dataSave m => .encDataSave m

/-! ### The invariant -/

/-- A frame the block puts out: canonical, its identifier word with bit 31 set (41_encode.md R97). -/
def FrameOutWf (f : Frame) : Prop := Memory.wf f = true ∧ 0x80000000 ≤ (frameIdentifier f).toNat

/-- What every step keeps: the frame that was put in is canonical, the parameters are legal, and a frame stands on `frame_out`
exactly when the outcome is that frame; an error outcome or a value leaves none there. -/
def State.Inv (s : State) : Prop :=
  Memory.wf s.frameIn = true ∧ s.params.wf = true ∧
  (∀ f, s.frameOut = some f ↔ s.result = some (.ok (.frame f))) ∧
  (∀ f, s.frameOut = some f → FrameOutWf f)

/-! ### Safety -/

/-- A state whose next step answers a next state: nothing is issued, or an operation's record is. -/
def State.Safe (s : State) : Prop := s.op = [] ∨ ∃ i rest, decode s.op = .ok (i, rest)

end Machine

end Sys2Proof
end

