-- ==== Sys2Proof/Certificates/Slice0/Obligations.lean ====
section
/-! DEFINITION. The statements for the provers. A statement cites a numbered rule of spec/ only where the rule carries no decision
or derivation mark of the spec's own; the others name the section and the decision, and the log entry where the model chose. -/

open Sys2Proof Sys2Proof.Machine

/-! ### The machine -/

/-- A step runs the operation on the op channel, and does nothing when there is none. That the block "performs one
operation when its host issues one, and nothing between operations" is 10_state.md section 1 (D1); the record on the
op channel and its being taken off are the model's choices (log 1, log 4). -/
def Obligations.StepRunsIssuedOperation : Prop :=
  (∀ (s : State) (i : Instr) (rest : List Byte), decode s.op = .ok (i, rest) → step s = exec i { s with op := [] }) ∧
  (∀ s : State, s.op = [] → step s = .next s)

/-- A step never faults, and refuses exactly the records that are no operation. An error of an operation ends that
operation and not the block (60_exceptions.md section 2, D25), so no operation stops the machine. That other bytes are
refused is the model's choice (log 1). -/
def Obligations.StepStopsOnlyOnUndecodableRecords : Prop :=
  ∀ s : State,
    (∀ f, step s ≠ .fault f) ∧
    ((∃ r, step s = .refused r) ↔ s.op ≠ [] ∧ ∃ e, decode s.op = .error e) ∧
    ((∃ t, step s = .next t) ↔ s.Safe)

/-- Decoding the record of an operation gives the operation back, whatever bytes follow. The record is the model's own
encoding of "the operation's mnemonic and its operand record" (log 1), laid out as the rows of spec/opcode_table.json.
-/
def Obligations.DecodeEncodeRoundTrip : Prop :=
  ∀ (i : Instr) (rest : List Byte), decode (encode i ++ rest) = .ok (i, rest)

/-- Words written from the table decode to the operations they stand for. The words are written from the rows of
spec/opcode_table.json; that a word alone selects the first row it fits is the model's choice (log 2). The last word
is the frame 01 CD AB 81 08 00 00 00 12 34 56 78 9A BC DE F0. -/
def Obligations.TableWordsDecode : Prop :=
  decodeTableWord 32 0x80000015 = some (.encObtainId { canId := 0x15 }) ∧
  decodeTableWord 32 0x86000015 = some (.encZeroPosition { canId := 0x15 }) ∧
  decodeTableWord 32 0x96000015 = some (.encDataSave { canId := 0x15 }) ∧
  decodeTableWord 32 0x02000000 = some .unpackFeedbackResp ∧
  decodeTableWord 128 0xF0DEBC9A785634120000000881ABCD01 =
    some (.encControl { canId := 1, angle := 0x1234, velocity := 0x5678, torque := 0xABCD, kp := 0x9ABC, kd := 0xDEF0 })

/-- The four response rows of the table are disjoint and select what DEC answers. The table's convention
(30_encoding.md section 8, D26): "A decoder is written from the four rows with dir = rx and role = decode alone". -/
def Obligations.ResponseRowsSelectTheShape : Prop :=
  ∀ s : State, s.params = Params.default →
    ((∃ m, exec .dec s = .next (s.answered (.response (.obtainId m)))) ↔
      Operation.fits .unpackObtainIdResp (frameIdentifier s.frameIn) = true) ∧
    ((∃ m, exec .dec s = .next (s.answered (.response (.feedback m)))) ↔
      Operation.fits .unpackFeedbackResp (frameIdentifier s.frameIn) = true) ∧
    ((∃ m, exec .dec s = .next (s.answered (.response (.paramRead m)))) ↔
      Operation.fits .unpackParamReadResp (frameIdentifier s.frameIn) = true) ∧
    ((∃ m, exec .dec s = .next (s.answered (.response (.readAllParams m)))) ↔
      Operation.fits .unpackReadAllParamsResp (frameIdentifier s.frameIn) = true) ∧
    ((∃ m, exec .dec s = .next (s.failed (.unknownMux m))) ↔
      (Operation.fits .unpackObtainIdResp (frameIdentifier s.frameIn) = false ∧
       Operation.fits .unpackFeedbackResp (frameIdentifier s.frameIn) = false ∧
       Operation.fits .unpackParamReadResp (frameIdentifier s.frameIn) = false ∧
       Operation.fits .unpackReadAllParamsResp (frameIdentifier s.frameIn) = false))

/-- Every step keeps the invariant of the channels. The frames an operation puts out are whole, canonical and flagged;
an error outcome leaves none. That frame_out and result agree is the model's reading of the two channels (log 7). -/
def Obligations.StepKeepsInvariant : Prop :=
  ∀ s t : State, s.Inv → step s = .next t → t.Inv

/-- The state before the first operation meets the invariant. The block has nothing a reset could change
(70_reset_and_hazards.md section 1, D31); what its channels hold before the first operation is the model's choice (log
3, log 5, log 6) and the parameters are the spec's defaults (log 8). -/
def Obligations.ResetMeetsInvariant : Prop :=
  State.reset.Inv ∧ State.reset.params = Params.default ∧ State.reset.op = [] ∧ State.reset.frameOut = none ∧
    State.reset.result = none

/-- Every operation ends with its own outcome, which no later operation reads. The block has no flag: the outcome on
result is all the status there is, and no operation reads an earlier one (10_state.md section 1, R17). That an error
leaves no frame on frame_out is the model's reading (log 7). That it leaves the frame on frame_in, so that a reader
issued after a failed reader reads the same frame again, is the model's choice (log 22). -/
def Obligations.OutcomesDoNotPersist : Prop :=
  (∀ (i : Instr) (s : State), ∃ t o, exec i s = .next t ∧ t.result = some o) ∧
  (∀ (i : Instr) (s : State) (f : Option Frame) (r : Option OpResult),
    exec i { s with frameOut := f, result := r } = exec i s) ∧
  (∀ (i : Instr) (s t : State) (e : OpError), exec i s = .next t → t.result = some (.err e) → t = s.failed e) ∧
  (∀ (i j : Instr) (s t : State) (e : OpError), exec i s = .next t → t.result = some (.err e) → exec j t = exec j s)

/-- No operation writes the parameters, the op channel or any byte of the frame given; a step empties the op channel.
The parameters are never written (70_reset_and_hazards.md section 1); reading a byte has no side effect (20_memory.md
section 4); the output channels are all an operation writes. That a step takes the record off op is the model's choice
(log 4), and so is that the frame a reader consumes stays on frame_in (log 22). -/
def Obligations.OperationsKeepTheirInputs : Prop :=
  (∀ (i : Instr) (s t : State), exec i s = .next t → t.params = s.params ∧ t.op = s.op ∧ t.frameIn = s.frameIn ∧
    ∀ a, Memory.read t.frameIn a = Memory.read s.frameIn a) ∧
  (∀ s t : State, step s = .next t → t.params = s.params ∧ t.frameIn = s.frameIn ∧ t.op = [])

/-- A frame is put out by exactly the encoders, the packers and CONTROL_FROM_ENG, and only on success. "frame_out ...
produced by every ENC_*, PACK_* and CONTROL_FROM_ENG operation" (10_state.md section 2, D1); that the other operations
leave no frame there is the model's choice (log 7). -/
def Obligations.OnlyBuildersPutAFrameOut : Prop :=
  ∀ (i : Instr) (s t : State), exec i s = .next t →
    (t.frameOut.isSome = true ↔ i.operation.buildsFrame = true ∧ ∃ v, t.result = some (.ok v)) ∧
    (∀ f, t.frameOut = some f → t.result = some (.ok (.frame f)))

/-! ### Bytes and frames -/

/-- The byte-order primitives compute the sums the spec gives them. R11. -/
def Obligations.ByteOrderPrimitives : Prop :=
  (∀ b0 b1 : Byte, (le16 b0 b1).toNat = b0.toNat + 256 * b1.toNat) ∧
  (∀ b0 b1 : Byte, (be16 b0 b1).toNat = 256 * b0.toNat + b1.toNat) ∧
  (∀ b0 b1 b2 b3 : Byte,
    (le32 b0 b1 b2 b3).toNat = b0.toNat + 2 ^ 8 * b1.toNat + 2 ^ 16 * b2.toNat + 2 ^ 24 * b3.toNat) ∧
  (∀ b : Bytes8, (le64 b).toNat = b.b0.toNat + 2 ^ 8 * b.b1.toNat + 2 ^ 16 * b.b2.toNat + 2 ^ 24 * b.b3.toNat +
    2 ^ 32 * b.b4.toNat + 2 ^ 40 * b.b5.toNat + 2 ^ 48 * b.b6.toNat + 2 ^ 56 * b.b7.toNat) ∧
  (∀ (w : Nat) (v : BitVec w) (n : Nat), (bytesLe v n).length = n ∧
    ∀ k, k < n → ((bytesLe v n).getD k 0).toNat = v.toNat / 2 ^ (8 * k) % 256) ∧
  (∀ (w : Nat) (v : BitVec w) (n : Nat), bytesBe v n = (bytesLe v n).reverse) ∧
  (∀ v : BitVec 16, bytesLe v 2 = [byteOf v 0, byteOf v 1] ∧ bswap16 v = be16 (byteOf v 0) (byteOf v 1) ∧
    (bswap16 v).toNat = 256 * (v.toNat % 256) + v.toNat / 256)

/-- FrameWrite replaces its run of bytes and nothing else; FrameRead returns it. The two access primitives
(20_memory.md section 4, D26). The canonical list of cells is the model's form of a frame (log 19). -/
def Obligations.FrameWriteReadsBack : Prop :=
  ∀ (f : Frame) (off : Nat) (bytes : List Byte), off + bytes.length ≤ 16 →
    frameRead (frameWrite f off bytes) off bytes.length = bytes ∧
    (∀ a, a < off ∨ off + bytes.length ≤ a → Memory.read (frameWrite f off bytes) a = Memory.read f a) ∧
    (Memory.wf f = true → Memory.wf (frameWrite f off bytes) = true ∧
      (∀ g : Frame, Memory.wf g = true → frameToBytes g = frameToBytes f → g = f) ∧
      ∀ a, 16 ≤ a → Memory.read f a = 0)

/-- The identifier word is the first four bytes, little-endian. R31. -/
def Obligations.IdentifierIsLittleEndian : Prop :=
  ∀ f : Frame,
    (frameIdentifier f).toNat = (Memory.read f 0).toNat + 2 ^ 8 * (Memory.read f 1).toNat +
      2 ^ 16 * (Memory.read f 2).toNat + 2 ^ 24 * (Memory.read f 3).toNat ∧
    (frameIdentifier f).getLsbD 31 = (Memory.read f 3).getLsbD 7 ∧
    (∀ k, k < 5 → (frameIdentifier f).getLsbD (24 + k) = (Memory.read f 3).getLsbD k)

/-- The mux is the low five bits of byte 3, which are identifier bits 28 to 24. R44. -/
def Obligations.MuxIsIdentifierBits : Prop :=
  ∀ f : Frame,
    (muxOf f).toNat = (Memory.read f 3).toNat % 32 ∧
    (muxOf f).toNat = (frameIdentifier f).toNat / 2 ^ 24 % 32 ∧
    (∀ g : Frame, (Memory.read g 3).toNat % 32 = (Memory.read f 3).toNat % 32 → muxOf g = muxOf f) ∧
    muxOf (clearEff f) = muxOf f ∧ muxOf (setEff f) = muxOf f

/-- MUX answers byte 3 modulo 32 on every frame. R117. -/
def Obligations.MuxOperation : Prop :=
  ∀ s : State,
    exec .mux s = .next (s.answered (.u5 (BitVec.ofNat 5 (Memory.read s.frameIn 3).toNat))) ∧
    (∀ b : Byte, (BitVec.ofNat 5 b.toNat).toNat = (b &&& 0x1F).toNat) ∧
    (∀ g : Frame, Memory.read g 3 &&& 0x1F = Memory.read s.frameIn 3 &&& 0x1F →
      exec .mux { s with frameIn := g } = .next (State.answered { s with frameIn := g } (.u5 (muxOf s.frameIn))))

/-- SET_EFF sets bit 31 of the identifier, changes no other bit, and ends every operation that builds a frame. R97. -/
def Obligations.SetEffIsTheLastStep : Prop :=
  (∀ f : Frame, Memory.read (setEff f) 3 = Memory.read f 3 ||| 0x80 ∧
    (∀ a, a ≠ 3 → Memory.read (setEff f) a = Memory.read f a) ∧
    0x80000000 ≤ (frameIdentifier (setEff f)).toNat) ∧
  (∀ (i : Instr) (s t : State) (f : Frame), i.operation.buildsFrame = true → exec i s = .next t → t.frameOut = some f →
    ∃ g, f = setEff g)

/-- An encoded request is zero wherever its layout assigns nothing. R99, with the unused bytes of 30_encoding.md R51
to R59. The other layouts assign every payload byte. -/
def Obligations.UnassignedBytesAreZero : Prop :=
  ∀ (s t : State) (f : Frame),
    (∀ i : Instr, (i.operation.buildsFrame = true ∧ i.operation ≠ .packObtainIdResp ∧ i.operation ≠ .packFeedbackResp ∧
        i.operation ≠ .packReadAllParamsResp ∧ i.operation ≠ .packParamReadResp) →
      exec i s = .next t → t.frameOut = some f →
      (Memory.read f 3).toNat / 32 % 4 = 0 ∧ Memory.read f 5 = 0 ∧ Memory.read f 6 = 0 ∧ Memory.read f 7 = 0) ∧
    (∀ m, exec (.encObtainId m) s = .next t → t.frameOut = some f → ∀ a, 8 ≤ a → Memory.read f a = 0) ∧
    (∀ m, exec (.encMotorEnable m) s = .next t → t.frameOut = some f → ∀ a, 8 ≤ a → Memory.read f a = 0) ∧
    (∀ m, exec (.encFeedback m) s = .next t → t.frameOut = some f → ∀ a, 8 ≤ a → Memory.read f a = 0) ∧
    (∀ m, exec (.encParamRead m) s = .next t → t.frameOut = some f → ∀ a, 10 ≤ a → Memory.read f a = 0) ∧
    (∀ m, exec (.encParamWrite m) s = .next t → t.frameOut = some f → Memory.read f 10 = 0 ∧ Memory.read f 11 = 0)

/-! ### The encoders and packers: what each puts out -/

/-- ENC_OBTAIN_ID, ENC_MOTOR_ENABLE and ENC_FEEDBACK put out these sixteen bytes. Layouts and pseudocode of
41_encode.md section 2 (D5, D7, D8), against the parameters. -/
def Obligations.EncodeBareRequests : Prop :=
  ∀ s : State,
    (∀ m : ObtainIdReq, exec (.encObtainId m) s = .next (s.built (frameOfBytes
      [m.canId, byteOf s.params.hostData16.obtainId 0, byteOf s.params.hostData16.obtainId 1, 0x80,
       8, 0, 0, 0, 0, 0, 0, 0, 0, 0, 0, 0]))) ∧
    (∀ m : MotorEnableReq, exec (.encMotorEnable m) s = .next (s.built (frameOfBytes
      [m.canId, byteOf s.params.hostData16.motorEnable 0, byteOf s.params.hostData16.motorEnable 1,
       BitVec.ofNat 8 (0x80 + s.params.muxMotorEnable.toNat), 8, 0, 0, 0, 0, 0, 0, 0, 0, 0, 0, 0]))) ∧
    (∀ m : FeedbackReq, exec (.encFeedback m) s = .next (s.built (frameOfBytes
      [m.canId, byteOf s.params.hostData16.feedback 0, byteOf s.params.hostData16.feedback 1,
       BitVec.ofNat 8 (0x80 + s.params.muxFeedbackReq.toNat), 8, 0, 0, 0, 0, 0, 0, 0, 0, 0, 0, 0])))

/-- ENC_CONTROL puts torque into the identifier, low byte first, and the other axes big-endian into the payload. The
Control layout (30_encoding.md section 3, D6). -/
def Obligations.EncodeControl : Prop :=
  ∀ (s : State) (m : ControlReq), exec (.encControl m) s = .next (s.built (frameOfBytes
    [m.canId, byteOf m.torque 0, byteOf m.torque 1, 0x81, 8, 0, 0, 0,
     byteOf m.angle 1, byteOf m.angle 0, byteOf m.velocity 1, byteOf m.velocity 0,
     byteOf m.kp 1, byteOf m.kp 0, byteOf m.kd 1, byteOf m.kd 0]))

/-- ENC_READ_ALL_PARAMS puts the UID into the payload, least significant byte first. The ReadAllParams layout
(30_encoding.md section 3, D9). -/
def Obligations.EncodeReadAllParams : Prop :=
  ∀ (s : State) (m : ReadAllParamsReq), exec (.encReadAllParams m) s = .next (s.built (frameOfBytes
    [m.canId, byteOf s.params.hostData16.readAllParams 0, byteOf s.params.hostData16.readAllParams 1, 0x93, 8, 0, 0, 0,
     byteOf m.mcuUid 0, byteOf m.mcuUid 1, byteOf m.mcuUid 2, byteOf m.mcuUid 3,
     byteOf m.mcuUid 4, byteOf m.mcuUid 5, byteOf m.mcuUid 6, byteOf m.mcuUid 7]))

/-- ENC_ZERO_POSITION and ENC_DATA_SAVE put out the payload their parameter gives. The two layouts with a payload
parameter (30_encoding.md section 3, D10). -/
def Obligations.EncodeParameterPayloadRequests : Prop :=
  ∀ s : State,
    (∀ m : ZeroPositionReq, exec (.encZeroPosition m) s = .next (s.built (frameOfBytes
      [m.canId, byteOf s.params.hostData16.zeroPosition 0, byteOf s.params.hostData16.zeroPosition 1, 0x86, 8, 0, 0, 0,
       s.params.zeroPosPayload.b0, s.params.zeroPosPayload.b1, s.params.zeroPosPayload.b2, s.params.zeroPosPayload.b3,
       s.params.zeroPosPayload.b4, s.params.zeroPosPayload.b5, s.params.zeroPosPayload.b6,
       s.params.zeroPosPayload.b7]))) ∧
    (∀ m : DataSaveReq, exec (.encDataSave m) s = .next (s.built (frameOfBytes
      [m.canId, byteOf s.params.hostData16.dataSave 0, byteOf s.params.hostData16.dataSave 1, 0x96, 8, 0, 0, 0,
       s.params.dataSavePayload.b0, s.params.dataSavePayload.b1, s.params.dataSavePayload.b2, s.params.dataSavePayload.b3,
       s.params.dataSavePayload.b4, s.params.dataSavePayload.b5, s.params.dataSavePayload.b6,
       s.params.dataSavePayload.b7])))

/-- ENC_PARAM_READ and ENC_PARAM_WRITE put out index low byte first, the write its data at bytes 12 to 15. The
single-parameter layouts (30_encoding.md section 3, D11). -/
def Obligations.EncodeParamReadAndWrite : Prop :=
  ∀ s : State,
    (∀ m : ParamReadReq, exec (.encParamRead m) s = .next (s.built (frameOfBytes
      [m.canId, byteOf s.params.hostData16.paramRead 0, byteOf s.params.hostData16.paramRead 1, 0x91, 8, 0, 0, 0,
       byteOf m.index 0, byteOf m.index 1, 0, 0, 0, 0, 0, 0]))) ∧
    (∀ m : ParamWriteReq, exec (.encParamWrite m) s = .next (s.built (frameOfBytes
      [m.canId, byteOf s.params.hostData16.paramWrite 0, byteOf s.params.hostData16.paramWrite 1, 0x92, 8, 0, 0, 0,
       byteOf m.index 0, byteOf m.index 1, 0, 0, m.data.b0, m.data.b1, m.data.b2, m.data.b3])))

/-- PACK_OBTAIN_ID_RESP puts out these sixteen bytes. The layout of 30_encoding.md section 5 (D16) and the packer of
41_encode.md section 4 (D28). -/
def Obligations.PackObtainIdResponse : Prop :=
  ∀ (s : State) (m : ObtainIdResp), exec (.packObtainIdResp m) s = .next (s.built (frameOfBytes
    [m.host, m.canId, m.aux, BitVec.ofNat 8 (0x80 + 32 * m.hdr.res2.toNat + 0x00),
     m.hdr.len, m.hdr.pad, m.hdr.res0, m.hdr.len8,
     byteOf m.mcuUid 0, byteOf m.mcuUid 1, byteOf m.mcuUid 2, byteOf m.mcuUid 3,
     byteOf m.mcuUid 4, byteOf m.mcuUid 5, byteOf m.mcuUid 6, byteOf m.mcuUid 7]))

/-- PACK_FEEDBACK_RESP puts out these sixteen bytes. The layout of 30_encoding.md section 5 (D13) and the packer of
41_encode.md section 4 (D28). -/
def Obligations.PackFeedbackResponse : Prop :=
  ∀ (s : State) (m : FeedbackResp), exec (.packFeedbackResp m) s = .next (s.built (frameOfBytes
    [m.host, m.canId, m.status, BitVec.ofNat 8 (0x80 + 32 * m.hdr.res2.toNat + 0x02),
     m.hdr.len, m.hdr.pad, m.hdr.res0, m.hdr.len8,
     byteOf m.angle 1, byteOf m.angle 0, byteOf m.velocity 1, byteOf m.velocity 0,
     byteOf m.torque 1, byteOf m.torque 0, m.tail.b0, m.tail.b1]))

/-- PACK_READ_ALL_PARAMS_RESP puts out these sixteen bytes. The layout of 30_encoding.md section 5 (D14) and the
packer of 41_encode.md section 4 (D28). -/
def Obligations.PackReadAllParamsResponse : Prop :=
  ∀ (s : State) (m : ReadAllParamsResp), exec (.packReadAllParamsResp m) s = .next (s.built (frameOfBytes
    [m.host, m.canId, m.byteMarker, BitVec.ofNat 8 (0x80 + 32 * m.hdr.res2.toNat + 0x13),
     m.hdr.len, m.hdr.pad, m.hdr.res0, m.hdr.len8,
     byteOf m.paramCode 0, byteOf m.paramCode 1, m.data.b0, m.data.b1, m.data.b2, m.data.b3, m.data.b4, m.data.b5]))

/-- PACK_PARAM_READ_RESP puts out these sixteen bytes. The layout of 30_encoding.md section 5 (D15) and the packer of
41_encode.md section 4 (D28). -/
def Obligations.PackParamReadResponse : Prop :=
  ∀ (s : State) (m : ParamReadResp), exec (.packParamReadResp m) s = .next (s.built (frameOfBytes
    [m.host, m.canId, m.status, BitVec.ofNat 8 (0x80 + 32 * m.hdr.res2.toNat + 0x11),
     m.hdr.len, m.hdr.pad, m.hdr.res0, m.hdr.len8,
     byteOf m.index 0, byteOf m.index 1, m.rsv.b0, m.rsv.b1, m.data.b0, m.data.b1, m.data.b2, m.data.b3]))

/-! ### The unpackers: what each reads -/

/-- UNPACK_OBTAIN_ID_RESP reads these fields of any frame. The layout of 30_encoding.md section 5 (D16); the header is
delivered unchecked (42_decode.md section 1, D18). -/
def Obligations.UnpackObtainIdResponse : Prop :=
  ∀ s : State, ∃ m, exec (.unpackObtainIdResp) s = .next (s.answered (.obtainIdResp m)) ∧
    m.host = Memory.read s.frameIn 0 ∧ m.canId = Memory.read s.frameIn 1 ∧ m.aux = Memory.read s.frameIn 2 ∧
    m.mcuUid.toNat = (Memory.read s.frameIn 8).toNat + 2 ^ 8 * (Memory.read s.frameIn 9).toNat +
      2 ^ 16 * (Memory.read s.frameIn 10).toNat + 2 ^ 24 * (Memory.read s.frameIn 11).toNat +
      2 ^ 32 * (Memory.read s.frameIn 12).toNat + 2 ^ 40 * (Memory.read s.frameIn 13).toNat +
      2 ^ 48 * (Memory.read s.frameIn 14).toNat + 2 ^ 56 * (Memory.read s.frameIn 15).toNat ∧
    m.hdr.res2.toNat = (Memory.read s.frameIn 3).toNat / 32 % 4 ∧ m.hdr.len = Memory.read s.frameIn 4 ∧
    m.hdr.pad = Memory.read s.frameIn 5 ∧ m.hdr.res0 = Memory.read s.frameIn 6 ∧ m.hdr.len8 = Memory.read s.frameIn 7

/-- UNPACK_FEEDBACK_RESP reads these fields of any frame. The layout of 30_encoding.md section 5 (D13); the header is
delivered unchecked (42_decode.md section 1, D18). -/
def Obligations.UnpackFeedbackResponse : Prop :=
  ∀ s : State, ∃ m, exec (.unpackFeedbackResp) s = .next (s.answered (.feedbackResp m)) ∧
    m.host = Memory.read s.frameIn 0 ∧ m.canId = Memory.read s.frameIn 1 ∧ m.status = Memory.read s.frameIn 2 ∧
    m.angle.toNat = 256 * (Memory.read s.frameIn 8).toNat + (Memory.read s.frameIn 9).toNat ∧
    m.velocity.toNat = 256 * (Memory.read s.frameIn 10).toNat + (Memory.read s.frameIn 11).toNat ∧
    m.torque.toNat = 256 * (Memory.read s.frameIn 12).toNat + (Memory.read s.frameIn 13).toNat ∧
    m.tail.b0 = Memory.read s.frameIn 14 ∧ m.tail.b1 = Memory.read s.frameIn 15 ∧
    m.hdr.res2.toNat = (Memory.read s.frameIn 3).toNat / 32 % 4 ∧ m.hdr.len = Memory.read s.frameIn 4 ∧
    m.hdr.pad = Memory.read s.frameIn 5 ∧ m.hdr.res0 = Memory.read s.frameIn 6 ∧ m.hdr.len8 = Memory.read s.frameIn 7

/-- UNPACK_READ_ALL_PARAMS_RESP reads these fields of any frame. The layout of 30_encoding.md section 5 (D14); the
header is delivered unchecked (42_decode.md section 1, D18). -/
def Obligations.UnpackReadAllParamsResponse : Prop :=
  ∀ s : State, ∃ m, exec (.unpackReadAllParamsResp) s = .next (s.answered (.readAllParamsResp m)) ∧
    m.host = Memory.read s.frameIn 0 ∧ m.canId = Memory.read s.frameIn 1 ∧ m.byteMarker = Memory.read s.frameIn 2 ∧
    m.paramCode.toNat = (Memory.read s.frameIn 8).toNat + 256 * (Memory.read s.frameIn 9).toNat ∧
    m.data.b0 = Memory.read s.frameIn 10 ∧ m.data.b1 = Memory.read s.frameIn 11 ∧ m.data.b2 = Memory.read s.frameIn 12 ∧
    m.data.b3 = Memory.read s.frameIn 13 ∧ m.data.b4 = Memory.read s.frameIn 14 ∧ m.data.b5 = Memory.read s.frameIn 15 ∧
    m.hdr.res2.toNat = (Memory.read s.frameIn 3).toNat / 32 % 4 ∧ m.hdr.len = Memory.read s.frameIn 4 ∧
    m.hdr.pad = Memory.read s.frameIn 5 ∧ m.hdr.res0 = Memory.read s.frameIn 6 ∧ m.hdr.len8 = Memory.read s.frameIn 7

/-- UNPACK_PARAM_READ_RESP reads these fields of any frame. The layout of 30_encoding.md section 5 (D15); the header
is delivered unchecked (42_decode.md section 1, D18). -/
def Obligations.UnpackParamReadResponse : Prop :=
  ∀ s : State, ∃ m, exec (.unpackParamReadResp) s = .next (s.answered (.paramReadResp m)) ∧
    m.host = Memory.read s.frameIn 0 ∧ m.canId = Memory.read s.frameIn 1 ∧ m.status = Memory.read s.frameIn 2 ∧
    m.index.toNat = (Memory.read s.frameIn 8).toNat + 256 * (Memory.read s.frameIn 9).toNat ∧
    m.rsv.b0 = Memory.read s.frameIn 10 ∧ m.rsv.b1 = Memory.read s.frameIn 11 ∧
    m.data.b0 = Memory.read s.frameIn 12 ∧ m.data.b1 = Memory.read s.frameIn 13 ∧
    m.data.b2 = Memory.read s.frameIn 14 ∧ m.data.b3 = Memory.read s.frameIn 15 ∧
    m.hdr.res2.toNat = (Memory.read s.frameIn 3).toNat / 32 % 4 ∧ m.hdr.len = Memory.read s.frameIn 4 ∧
    m.hdr.pad = Memory.read s.frameIn 5 ∧ m.hdr.res0 = Memory.read s.frameIn 6 ∧ m.hdr.len8 = Memory.read s.frameIn 7

/-- The five request unpackers without a further field read the actuator's byte. The request unpackers (42_decode.md
section 4, D28), which the spec gives a frame with the flag clear; that they answer on any frame, the flag set
included, is the model's reading (log 21, with 42_decode.md section 1, D18). -/
def Obligations.UnpackBareRequests : Prop :=
  ∀ s : State,
    exec .unpackObtainIdReq s = .next (s.answered (.obtainIdReq { canId := Memory.read s.frameIn 0 })) ∧
    exec .unpackMotorEnableReq s = .next (s.answered (.motorEnableReq { canId := Memory.read s.frameIn 0 })) ∧
    exec .unpackFeedbackReq s = .next (s.answered (.feedbackReq { canId := Memory.read s.frameIn 0 })) ∧
    exec .unpackZeroPositionReq s = .next (s.answered (.zeroPositionReq { canId := Memory.read s.frameIn 0 })) ∧
    exec .unpackDataSaveReq s = .next (s.answered (.dataSaveReq { canId := Memory.read s.frameIn 0 }))

/-- The request unpackers with operands read them in the byte order of their layout. The request unpackers
(42_decode.md section 4, D28), which the spec gives a frame with the flag clear; that they answer on any frame, the
flag set included, is the model's reading (log 21, with 42_decode.md section 1, D18). -/
def Obligations.UnpackOperandRequests : Prop :=
  ∀ s : State,
    (∃ m, exec .unpackControlReq s = .next (s.answered (.controlReq m)) ∧ m.canId = Memory.read s.frameIn 0 ∧
      m.torque.toNat = (Memory.read s.frameIn 1).toNat + 256 * (Memory.read s.frameIn 2).toNat ∧
      m.angle.toNat = 256 * (Memory.read s.frameIn 8).toNat + (Memory.read s.frameIn 9).toNat ∧
      m.velocity.toNat = 256 * (Memory.read s.frameIn 10).toNat + (Memory.read s.frameIn 11).toNat ∧
      m.kp.toNat = 256 * (Memory.read s.frameIn 12).toNat + (Memory.read s.frameIn 13).toNat ∧
      m.kd.toNat = 256 * (Memory.read s.frameIn 14).toNat + (Memory.read s.frameIn 15).toNat) ∧
    (∃ m, exec .unpackReadAllParamsReq s = .next (s.answered (.readAllParamsReq m)) ∧ m.canId = Memory.read s.frameIn 0 ∧
      m.mcuUid.toNat = (Memory.read s.frameIn 8).toNat + 2 ^ 8 * (Memory.read s.frameIn 9).toNat +
      2 ^ 16 * (Memory.read s.frameIn 10).toNat + 2 ^ 24 * (Memory.read s.frameIn 11).toNat +
      2 ^ 32 * (Memory.read s.frameIn 12).toNat + 2 ^ 40 * (Memory.read s.frameIn 13).toNat +
      2 ^ 48 * (Memory.read s.frameIn 14).toNat + 2 ^ 56 * (Memory.read s.frameIn 15).toNat) ∧
    (∃ m, exec .unpackParamReadReq s = .next (s.answered (.paramReadReq m)) ∧ m.canId = Memory.read s.frameIn 0 ∧
      m.index.toNat = (Memory.read s.frameIn 8).toNat + 256 * (Memory.read s.frameIn 9).toNat) ∧
    (∃ m, exec .unpackParamWriteReq s = .next (s.answered (.paramWriteReq m)) ∧ m.canId = Memory.read s.frameIn 0 ∧
      m.index.toNat = (Memory.read s.frameIn 8).toNat + 256 * (Memory.read s.frameIn 9).toNat ∧
      m.data.b0 = Memory.read s.frameIn 12 ∧ m.data.b1 = Memory.read s.frameIn 13 ∧
      m.data.b2 = Memory.read s.frameIn 14 ∧ m.data.b3 = Memory.read s.frameIn 15)

/-! ### The decoder -/

/-- DEC answers the shape its mux selects, and UnknownMux for every other mux. The dispatch table and its error
(42_decode.md section 2, D17). -/
def Obligations.DecDispatchesOnTheMux : Prop :=
  ∀ s : State,
    ((Memory.read s.frameIn 3).toNat % 32 = 0x00 → s.params.decodableMux.obtainId = true →
      ∃ m, exec .unpackObtainIdResp s = .next (s.answered (.obtainIdResp m)) ∧
        exec .dec s = .next (s.answered (.response (.obtainId m)))) ∧
    ((Memory.read s.frameIn 3).toNat % 32 = 0x02 → s.params.decodableMux.feedback = true →
      ∃ m, exec .unpackFeedbackResp s = .next (s.answered (.feedbackResp m)) ∧
        exec .dec s = .next (s.answered (.response (.feedback m)))) ∧
    ((Memory.read s.frameIn 3).toNat % 32 = 0x11 → s.params.decodableMux.paramRead = true →
      ∃ m, exec .unpackParamReadResp s = .next (s.answered (.paramReadResp m)) ∧
        exec .dec s = .next (s.answered (.response (.paramRead m)))) ∧
    ((Memory.read s.frameIn 3).toNat % 32 = 0x13 → s.params.decodableMux.readAllParams = true →
      ∃ m, exec .unpackReadAllParamsResp s = .next (s.answered (.readAllParamsResp m)) ∧
        exec .dec s = .next (s.answered (.response (.readAllParams m)))) ∧
    (¬ (((Memory.read s.frameIn 3).toNat % 32 = 0x00 ∧ s.params.decodableMux.obtainId = true) ∨
        ((Memory.read s.frameIn 3).toNat % 32 = 0x02 ∧ s.params.decodableMux.feedback = true) ∨
        ((Memory.read s.frameIn 3).toNat % 32 = 0x11 ∧ s.params.decodableMux.paramRead = true) ∨
        ((Memory.read s.frameIn 3).toNat % 32 = 0x13 ∧ s.params.decodableMux.readAllParams = true)) →
      exec .dec s = .next (s.failed (.unknownMux (BitVec.ofNat 5 (Memory.read s.frameIn 3).toNat))))

/-- DEC clears the flag, extracts the mux, dispatches on it and unpacks the cleared frame, reading nothing else. R115.
-/
def Obligations.DecStepsInOrder : Prop :=
  (∀ s : State,
    (decodable s.params (muxOf (clearEff s.frameIn)) = false →
      exec .dec s = .next (s.failed (.unknownMux (muxOf (clearEff s.frameIn))))) ∧
    ((muxOf (clearEff s.frameIn)).toNat = 0x00 → decodable s.params (muxOf (clearEff s.frameIn)) = true →
      ∃ m, exec .unpackObtainIdResp { s with frameIn := clearEff s.frameIn } =
          .next (State.answered { s with frameIn := clearEff s.frameIn } (.obtainIdResp m)) ∧
        exec .dec s = .next (s.answered (.response (.obtainId m)))) ∧
    ((muxOf (clearEff s.frameIn)).toNat = 0x02 → decodable s.params (muxOf (clearEff s.frameIn)) = true →
      ∃ m, exec .unpackFeedbackResp { s with frameIn := clearEff s.frameIn } =
          .next (State.answered { s with frameIn := clearEff s.frameIn } (.feedbackResp m)) ∧
        exec .dec s = .next (s.answered (.response (.feedback m)))) ∧
    ((muxOf (clearEff s.frameIn)).toNat = 0x11 → decodable s.params (muxOf (clearEff s.frameIn)) = true →
      ∃ m, exec .unpackParamReadResp { s with frameIn := clearEff s.frameIn } =
          .next (State.answered { s with frameIn := clearEff s.frameIn } (.paramReadResp m)) ∧
        exec .dec s = .next (s.answered (.response (.paramRead m)))) ∧
    ((muxOf (clearEff s.frameIn)).toNat = 0x13 → decodable s.params (muxOf (clearEff s.frameIn)) = true →
      ∃ m, exec .unpackReadAllParamsResp { s with frameIn := clearEff s.frameIn } =
          .next (State.answered { s with frameIn := clearEff s.frameIn } (.readAllParamsResp m)) ∧
        exec .dec s = .next (s.answered (.response (.readAllParams m))))) ∧
  (∀ s s' : State, s'.frameIn = s.frameIn → s'.params.decodableMux = s.params.decodableMux →
    ∃ t t', exec .dec s = .next t ∧ exec .dec s' = .next t' ∧ t'.result = t.result ∧ t'.frameOut = t.frameOut)

/-- DEC and FEEDBACK_TO_ENG give the same outcome with the flag set and clear. "a frame with the flag already clear
decodes to the same record" (42_decode.md section 1, D18). -/
def Obligations.DecodingIgnoresTheFlag : Prop :=
  ∀ (s : State) (g : Frame) (ranges : RangeSet),
    (∀ a, a ≠ 3 → Memory.read g a = Memory.read s.frameIn a) →
    (Memory.read g 3).toNat % 128 = (Memory.read s.frameIn 3).toNat % 128 →
    ∀ i : Instr, i = .dec ∨ i = .feedbackToEng ranges →
      ∃ t t', exec i s = .next t ∧ exec i { s with frameIn := g } = .next t' ∧ t'.result = t.result ∧
        t'.frameOut = t.frameOut

/-- Encoding a request and unpacking the frame gives the request back, for all nine kinds. Derived by the spec from
the layouts (42_decode.md, round trip, message to frame to message). -/
def Obligations.RequestsRoundTrip : Prop :=
  ∀ s : State,
    (∀ m, RoundTrips s (.encObtainId m) .unpackObtainIdReq (.obtainIdReq m)) ∧
    (∀ m, RoundTrips s (.encControl m) .unpackControlReq (.controlReq m)) ∧
    (∀ m, RoundTrips s (.encMotorEnable m) .unpackMotorEnableReq (.motorEnableReq m)) ∧
    (∀ m, RoundTrips s (.encFeedback m) .unpackFeedbackReq (.feedbackReq m)) ∧
    (∀ m, RoundTrips s (.encReadAllParams m) .unpackReadAllParamsReq (.readAllParamsReq m)) ∧
    (∀ m, RoundTrips s (.encZeroPosition m) .unpackZeroPositionReq (.zeroPositionReq m)) ∧
    (∀ m, RoundTrips s (.encParamRead m) .unpackParamReadReq (.paramReadReq m)) ∧
    (∀ m, RoundTrips s (.encParamWrite m) .unpackParamWriteReq (.paramWriteReq m)) ∧
    (∀ m, RoundTrips s (.encDataSave m) .unpackDataSaveReq (.dataSaveReq m))

/-- Packing a response and decoding the frame gives the response back, by its unpacker and by DEC. Derived by the spec
from the layouts (42_decode.md, round trip, message to frame to message). -/
def Obligations.ResponsesRoundTrip : Prop :=
  ∀ s : State,
    (∀ m, RoundTrips s (.packObtainIdResp m) .unpackObtainIdResp (.obtainIdResp m) ∧
      (s.params.decodableMux.obtainId = true → ∃ f, exec (.packObtainIdResp m) s = .next (s.built f) ∧
        exec .dec { s with frameIn := f } = .next (State.answered { s with frameIn := f } (.response (.obtainId m))))) ∧
    (∀ m, RoundTrips s (.packFeedbackResp m) .unpackFeedbackResp (.feedbackResp m) ∧
      (s.params.decodableMux.feedback = true → ∃ f, exec (.packFeedbackResp m) s = .next (s.built f) ∧
        exec .dec { s with frameIn := f } = .next (State.answered { s with frameIn := f } (.response (.feedback m))))) ∧
    (∀ m, RoundTrips s (.packReadAllParamsResp m) .unpackReadAllParamsResp (.readAllParamsResp m) ∧
      (s.params.decodableMux.readAllParams = true → ∃ f, exec (.packReadAllParamsResp m) s = .next (s.built f) ∧
        exec .dec { s with frameIn := f } = .next (State.answered { s with frameIn := f } (.response (.readAllParams m))))) ∧
    (∀ m, RoundTrips s (.packParamReadResp m) .unpackParamReadResp (.paramReadResp m) ∧
      (s.params.decodableMux.paramRead = true → ∃ f, exec (.packParamReadResp m) s = .next (s.built f) ∧
        exec .dec { s with frameIn := f } = .next (State.answered { s with frameIn := f } (.response (.paramRead m)))))

/-- Unpacking a response frame and packing the record gives the frame back, its flag set. Derived by the spec
(42_decode.md, round trip, frame to message to frame). -/
def Obligations.ResponsesAreLossless : Prop :=
  ∀ s : State, Memory.wf s.frameIn = true →
    ((Memory.read s.frameIn 3).toNat % 32 = 0x00 →
      ∃ m, exec .unpackObtainIdResp { s with frameIn := clearEff s.frameIn } =
          .next (State.answered { s with frameIn := clearEff s.frameIn } (.obtainIdResp m)) ∧
        exec (.packObtainIdResp m) s = .next (s.built (setEff s.frameIn))) ∧
    ((Memory.read s.frameIn 3).toNat % 32 = 0x02 →
      ∃ m, exec .unpackFeedbackResp { s with frameIn := clearEff s.frameIn } =
          .next (State.answered { s with frameIn := clearEff s.frameIn } (.feedbackResp m)) ∧
        exec (.packFeedbackResp m) s = .next (s.built (setEff s.frameIn))) ∧
    ((Memory.read s.frameIn 3).toNat % 32 = 0x13 →
      ∃ m, exec .unpackReadAllParamsResp { s with frameIn := clearEff s.frameIn } =
          .next (State.answered { s with frameIn := clearEff s.frameIn } (.readAllParamsResp m)) ∧
        exec (.packReadAllParamsResp m) s = .next (s.built (setEff s.frameIn))) ∧
    ((Memory.read s.frameIn 3).toNat % 32 = 0x11 →
      ∃ m, exec .unpackParamReadResp { s with frameIn := clearEff s.frameIn } =
          .next (State.answered { s with frameIn := clearEff s.frameIn } (.paramReadResp m)) ∧
        exec (.packParamReadResp m) s = .next (s.built (setEff s.frameIn)))

/-! ### The scaler -/

/-- f64 addition and subtraction are IEEE 754's, on infinities and NaNs too. "each correctly rounded (IEEE 754
binary64, round to nearest, ties to even)", and non-finite operands give what the IEEE operations give (40_scaler.md
section 2, D19). The arithmetic is the default of Numerics (log 10); which NaN results is free (log 11). -/
def Obligations.SumsAreCorrectlyRounded : Prop :=
  (∀ x y : F64, x.isFinite = true → y.isFinite = true →
    CorrectlyRounded (x.value + y.value) (x.add y) ∧ CorrectlyRounded (x.value - y.value) (x.sub y) ∧
    (x.value + y.value = 0 → (x.add y).isZero = true ∧ (x.add y).sign = (x.sign && y.sign)) ∧
    (x.value - y.value = 0 → (x.sub y).isZero = true ∧ (x.sub y).sign = (x.sign && !y.sign))) ∧
  (∀ x y : F64, x.isNaN = true ∨ y.isNaN = true → (x.add y).isNaN = true ∧ (x.sub y).isNaN = true) ∧
  (∀ x y : F64, x.isInf = true → y.isFinite = true → x.add y = x ∧ x.sub y = x) ∧
  (∀ x y : F64, x.isFinite = true → y.isInf = true →
    x.add y = y ∧ (x.sub y).isInf = true ∧ (x.sub y).sign = !y.sign) ∧
  (∀ x y : F64, x.isInf = true → y.isInf = true →
    (x.sign = y.sign → x.add y = x ∧ (x.sub y).isNaN = true) ∧
    (x.sign ≠ y.sign → (x.add y).isNaN = true ∧ x.sub y = x))

/-- f64 multiplication and division are IEEE 754's, on infinities and NaNs too. "each correctly rounded (IEEE 754
binary64, round to nearest, ties to even)", and non-finite operands give what the IEEE operations give (40_scaler.md
section 2, D19). The arithmetic is the default of Numerics (log 10); which NaN results is free (log 11). -/
def Obligations.ProductsAreCorrectlyRounded : Prop :=
  (∀ x y : F64, x.isFinite = true → y.isFinite = true →
    CorrectlyRounded (x.value * y.value) (x.mul y) ∧
    (y.isZero = false → CorrectlyRounded (x.value / y.value) (x.div y)) ∧
    (y.isZero = true → x.isZero = false → (x.div y).isInf = true) ∧
    (y.isZero = true → x.isZero = true → (x.div y).isNaN = true)) ∧
  (∀ x y : F64, x.isNaN = true ∨ y.isNaN = true → (x.mul y).isNaN = true ∧ (x.div y).isNaN = true) ∧
  (∀ x y : F64, x.isInf = true → y.isNaN = false →
    (y.isZero = true → (x.mul y).isNaN = true ∧ (y.mul x).isNaN = true) ∧
    (y.isZero = false → (x.mul y).isInf = true ∧ (y.mul x).isInf = true) ∧
    (y.isInf = true → (x.div y).isNaN = true) ∧
    (y.isFinite = true → (x.div y).isInf = true ∧ (y.div x).isZero = true)) ∧
  (∀ x y : F64, ((x.mul y).isNaN = false → (x.mul y).sign = (x.sign != y.sign)) ∧
    ((x.div y).isNaN = false → (x.div y).sign = (x.sign != y.sign)))

/-- f64 values are compared by the numbers they stand for, infinities beyond every finite value, NaNs not at all.
"compared as f64, so +0.0 = -0.0" (40_scaler.md section 2, D22), with f64 the IEEE 754 binary64 values (00_scope.md
section 5): infinities are values of a range's ends too (40_scaler.md section 2, D19). -/
def Obligations.ComparisonIsByValue : Prop :=
  (∀ x y : F64, x.isFinite = true → y.isFinite = true →
    (x.eq y = true ↔ x.value = y.value) ∧ (x.le y = true ↔ x.value ≤ y.value)) ∧
  (∀ x y : F64, x.isInf = true → y.isNaN = false →
    (x.eq y = true ↔ y = x) ∧ (y.eq x = true ↔ y = x) ∧
    (x.sign = false → y.le x = true ∧ (x.le y = true ↔ y = x)) ∧
    (x.sign = true → x.le y = true ∧ (y.le x = true ↔ y = x))) ∧
  (∀ x y : F64, x.isNaN = true ∨ y.isNaN = true → x.eq y = false ∧ x.le y = false)

/-- SCALE evaluates the five operations in the order of the parentheses, in the arithmetic Numerics names. The
evaluation order of 40_scaler.md section 2 (D19). An arithmetic other than the default is free (log 10), and so are
the sign and payload of a NaN (log 11). -/
def Obligations.ScaleCompletes : Prop :=
  ∀ (s : State) (n : Numerics) (value : F64) (source target : PhysicalRange), s.params.numerics = n →
    source.max.eq source.min = false →
    exec (.scale value source target) s = .next (s.answered (.f64
      (n.compute .add target.min (n.compute .mul
        (n.compute .div (n.compute .sub value source.min) (n.compute .sub source.max source.min))
        (n.compute .sub target.max target.min))))) ∧
    (n = .ieee754 → exec (.scale value source target) s = .next (s.answered (.f64
      (target.min.add (((value.sub source.min).div (source.max.sub source.min)).mul (target.max.sub target.min))))))

/-- SCALE and SCALE_TO_WIRE trap on a range with equal ends, then SCALE_TO_WIRE on a result out of range. The policy
of 40_scaler.md section 2 (D22); reported before ScaleOutOfRange (60_exceptions.md section 3, D33). At -1/2 the clause
rests on the admitted set of QUANT_ROUND (log 9). -/
def Obligations.ScalerTraps : Prop :=
  (∀ (s : State) (value : F64) (source target : PhysicalRange), source.max.eq source.min = true →
    exec (.scale value source target) s = .next (s.failed (.scaleDegenerateRange source)) ∧
    exec (.scaleToWire value source) s = .next (s.failed (.scaleDegenerateRange source))) ∧
  (∀ (s : State) (value r : F64) (eng : PhysicalRange), s.params.quantPolicy = .fault →
    exec (.scale value eng transportRange) s = .next (s.answered (.f64 r)) →
    ¬ r.hasCode s.params.quantRound →
    exec (.scaleToWire value eng) s = .next (s.failed (.scaleOutOfRange r)))

/-- QUANT16 of a finite value that rounds to 0..65535 answers the nearest integer. The quantiser of 40_scaler.md
section 3 (D20); the other two values of QUANT_ROUND are the model's admitted set (log 9). -/
def Obligations.QuantiseInRange : Prop :=
  ∀ (s : State) (r : F64), r.hasCode s.params.quantRound →
    ∃ n, IsQuantised s.params.quantRound r.value n ∧ exec (.quant16 r) s = .next (s.answered (.u16 n))

/-- QUANT16 of any other value faults or saturates, as QUANT_POLICY says. The policy of 40_scaler.md section 3 (D21).
At -1/2 the statement rests on the admitted set of QUANT_ROUND (log 9). -/
def Obligations.QuantiseOutOfRange : Prop :=
  ∀ (s : State) (r : F64), ¬ r.hasCode s.params.quantRound →
    (s.params.quantPolicy = .fault → exec (.quant16 r) s = .next (s.failed (.scaleOutOfRange r))) ∧
    (s.params.quantPolicy = .saturate →
      exec (.quant16 r) s = .next (s.answered (.u16
        (if r.isNaN = true ∨ r = F64.infinity true ∨ (r.isFinite = true ∧ r.value < 0) then 0 else 65535))))

/-- SCALE_TO_WIRE ends as QUANT16 ends on what SCALE answers, and answers a code for every value its range admits.
Derived by the spec from SCALE and QUANT16 (40_scaler.md section 4); the policy is 40_scaler.md section 3 (D21), and
the three roundings are the model's admitted set (log 9). -/
def Obligations.ScaleToWireCompletes : Prop :=
  ∀ (s : State) (value : F64) (eng : PhysicalRange), eng.max.eq eng.min = false →
    ∃ r, exec (.scale value eng transportRange) s = .next (s.answered (.f64 r)) ∧
      exec (.scaleToWire value eng) s = exec (.quant16 r) s ∧
      (s.params.quantPolicy = .saturate ∨ r.hasCode s.params.quantRound →
        ∃ n, exec (.scaleToWire value eng) s = .next (s.answered (.u16 n)) ∧
          (r.hasCode s.params.quantRound → IsQuantised s.params.quantRound r.value n))

/-- SCALE_TO_WIRE sends the ends of a range to 0 and 65535, whatever the rounding and the policy. Facts (a), (b) and
(d) the spec derives from the formula, with the premise that the difference of the ends is finite made explicit. The
arithmetic is the default of Numerics (log 10). -/
def Obligations.ScaleToWireAtTheEnds : Prop :=
  ∀ (s : State) (eng : PhysicalRange), s.params.numerics = .ieee754 →
    eng.finite = true → eng.max.eq eng.min = false →
    (∀ value : F64, value.eq eng.min = true → exec (.scaleToWire value eng) s = .next (s.answered (.u16 0))) ∧
    ((eng.max.sub eng.min).isFinite = true →
      exec (.scaleToWire eng.max eng) s = .next (s.answered (.u16 65535)))

/-- Engineering zero on a symmetric range scales to 32767.5 exactly and to the code 32768. Fact (c) the spec derives,
and 90_conflicts.md C7. That all three values of QUANT_ROUND send the tie up is what admits them (log 9). The
arithmetic is the default of Numerics (log 10). -/
def Obligations.ZeroOfSymmetricRangeIs32768 : Prop :=
  ∀ (s : State) (value : F64) (eng : PhysicalRange), s.params.numerics = .ieee754 →
    value.isZero = true → eng.finite = true → eng.symmetric = true →
    eng.max.eq eng.min = false → (eng.max.sub eng.min).isFinite = true →
    exec (.scale value eng transportRange) s = .next (s.answered (.f64 ⟨0x40DFFFE000000000⟩)) ∧
    exec (.scaleToWire value eng) s = .next (s.answered (.u16 32768))

/-- A greater engineering value never gets a smaller code. Fact (e) the spec derives for SCALE, carried through
QUANT16 (each correctly rounded operation is monotone in the operand that varies). The arithmetic is the default of
Numerics (log 10). -/
def Obligations.ScaleToWireIsMonotone : Prop :=
  ∀ (s : State) (v v' : F64) (eng : PhysicalRange) (n n' : BitVec 16), s.params.numerics = .ieee754 →
    eng.finite = true → eng.min.le eng.max = true →
    v.isFinite = true → v'.isFinite = true → v.le v' = true →
    exec (.scaleToWire v eng) s = .next (s.answered (.u16 n)) →
    exec (.scaleToWire v' eng) s = .next (s.answered (.u16 n')) → n.toNat ≤ n'.toNat

/-- SCALE_FROM_WIRE is SCALE of the code, held exactly, from 0..65535. Derived by the spec from SCALE (40_scaler.md
section 4): every u16 is representable, and the transport range is never degenerate. -/
def Obligations.ScaleFromWireCompletes : Prop :=
  ∀ (s : State) (raw : BitVec 16) (eng : PhysicalRange), ∃ x r : F64,
    x.isFinite = true ∧ x.sign = false ∧ x.value = (raw.toNat : ℚ) ∧
    exec (.scale x transportRange eng) s = .next (s.answered (.f64 r)) ∧
    exec (.scaleFromWire raw eng) s = .next (s.answered (.f64 r))

/-- SCALE_FROM_WIRE sends code 0 to the lower end and 65535 to min + (max - min). The corner cases of SCALE_FROM_WIRE
(40_scaler.md section 4), with the premise that the width is finite made explicit. The arithmetic is the default of
Numerics (log 10). -/
def Obligations.ScaleFromWireAtTheEnds : Prop :=
  ∀ (s : State) (eng : PhysicalRange), s.params.numerics = .ieee754 →
    eng.finite = true → (eng.max.sub eng.min).isFinite = true →
    (∃ r, exec (.scaleFromWire 0 eng) s = .next (s.answered (.f64 r)) ∧ r.eq eng.min = true) ∧
    (∃ r, exec (.scaleFromWire 65535 eng) s = .next (s.answered (.f64 r)) ∧
      r.eq (eng.min.add (eng.max.sub eng.min)) = true)

/-! ### The compound operations -/

/-- CONTROL_FROM_ENG scales the five axes with their ranges and puts out the Control frame. The compound encoder
(41_encode.md section 3, D6), the pairing of axes (40_scaler.md section 4) and the policy saturate (40_scaler.md
section 3, D21). -/
def Obligations.ControlFromEngCompletes : Prop :=
  ∀ (s : State) (canId : Byte) (cmd : ActuatorCommand) (ranges : RangeSet),
    ranges.angle.admits s.params cmd.qpos → ranges.velocity.admits s.params cmd.qvel →
    ranges.torque.admits s.params cmd.qfrc → ranges.kp.admits s.params cmd.kp → ranges.kd.admits s.params cmd.kd →
    ∃ a v t p d : BitVec 16,
      exec (.scaleToWire cmd.qpos ranges.angle) s = .next (s.answered (.u16 a)) ∧
      exec (.scaleToWire cmd.qvel ranges.velocity) s = .next (s.answered (.u16 v)) ∧
      exec (.scaleToWire cmd.qfrc ranges.torque) s = .next (s.answered (.u16 t)) ∧
      exec (.scaleToWire cmd.kp ranges.kp) s = .next (s.answered (.u16 p)) ∧
      exec (.scaleToWire cmd.kd ranges.kd) s = .next (s.answered (.u16 d)) ∧
      exec (.controlFromEng canId cmd ranges) s = .next (s.built (frameOfBytes
        [canId, byteOf t 0, byteOf t 1, 0x81, 8, 0, 0, 0, byteOf a 1, byteOf a 0, byteOf v 1, byteOf v 0,
         byteOf p 1, byteOf p 0, byteOf d 1, byteOf d 0]))

/-- CONTROL_FROM_ENG ends with the error of the first axis that fails, and no frame. The order of checks
(60_exceptions.md section 3, D33). -/
def Obligations.ControlFromEngFirstError : Prop :=
  ∀ (s : State) (canId : Byte) (cmd : ActuatorCommand) (ranges : RangeSet) (e : OpError) (a v t p : BitVec 16),
    (exec (.scaleToWire cmd.qpos ranges.angle) s = .next (s.failed e) →
      exec (.controlFromEng canId cmd ranges) s = .next (s.failed e)) ∧
    (exec (.scaleToWire cmd.qpos ranges.angle) s = .next (s.answered (.u16 a)) →
      exec (.scaleToWire cmd.qvel ranges.velocity) s = .next (s.failed e) →
      exec (.controlFromEng canId cmd ranges) s = .next (s.failed e)) ∧
    (exec (.scaleToWire cmd.qpos ranges.angle) s = .next (s.answered (.u16 a)) →
      exec (.scaleToWire cmd.qvel ranges.velocity) s = .next (s.answered (.u16 v)) →
      exec (.scaleToWire cmd.qfrc ranges.torque) s = .next (s.failed e) →
      exec (.controlFromEng canId cmd ranges) s = .next (s.failed e)) ∧
    (exec (.scaleToWire cmd.qpos ranges.angle) s = .next (s.answered (.u16 a)) →
      exec (.scaleToWire cmd.qvel ranges.velocity) s = .next (s.answered (.u16 v)) →
      exec (.scaleToWire cmd.qfrc ranges.torque) s = .next (s.answered (.u16 t)) →
      exec (.scaleToWire cmd.kp ranges.kp) s = .next (s.failed e) →
      exec (.controlFromEng canId cmd ranges) s = .next (s.failed e)) ∧
    (exec (.scaleToWire cmd.qpos ranges.angle) s = .next (s.answered (.u16 a)) →
      exec (.scaleToWire cmd.qvel ranges.velocity) s = .next (s.answered (.u16 v)) →
      exec (.scaleToWire cmd.qfrc ranges.torque) s = .next (s.answered (.u16 t)) →
      exec (.scaleToWire cmd.kp ranges.kp) s = .next (s.answered (.u16 p)) →
      exec (.scaleToWire cmd.kd ranges.kd) s = .next (s.failed e) →
      exec (.controlFromEng canId cmd ranges) s = .next (s.failed e))

/-- The zero command on Robstride01-like ranges gives the frame of the document's scenario. The document's end-to-end
scenario as 41_encode.md section 3 (D6) and 90_conflicts.md C2 read it; the ranges themselves are in no source (log
12). The arithmetic is the default of Numerics (log 10). -/
def Obligations.ZeroCommandEndToEnd : Prop :=
  ∀ (s : State) (canId : Byte) (cmd : ActuatorCommand) (ranges : RangeSet), s.params.numerics = .ieee754 →
    (cmd.qpos.isZero = true ∧ cmd.qvel.isZero = true ∧ cmd.qfrc.isZero = true ∧ cmd.kp.isZero = true ∧
      cmd.kd.isZero = true) →
    (∀ r ∈ [ranges.angle, ranges.velocity, ranges.torque], r.finite = true ∧ r.symmetric = true ∧
      r.max.eq r.min = false ∧ (r.max.sub r.min).isFinite = true) →
    (∀ r ∈ [ranges.kp, ranges.kd], r.finite = true ∧ r.min.isZero = true ∧ r.max.eq r.min = false) →
    exec (.controlFromEng canId cmd ranges) s = .next (s.built (frameOfBytes
      [canId, 0x00, 0x80, 0x81, 0x08, 0x00, 0x00, 0x00, 0x80, 0x00, 0x80, 0x00, 0x00, 0x00, 0x00, 0x00]))

/-- FEEDBACK_TO_ENG answers the actuator's byte and the three scaled quantities. The compound decoder (42_decode.md
section 5, D29) and the pairing of axes (40_scaler.md section 4). -/
def Obligations.FeedbackToEngCompletes : Prop :=
  ∀ (s : State) (ranges : RangeSet), (Memory.read s.frameIn 3).toNat % 32 = 0x02 → s.params.decodableMux.feedback = true →
    ∃ x y z : F64,
      exec (.scaleFromWire
        (BitVec.ofNat 16 (256 * (Memory.read s.frameIn 8).toNat + (Memory.read s.frameIn 9).toNat)) ranges.angle) s =
        .next (s.answered (.f64 x)) ∧
      exec (.scaleFromWire
        (BitVec.ofNat 16 (256 * (Memory.read s.frameIn 10).toNat + (Memory.read s.frameIn 11).toNat)) ranges.velocity) s =
        .next (s.answered (.f64 y)) ∧
      exec (.scaleFromWire
        (BitVec.ofNat 16 (256 * (Memory.read s.frameIn 12).toNat + (Memory.read s.frameIn 13).toNat)) ranges.torque) s =
        .next (s.answered (.f64 z)) ∧
      exec (.feedbackToEng ranges) s = .next (s.answered
        (.feedbackUpdate (Memory.read s.frameIn 1) { position := x, velocity := y, torque := z }))

/-- FEEDBACK_TO_ENG propagates UnknownMux, and raises NotFeedback on a frame of another shape. The two errors of the
compound decoder and their order (42_decode.md section 5, D29; 60_exceptions.md section 3, D33). -/
def Obligations.FeedbackToEngErrors : Prop :=
  ∀ (s : State) (ranges : RangeSet),
    (∀ e, exec .dec s = .next (s.failed e) → exec (.feedbackToEng ranges) s = .next (s.failed e)) ∧
    (∀ r, exec .dec s = .next (s.answered (.response r)) → (∀ m, r ≠ .feedback m) →
      exec (.feedbackToEng ranges) s =
        .next (s.failed (.notFeedback (BitVec.ofNat 5 (Memory.read s.frameIn 3).toNat))))

/-! ### The host software beside the block -/

/-- stageRequest records the request, awaits a response and returns the frame of the matching ENC_* operation. R134.
What happens where the request cannot be built is the model's choice (log 14) and not stated here. -/
def Obligations.StageRequestEncodes : Prop :=
  ∀ (p : Params) (session : Session) (params : RequestParams) (r : Request), buildRequest p session params = .ok r →
    ∃ f, stageRequest p session params = .ok ({ session with status := .awaitingResponse, lastRequest := some r }, f) ∧
      ∀ s : State, s.params = p → exec r.encoder s = .next (s.built f)

/-- handleResponse stores the UID, answers an update, or does nothing further, and rejects another actuator's
response. R136, R137, R138. last_request is not read: the statement holds whatever it is. -/
def Obligations.SessionHandlesResponses : Prop :=
  ∀ (s : State) (session : Session),
    (∀ m, exec .dec s = .next (s.answered (.response (.obtainId m))) →
      (m.canId ≠ session.canId →
        handleResponse s.params session s.frameIn = some ⟨session, .error (.protocol .canIdMismatch)⟩) ∧
      (m.canId = session.canId →
        handleResponse s.params session s.frameIn =
          some ⟨{ session with mcuUid := some m.mcuUid, status := .ready }, .ok none⟩)) ∧
    (∀ m, exec .dec s = .next (s.answered (.response (.feedback m))) →
      (m.canId ≠ session.canId →
        handleResponse s.params session s.frameIn = some ⟨session, .error (.protocol .canIdMismatch)⟩) ∧
      (m.canId = session.canId → ∃ u : FeedbackUpdate,
        exec (.scaleFromWire m.angle session.actuatorRanges.angle) s = .next (s.answered (.f64 u.position)) ∧
        exec (.scaleFromWire m.velocity session.actuatorRanges.velocity) s = .next (s.answered (.f64 u.velocity)) ∧
        exec (.scaleFromWire m.torque session.actuatorRanges.torque) s = .next (s.answered (.f64 u.torque)) ∧
        handleResponse s.params session s.frameIn = some ⟨{ session with status := .ready }, .ok (some u)⟩)) ∧
    (∀ m, exec .dec s = .next (s.answered (.response (.readAllParams m))) →
      handleResponse s.params session s.frameIn = some ⟨{ session with status := .ready }, .ok none⟩)

/-- A decode failure leaves every field of the session as it was. R139. -/
def Obligations.SessionSurvivesDecodeFailure : Prop :=
  ∀ (s : State) (session : Session) (m : BitVec 5), exec .dec s = .next (s.failed (.unknownMux m)) →
    handleResponse s.params session s.frameIn = some ⟨session, .error (.protocol (.unknownMux m))⟩

/-- A parameter value decodes exactly when the span has its type's width, to the little-endian reading of its first
bytes. The value decoder (50_host_context.md section 3, D32), host software beside the block. A Float32 is held as its
bit pattern. -/
def Obligations.ParameterValueWidths : Prop :=
  (∀ bytes : List Byte,
    decodeParamValue bytes .string ≠ none ∧
    (decodeParamValue bytes .uint8 = none ↔ bytes.length < 1) ∧
    (decodeParamValue bytes .uint16 = none ↔ bytes.length < 2) ∧
    (decodeParamValue bytes .int16 = none ↔ bytes.length < 2) ∧
    (decodeParamValue bytes .uint32 = none ↔ bytes.length < 4) ∧
    (decodeParamValue bytes .int32 = none ↔ bytes.length < 4) ∧
    (decodeParamValue bytes .float32 = none ↔ bytes.length < 4)) ∧
  (∀ (b0 : Byte) (more : List Byte), decodeParamValue (b0 :: more) .uint8 = some (.uint8 b0)) ∧
  (∀ (b0 b1 : Byte) (more : List Byte) (n : Nat), n = b0.toNat + 256 * b1.toNat →
    decodeParamValue (b0 :: b1 :: more) .uint16 = some (.uint16 (BitVec.ofNat 16 n)) ∧
    decodeParamValue (b0 :: b1 :: more) .int16 = some (.int16 (if 32768 ≤ n then (n : Int) - 65536 else n))) ∧
  (∀ (b0 b1 b2 b3 : Byte) (more : List Byte) (n : Nat),
    n = b0.toNat + 2 ^ 8 * b1.toNat + 2 ^ 16 * b2.toNat + 2 ^ 24 * b3.toNat →
    decodeParamValue (b0 :: b1 :: b2 :: b3 :: more) .uint32 = some (.uint32 (BitVec.ofNat 32 n)) ∧
    decodeParamValue (b0 :: b1 :: b2 :: b3 :: more) .int32 =
      some (.int32 (if 2 ^ 31 ≤ n then (n : Int) - 2 ^ 32 else n)) ∧
    decodeParamValue (b0 :: b1 :: b2 :: b3 :: more) .float32 = some (.float32 (BitVec.ofNat 32 n))) ∧
  (∀ text more : List Byte, (∀ b ∈ text, b ≠ 0) →
    decodeParamValue (text ++ 0 :: more) .string = decodeParamValue text .string ∧
    ((∀ b ∈ text, b.toNat < 128) → decodeParamValue text .string = some (.string (text.map BitVec.toNat))))
end

