-- ==== Sys2Proof/Laws/Bytes.lean ====
section
/-! SUPPORT. The byte-order primitives undo one another (00_scope.md R11). -/

namespace Sys2Proof

/-- The bytes of a value from byte `k` on, below its bits from byte `k + 1` on. -/
theorem extract_append_byteOf {n w w' : Nat} (v : BitVec n) (k : Nat) (hw : w' = w + 8) :
    (v.extractLsb' (8 * (k + 1)) w ++ byteOf v k).cast hw.symm = v.extractLsb' (8 * k) w' := by
  subst hw
  exact BitVec.extractLsb'_append_extractLsb'_eq_extractLsb' (by omega)

@[simp] theorem le16_byteOf (v : BitVec 16) : le16 (byteOf v 0) (byteOf v 1) = v :=
  (extract_append_byteOf (w := 8) v 0 rfl).trans BitVec.extractLsb'_eq_self

@[simp] theorem be16_byteOf (v : BitVec 16) : be16 (byteOf v 1) (byteOf v 0) = v := le16_byteOf v

@[simp] theorem le32_byteOf (v : BitVec 32) : le32 (byteOf v 0) (byteOf v 1) (byteOf v 2) (byteOf v 3) = v := by
  have h2 : byteOf v 3 ++ byteOf v 2 = v.extractLsb' 16 16 := extract_append_byteOf (w := 8) v 2 rfl
  have h1 : v.extractLsb' 16 16 ++ byteOf v 1 = v.extractLsb' 8 24 := extract_append_byteOf (w := 16) v 1 rfl
  have h0 : v.extractLsb' 8 24 ++ byteOf v 0 = v.extractLsb' 0 32 := extract_append_byteOf (w := 24) v 0 rfl
  unfold le32
  rw [h2, h1, h0]
  exact BitVec.extractLsb'_eq_self

@[simp] theorem le64_byteOf (v : BitVec 64) :
    le64 ⟨byteOf v 0, byteOf v 1, byteOf v 2, byteOf v 3, byteOf v 4, byteOf v 5, byteOf v 6, byteOf v 7⟩ = v := by
  have h6 : byteOf v 7 ++ byteOf v 6 = v.extractLsb' 48 16 := extract_append_byteOf (w := 8) v 6 rfl
  have h5 : v.extractLsb' 48 16 ++ byteOf v 5 = v.extractLsb' 40 24 := extract_append_byteOf (w := 16) v 5 rfl
  have h4 : v.extractLsb' 40 24 ++ byteOf v 4 = v.extractLsb' 32 32 := extract_append_byteOf (w := 24) v 4 rfl
  have h3 : v.extractLsb' 32 32 ++ byteOf v 3 = v.extractLsb' 24 40 := extract_append_byteOf (w := 32) v 3 rfl
  have h2 : v.extractLsb' 24 40 ++ byteOf v 2 = v.extractLsb' 16 48 := extract_append_byteOf (w := 40) v 2 rfl
  have h1 : v.extractLsb' 16 48 ++ byteOf v 1 = v.extractLsb' 8 56 := extract_append_byteOf (w := 48) v 1 rfl
  have h0 : v.extractLsb' 8 56 ++ byteOf v 0 = v.extractLsb' 0 64 := extract_append_byteOf (w := 56) v 0 rfl
  unfold le64
  dsimp only
  rw [h6, h5, h4, h3, h2, h1, h0]
  exact BitVec.extractLsb'_eq_self

/-- The low byte of a value with a byte appended below it. -/
theorem byteOf_append_zero {w : Nat} (hi : BitVec w) (lo : Byte) : byteOf (hi ++ lo) 0 = lo := by
  unfold byteOf
  rw [show 8 * 0 = 0 from rfl, BitVec.extractLsb'_append_eq_of_add_le (by omega)]
  exact BitVec.extractLsb'_eq_self

/-- The other bytes of a value with a byte appended below it. -/
theorem byteOf_append_succ {w : Nat} (hi : BitVec w) (lo : Byte) (k : Nat) : byteOf (hi ++ lo) (k + 1) = byteOf hi k := by
  unfold byteOf
  rw [BitVec.extractLsb'_append_eq_of_le (by omega)]
  congr 1

@[simp] theorem byteOf_zero_byte (b : Byte) : byteOf b 0 = b := BitVec.extractLsb'_eq_self

@[simp] theorem byteOf_le16_zero (b0 b1 : Byte) : byteOf (le16 b0 b1) 0 = b0 := byteOf_append_zero b1 b0

@[simp] theorem byteOf_le16_one (b0 b1 : Byte) : byteOf (le16 b0 b1) 1 = b1 := by
  unfold le16; rw [byteOf_append_succ b1 b0 0, byteOf_zero_byte]

@[simp] theorem byteOf_be16_zero (b0 b1 : Byte) : byteOf (be16 b0 b1) 0 = b1 := byteOf_le16_zero b1 b0

@[simp] theorem byteOf_be16_one (b0 b1 : Byte) : byteOf (be16 b0 b1) 1 = b0 := byteOf_le16_one b1 b0

/-- Every byte of a little-endian 64-bit reading. -/
theorem byteOf_le64 (b : Bytes8) :
    byteOf (le64 b) 0 = b.b0 ∧ byteOf (le64 b) 1 = b.b1 ∧ byteOf (le64 b) 2 = b.b2 ∧ byteOf (le64 b) 3 = b.b3 ∧
    byteOf (le64 b) 4 = b.b4 ∧ byteOf (le64 b) 5 = b.b5 ∧ byteOf (le64 b) 6 = b.b6 ∧ byteOf (le64 b) 7 = b.b7 := by
  unfold le64
  refine ⟨byteOf_append_zero _ _, ?_, ?_, ?_, ?_, ?_, ?_, ?_⟩
  · rw [byteOf_append_succ _ _ 0, byteOf_append_zero]
  · rw [byteOf_append_succ _ _ 1, byteOf_append_succ _ _ 0, byteOf_append_zero]
  · rw [byteOf_append_succ _ _ 2, byteOf_append_succ _ _ 1, byteOf_append_succ _ _ 0, byteOf_append_zero]
  · rw [byteOf_append_succ _ _ 3, byteOf_append_succ _ _ 2, byteOf_append_succ _ _ 1, byteOf_append_succ _ _ 0,
      byteOf_append_zero]
  · rw [byteOf_append_succ _ _ 4, byteOf_append_succ _ _ 3, byteOf_append_succ _ _ 2, byteOf_append_succ _ _ 1,
      byteOf_append_succ _ _ 0, byteOf_append_zero]
  · rw [byteOf_append_succ _ _ 5, byteOf_append_succ _ _ 4, byteOf_append_succ _ _ 3, byteOf_append_succ _ _ 2,
      byteOf_append_succ _ _ 1, byteOf_append_succ _ _ 0, byteOf_append_zero]
  · rw [byteOf_append_succ _ _ 6, byteOf_append_succ _ _ 5, byteOf_append_succ _ _ 4, byteOf_append_succ _ _ 3,
      byteOf_append_succ _ _ 2, byteOf_append_succ _ _ 1, byteOf_append_succ _ _ 0, byteOf_zero_byte]

/-- `le16` as the number R11 gives. -/
theorem le16_toNat (b0 b1 : Byte) : (le16 b0 b1).toNat = b0.toNat + 256 * b1.toNat := by
  unfold le16
  rw [BitVec.toNat_append, ← Nat.shiftLeft_add_eq_or_of_lt b0.isLt, Nat.shiftLeft_eq]
  omega

/-- `be16` as the number R11 gives. -/
theorem be16_toNat (b0 b1 : Byte) : (be16 b0 b1).toNat = 256 * b0.toNat + b1.toNat := by
  have := le16_toNat b1 b0
  unfold be16; unfold le16 at this; omega

/-! ### The bytes of a field, listed -/

@[simp] theorem bytesLe_two {w : Nat} (v : BitVec w) : bytesLe v 2 = [byteOf v 0, byteOf v 1] := rfl

@[simp] theorem bytesBe_two {w : Nat} (v : BitVec w) : bytesBe v 2 = [byteOf v 1, byteOf v 0] := rfl

@[simp] theorem bytesLe_eight {w : Nat} (v : BitVec w) :
    bytesLe v 8 = [byteOf v 0, byteOf v 1, byteOf v 2, byteOf v 3, byteOf v 4, byteOf v 5, byteOf v 6, byteOf v 7] := rfl

end Sys2Proof
end

