-- ==== Sys2Proof/Machine/Collect.lean ====
section
/-! DEFINITION. The parameter dump (50_host_context.md R150, R152, R153), the host's software: `readAllParameters` and
`readOneParameter`. -/

namespace Sys2Proof.Machine

/-- `FRAG_VALID_LEN(m)`, the default: `clamp(m.hdr.len - 2, 0, 6)` (R150). -/
def fragValidLen (m : ReadAllParamsResp) : Nat := min (m.hdr.len.toNat - 2) 6

/-- The fragments of each parameter code: the valid bytes of each one, in arrival order. -/
abbrev Buffers := List (BitVec 16 × List (List Byte))

/-- The byte buffer of each code: its fragments, concatenated in arrival order (R152). -/
def Buffers.bytes (b : Buffers) : List (BitVec 16 × List Byte) := b.map fun entry => (entry.1, entry.2.flatten)

/-- The byte buffer of one code, if a fragment of it has been kept. -/
def Buffers.bytesOf (b : Buffers) (code : BitVec 16) : Option (List Byte) := (tableFind b code).map List.flatten

/-- "Implementers may choose to fail the enclosing operation or skip-and-continue" (60_exceptions.md R161). -/
inductive UnknownMuxChoice where
  | fail | skip
deriving DecidableEq, Repr

/-- What the source leaves to the driver in a collection (log 18). -/
structure CollectPolicy where
  unknownMux : UnknownMuxChoice
  /-- `FRAG_VALID_LEN` (R150) -/
  validLen : ReadAllParamsResp → Nat
  /-- whether a fragment is also passed to the session's `handleResponse`, or the driver correlates it alone (R130, 95_test_vectors.md P1) -/
  feedsSession : Bool
  /-- whether a fragment without a valid byte counts: whether its code is then an accumulated parameter (R153), and it a fragment of it -/
  emptyCounts : Bool
  /-- whether a collection that found nothing ends with the error `Timeout`, or with an empty result (R156) -/
  emptyIsTimeout : Bool

/-- A fragment after those its code already has, in arrival order; the byte marker is not read (R186). Whether one without a valid byte
counts is not stated and the policy's (log 18). -/
def Buffers.append (b : Buffers) (policy : CollectPolicy) (m : ReadAllParamsResp) : Buffers :=
  let valid := m.data.toList.take (policy.validLen m)
  if valid.isEmpty && !policy.emptyCounts then b
  else tablePut b m.paramCode ((tableFind b m.paramCode).getD [] ++ [valid])

/-- One received frame: what it leaves in the buffers, an error, or nothing said: for a decodable frame of another shape the source gives
no effect (R152, 91 N33; log 18). -/
def collectFragment (p : Params) (policy : CollectPolicy) (b : Buffers) (f : Frame) : Option (Except HostError Buffers) :=
  match decodeFrame p f with
  | .ok (.readAllParams m) => some (.ok (b.append policy m))
  | .ok (.obtainId _) => none
  | .ok (.feedback _) => none
  | .ok (.paramRead _) => none
  | .error (.unknownMux m) =>
    match policy.unknownMux with
    | .fail => some (.error (.protocol (.unknownMux m)))
    | .skip => some (.ok b)
  | .error e => some (.error (.outcome e))

/-- The driver after a frame of the collection: whether the session sees it is the policy's. -/
def Driver.passFragment (p : Params) (policy : CollectPolicy) (d : Driver) (id : Byte) (f : Frame) : Driver :=
  if policy.feedsSession then
    match d.handle p id f with
    | .ended d' _ => d'
    | .unstated => d
  else d

/-- The collection loop, with room for a number of polls before its deadline. It ends when the deadline elapses, when `enough` holds after
a fragment, and, for the full dump, when "at least one parameter has already been accumulated and a single poll iteration times out"
(R153; whether an empty fragment makes one is the policy's, log 18). An I/O failure is surfaced (60_exceptions.md R175). -/
def Driver.collect (p : Params) (policy : CollectPolicy) (fullDump : Bool) (enough : Buffers → Bool) (id : Byte) :
    Nat → Driver → Buffers → DriverResult Buffers
  | 0, d, b => .ended d (.ok b)
  | polls + 1, d, b =>
    match d.receive with
    | (d', .broken) => .ended d' (.error .transport)
    | (d', .silent) =>
      if fullDump && !b.isEmpty then .ended d' (.ok b) else Driver.collect p policy fullDump enough id polls d' b
    | (d', .frame f) =>
      match collectFragment p policy b f with
      | none => .unstated
      | some (.error e) => .ended d' (.error e)
      | some (.ok b') =>
        if enough b' then .ended (d'.passFragment p policy id f) (.ok b')
        else Driver.collect p policy fullDump enough id polls (d'.passFragment p policy id f) b'

/-- An answer, or what the policy makes of there being none (R156). -/
def CollectPolicy.conclude {α : Type} (policy : CollectPolicy) (d : Driver) (nothing : Bool) (a : α) : DriverResult α :=
  if nothing && policy.emptyIsTimeout then .ended d (.error .timeout) else .ended d (.ok a)

/-- `readAllParameters(id)`: `MissingIdentity` without a UID, before any I/O; one request; the accumulated bytes of every code seen. -/
def Driver.readAllParameters (p : Params) (policy : CollectPolicy) (polls : Nat) (d : Driver) (id : Byte) :
    DriverResult (List (BitVec 16 × List Byte)) :=
  (d.request p id .readAllParams).andThen fun d _ =>
    (Driver.collect p policy true (fun _ => false) id polls d []).andThen fun d b => policy.conclude d b.isEmpty b.bytes

/-- Whether `readOneParameter` returns on the fragments of its code: never on the first ("the variant cannot stop at the first", R153,
90_conflicts.md C9). When it does from the second on is not stated (91 N18): `complete`, on the fragments, is an argument (log 18). -/
def mayReturn (complete : List (List Byte) → Bool) (fragments : List (List Byte)) : Bool :=
  decide (2 ≤ fragments.length) && complete fragments

/-- `readOneParameter(id, code)`: the accumulated bytes of one code, or none if no fragment of it came. -/
def Driver.readOneParameter (p : Params) (policy : CollectPolicy) (complete : List (List Byte) → Bool) (polls : Nat) (d : Driver)
    (id : Byte) (code : BitVec 16) : DriverResult (Option (List Byte)) :=
  (d.request p id .readAllParams).andThen fun d _ =>
    (Driver.collect p policy false (fun b => (tableFind b code).any (mayReturn complete)) id polls d []).andThen fun d b =>
      policy.conclude d (b.bytesOf code).isNone (b.bytesOf code)

end Sys2Proof.Machine
end

