-- ==== Sys2Proof/Machine/Discovery.lean ====
section
/-! DEFINITION. Discovery (50_host_context.md R149), the host's software: `pingOne` and `scan`, "sequential, not parallel". -/

namespace Sys2Proof.Machine

/-- What one ObtainId probe comes to: the actuator's own response with its UID, another response or none, or an I/O failure. -/
inductive Probe where
  | matched (uid : BitVec 64)
  | unmatched
  | sendFailed
  | receiveFailed
deriving DecidableEq, Repr

/-- The UID in a frame that is the ObtainId response of this actuator. A frame that does not decode counts as a non-matching response
(R149), and no `ProtocolError` is surfaced in discovery (60_exceptions.md R175 does not say): DESIGN CHOICE, log 26. -/
def obtainedUid (p : Params) (id : Byte) (f : Frame) : Option (BitVec 64) :=
  match decodeFrame p f with
  | .ok (.obtainId m) => if m.canId = id then some m.mcuUid else none
  | .ok (.feedback _) => none
  | .ok (.paramRead _) => none
  | .ok (.readAllParams _) => none
  | .error _ => none

/-- Sends an ObtainId request and awaits the matching response. -/
def Driver.probe (p : Params) (d : Driver) (id : Byte) : Driver × Probe :=
  match d.send (requestFrame p (.obtainId { canId := id })) with
  | (d', .failed) => (d', .sendFailed)
  | (d', .accepted) =>
    match d'.receive with
    | (d'', .silent) => (d'', .unmatched)
    | (d'', .broken) => (d'', .receiveFailed)
    | (d'', .frame f) =>
      match obtainedUid p id f with
      | none => (d'', .unmatched)
      | some uid => (d'', .matched uid)

/-- One ping: a transient session with the ranges of a type stages ObtainId, and is registered if the response matches. -/
def Driver.ping (p : Params) (d : Driver) (id : Byte) (ranges : RangeSet) : Driver × Probe :=
  match d.probe p id with
  | (d', .matched uid) =>
    (d'.put id (((newSession id ranges).staged (.obtainId { canId := id })).identified uid), .matched uid)
  | other => other

/-- `pingOne(id, type) -> bool`: "non-matching or absent response → false". A failed receive is surfaced as `TransportError`
(60_exceptions.md R175); a failed send of this best-effort probe is false (DEDUCED, log 26). -/
def Driver.pingOne (p : Params) (d : Driver) (table : ActuatorRanges) (id : Byte) (t : ActuatorType) :
    Driver × Except HostError Bool :=
  match d.ping p id (table.val.of t) with
  | (d', .matched _) => (d', .ok true)
  | (d', .unmatched) => (d', .ok false)
  | (d', .sendFailed) => (d', .ok false)
  | (d', .receiveFailed) => (d', .error .transport)

/-- Pings as one type after the other until a ping matches; an I/O failure ends it. -/
def Driver.pingInTurn (p : Params) (table : ActuatorRanges) (id : Byte) : List ActuatorType → Driver → Driver × Probe
  | [], d => (d, .unmatched)
  | t :: rest, d =>
    match d.ping p id (table.val.of t) with
    | (d', .unmatched) => Driver.pingInTurn p table id rest d'
    | other => other

/-- The five actuator types, as a set: the order of this list means nothing (91 N6). -/
def actuatorTypes : List ActuatorType := [.robstride00, .robstride01, .robstride02, .robstride03, .robstride04]

/-- The order in which discovery probes the five types. It is not stated ("do not assume ... any order among the five beyond "probing
in turn"", 91 N6), and the first match decides which ranges are bound, so it is an argument of `scan` (log 26). -/
abbrev ProbeOrder := { order : List ActuatorType // order.Perm actuatorTypes }

/-- One candidate: a probe, and on success the registration. -/
def Driver.candidate (p : Params) (table : ActuatorRanges) (order : ProbeOrder) (d : Driver) (id : Byte) :
    Driver × Probe :=
  match d.probe p id with
  | (d', .matched _) => Driver.pingInTurn p table id order.val d'
  | other => other

/-- The candidates one after the other. One that does not answer, that no type matches, or whose send fails is skipped (R149,
60_exceptions.md R175); a failed receive ends the scan with `TransportError` (R175; log 26). -/
def Driver.scanCandidates (p : Params) (table : ActuatorRanges) (order : ProbeOrder) :
    List Byte → Driver → Driver × Except HostError (List Byte)
  | [], d => (d, .ok [])
  | id :: rest, d =>
    match Driver.candidate p table order d id with
    | (d', .unmatched) => Driver.scanCandidates p table order rest d'
    | (d', .sendFailed) => Driver.scanCandidates p table order rest d'
    | (d', .receiveFailed) => (d', .error .transport)
    | (d', .matched _) =>
      match Driver.scanCandidates p table order rest d' with
      | (d'', .error e) => (d'', .error e)
      | (d'', .ok found) => (d'', .ok (id :: found))

/-- The identifiers of an inclusive range, in rising order. -/
def idRange (lo hi : Byte) : List Byte := (List.range' lo.toNat (hi.toNat + 1 - lo.toNat)).map (BitVec.ofNat 8)

/-- `scan(idRange) -> [identifiers]`. -/
def Driver.scan (p : Params) (table : ActuatorRanges) (order : ProbeOrder) (d : Driver) (lo hi : Byte) :
    Driver × Except HostError (List Byte) :=
  Driver.scanCandidates p table order (idRange lo hi) d

end Sys2Proof.Machine
end

