-- ==== Sys2Proof/Laws/Driver.lean ====
section
/-! SUPPORT. The laws of the host's driver: the tables by number, the registry, and what discovery and commands can leave. -/

namespace Sys2Proof.Machine

/-! ### Tables by number -/

section Tables

variable {w : Nat} {α : Type} (t : List (BitVec w × α)) (k j : BitVec w) (a : α)

/-- Numbers strictly rising: the form a table is kept in. -/
def TableSorted (t : List (BitVec w × α)) : Prop := t.Pairwise fun x y => x.1 < y.1

theorem tableErase_sorted (h : TableSorted t) : TableSorted (tableErase t k) := List.Pairwise.filter _ h

theorem tableInsert_mem (x : BitVec w × α) : x ∈ tableInsert k a t ↔ x = (k, a) ∨ x ∈ t := by
  induction t with
  | nil => simp [tableInsert]
  | cons entry rest ih =>
    unfold tableInsert
    split
    · simp
    · simp only [List.mem_cons, ih]; tauto

theorem tableInsert_sorted (h : TableSorted t) (hk : ∀ x ∈ t, x.1 ≠ k) : TableSorted (tableInsert k a t) := by
  unfold TableSorted at h ⊢
  induction t with
  | nil => simp [tableInsert]
  | cons entry rest ih =>
    unfold tableInsert
    have hhead := List.pairwise_cons.1 h
    split
    next hlt =>
      refine List.pairwise_cons.2 ⟨fun y hy => ?_, h⟩
      rcases List.mem_cons.1 hy with rfl | hy
      · exact hlt
      · exact BitVec.lt_trans hlt (hhead.1 y hy)
    next hge =>
      refine List.pairwise_cons.2 ⟨fun y hy => ?_, ih hhead.2 fun x hx => hk x (List.mem_cons_of_mem _ hx)⟩
      rcases (tableInsert_mem rest k a y).1 hy with rfl | hy
      · have := hk entry (List.mem_cons_self ..)
        bv_omega
      · exact hhead.1 y hy

/-- A write keeps the form. -/
theorem tablePut_sorted (h : TableSorted t) : TableSorted (tablePut t k a) :=
  tableInsert_sorted _ k a (tableErase_sorted t k h) fun x hx => by
    simpa using (List.mem_filter.1 hx).2

theorem tableFind_insert (hk : ∀ x ∈ t, x.1 ≠ k) :
    tableFind (tableInsert k a t) j = if j = k then some a else tableFind t j := by
  unfold tableFind
  induction t with
  | nil =>
    by_cases h : j = k
    · simp [tableInsert, h]
    · simp [tableInsert, h, Ne.symm h]
  | cons entry rest ih =>
    have hentry := hk entry (List.mem_cons_self ..)
    have ih := ih fun x hx => hk x (List.mem_cons_of_mem _ hx)
    unfold tableInsert
    split
    · by_cases h : j = k
      · simp [h]
      · simp [h, Ne.symm h]
    · by_cases he : entry.1 = j
      · have hne : j ≠ k := he ▸ hentry
        simp [he, hne]
      · simpa [List.find?_cons, he] using ih

theorem tableFind_erase : tableFind (tableErase t k) j = if j = k then none else tableFind t j := by
  unfold tableFind tableErase
  induction t with
  | nil => simp
  | cons entry rest ih =>
    by_cases he : entry.1 = k
    · by_cases hj : j = k
      · simp [hj]
      · simpa [List.filter_cons, he, hj, Ne.symm hj] using ih
    · by_cases hj : entry.1 = j
      · have hne : j ≠ k := hj ▸ he
        simp [hj, hne]
      · simpa [List.filter_cons, he, hj] using ih

/-- Read after write: the number written, and every other. -/
theorem tableFind_put : tableFind (tablePut t k a) j = if j = k then some a else tableFind t j := by
  rw [tablePut, tableFind_insert _ k j a fun x hx => by simpa using (List.mem_filter.1 hx).2, tableFind_erase]
  split <;> simp_all

end Tables

/-! ### The registry (R131) -/

@[simp] theorem Driver.find_put (d : Driver) (id j : Byte) (s : Session) :
    (d.put id s).find j = if j = id then some s else d.find j := tableFind_put _ _ _ _

@[simp] theorem Driver.find_remove (d : Driver) (id j : Byte) :
    (d.remove id).find j = if j = id then none else d.find j := tableFind_erase _ _ _

@[simp] theorem Driver.transport_put (d : Driver) (id : Byte) (s : Session) : (d.put id s).transport = d.transport := rfl
@[simp] theorem Driver.transport_remove (d : Driver) (id : Byte) : (d.remove id).transport = d.transport := rfl
@[simp] theorem Driver.sessions_send (d : Driver) (f : Frame) : (d.send f).1.sessions = d.sessions := rfl
@[simp] theorem Driver.sessions_receive (d : Driver) : d.receive.1.sessions = d.sessions := rfl
@[simp] theorem Driver.find_send (d : Driver) (f : Frame) (id : Byte) : (d.send f).1.find id = d.find id := rfl
@[simp] theorem Driver.find_receive (d : Driver) (id : Byte) : d.receive.1.find id = d.find id := rfl

/-! ### Discovery (R149) -/

/-- A probe leaves the registry as it was. -/
theorem Driver.sessions_probe (p : Params) (d : Driver) (id : Byte) : (d.probe p id).1.sessions = d.sessions := by
  unfold Driver.probe
  generalize hs : d.send _ = s
  obtain ⟨d', o⟩ := s
  have h1 : d'.sessions = d.sessions := by rw [← Driver.sessions_send d, hs]
  cases o
  · dsimp only
    generalize hr : d'.receive = r
    obtain ⟨d'', r⟩ := r
    have h2 : d''.sessions = d.sessions := by rw [← h1, ← Driver.sessions_receive d', hr]
    cases r
    · dsimp only; split <;> exact h2
    · exact h2
    · exact h2
  · exact h1

/-- All that a ping can do: register the session of the type with the UID of the response, or leave the registry as it was. -/
theorem Driver.ping_cases (p : Params) (d : Driver) (id : Byte) (ranges : RangeSet) :
    (∃ uid, (d.ping p id ranges).2 = .matched uid ∧ (d.ping p id ranges).1.find id =
      some (((newSession id ranges).staged (.obtainId { canId := id })).identified uid)) ∨
    ((∀ uid, (d.ping p id ranges).2 ≠ .matched uid) ∧ (d.ping p id ranges).1.sessions = d.sessions) := by
  have h := Driver.sessions_probe p d id
  unfold Driver.ping
  generalize d.probe p id = r at h
  obtain ⟨d', o⟩ := r
  cases o with
  | matched uid => exact .inl ⟨uid, rfl, by simp⟩
  | unmatched => exact .inr ⟨nofun, h⟩
  | sendFailed => exact .inr ⟨nofun, h⟩
  | receiveFailed => exact .inr ⟨nofun, h⟩

/-- `pingOne` that does not answer true changes no session. -/
theorem Driver.pingOne_false (p : Params) (d : Driver) (table : ActuatorRanges) (id : Byte) (t : ActuatorType)
    (h : (d.pingOne p table id t).2 ≠ .ok true) : (d.pingOne p table id t).1.sessions = d.sessions := by
  have hc := Driver.ping_cases p d id (table.val.of t)
  unfold Driver.pingOne at h ⊢
  generalize d.ping p id (table.val.of t) = r at h hc
  obtain ⟨d', o⟩ := r
  cases o with
  | matched uid => exact absurd rfl h
  | unmatched => exact (hc.resolve_left fun ⟨_, hm, _⟩ => nomatch hm).2
  | sendFailed => exact (hc.resolve_left fun ⟨_, hm, _⟩ => nomatch hm).2
  | receiveFailed => exact (hc.resolve_left fun ⟨_, hm, _⟩ => nomatch hm).2

/-! ### Commands (R151) -/

@[simp] theorem DriverResult.andThen_error {α β : Type} (d : Driver) (e : HostError) (next : Driver → α → DriverResult β) :
    (DriverResult.ended d (.error e)).andThen next = .ended d (.error e) := rfl

@[simp] theorem DriverResult.andThen_ok {α β : Type} (d : Driver) (a : α) (next : Driver → α → DriverResult β) :
    (DriverResult.ended d (.ok a)).andThen next = next d a := rfl

/-- An absent session ends every request before any I/O (60_exceptions.md R175). -/
theorem Driver.request_absent (p : Params) (d : Driver) (id : Byte) (params : RequestParams) (h : d.find id = none) :
    d.request p id params = .ended d (.error .actuatorNotFound) := by
  unfold Driver.request Driver.stage
  rw [h]
  rfl

/-- A parameter dump without a UID ends before any I/O (R152). -/
theorem Driver.request_without_uid (p : Params) (d : Driver) (id : Byte) (s : Session) (h : d.find id = some s)
    (hu : s.mcuUid = none) : d.request p id .readAllParams = .ended d (.error .missingIdentity) := by
  unfold Driver.request Driver.stage stageRequest buildRequest
  rw [h]
  simp [hu]

/-! ### The parameter dump (R152, R153) -/

/-- A single parameter is not returned before a second fragment of its code, whatever `complete` is. -/
theorem two_le_of_mayReturn {complete : List (List Byte) → Bool} {fragments : List (List Byte)}
    (h : mayReturn complete fragments = true) : 2 ≤ fragments.length := by
  unfold mayReturn at h
  simp only [Bool.and_eq_true, decide_eq_true_eq] at h
  exact h.1

/-- All that a fragment can do to the buffers: add its valid bytes after its code's, or nothing where it has none and none counts. -/
theorem Buffers.append_cases (b : Buffers) (policy : CollectPolicy) (m : ReadAllParamsResp) :
    (b.append policy m = tablePut b m.paramCode
      ((tableFind b m.paramCode).getD [] ++ [m.data.toList.take (policy.validLen m)])) ∨
    (b.append policy m = b ∧ m.data.toList.take (policy.validLen m) = [] ∧ policy.emptyCounts = false) := by
  unfold Buffers.append
  dsimp only
  split
  next h => exact .inr ⟨rfl, by simpa using h⟩
  next => exact .inl rfl

end Sys2Proof.Machine
end

