-- ==== Sys2Proof/Laws/Memory.lean ====
section
/-! SUPPORT. The laws of the frame memory: read after write, the canonical form is kept, and canonical memories that read
alike are equal. -/

namespace Sys2Proof.Machine

@[simp] theorem Memory.read_nil (a : Nat) : Memory.read [] a = 0 := rfl

theorem Memory.read_cons (k : Nat) (b : Byte) (m : Memory) (a : Nat) :
    Memory.read ((k, b) :: m) a = if k = a then b else Memory.read m a := rfl

theorem Memory.read_filter_ne (m : Memory) (a x : Nat) :
    Memory.read (List.filter (fun cell => cell.1 != a) m) x = if a = x then 0 else Memory.read m x := by
  induction m with
  | nil => simp
  | cons cell m ih =>
    obtain ⟨k, b⟩ := cell
    by_cases hk : k = a
    · subst hk
      simp only [List.filter_cons, bne_self_eq_false, Bool.false_eq_true, if_false, ih, Memory.read_cons]
      split <;> rfl
    · have : (k != a) = true := by simpa using hk
      simp only [List.filter_cons, this, if_true, Memory.read_cons, ih]
      split
      · next h => subst h; rw [if_neg (fun h => hk h.symm)]
      · rfl

theorem Memory.read_insertCell (m : Memory) (a x : Nat) (b : Byte) (hm : ∀ cell ∈ m, cell.1 ≠ a) :
    Memory.read (Memory.insertCell a b m) x = if a = x then b else Memory.read m x := by
  induction m with
  | nil => rfl
  | cons cell m ih =>
    obtain ⟨k, c⟩ := cell
    have hk : k ≠ a := hm (k, c) (by simp)
    have ih := ih fun cell hcell => hm cell (by simp [hcell])
    unfold Memory.insertCell
    split
    · rfl
    · simp only [Memory.read_cons, ih]
      split
      · next h => subst h; rw [if_neg (fun h => hk h.symm)]
      · rfl

/-- Read after write, for any memory and any two addresses. -/
theorem Memory.read_put (m : Memory) (a x : Nat) (b : Byte) :
    Memory.read (Memory.put m a b) x = if a = x then b else Memory.read m x := by
  unfold Memory.put
  dsimp only
  split
  · next h => rw [Memory.read_filter_ne, h]; rfl
  · rw [Memory.read_insertCell _ a x b (by simp), Memory.read_filter_ne]
    split <;> rfl

/-- One byte written: it reads back, and every other address reads as before. -/
theorem Memory.read_write (m : Memory) (a x : Nat) (b : Byte) :
    Memory.read (Memory.write m a b) x = if a < 16 ∧ a = x then b else Memory.read m x := by
  unfold Memory.write frameBytes
  split
  · next h => rw [Memory.read_put]; simp [h]
  · next h => simp [h]

@[simp] theorem Memory.read_write_self (m : Memory) (a : Nat) (b : Byte) (h : a < 16) :
    Memory.read (Memory.write m a b) a = b := by simp [Memory.read_write, h]

@[simp] theorem Memory.read_write_ne (m : Memory) (a x : Nat) (b : Byte) (h : a ≠ x) :
    Memory.read (Memory.write m a b) x = Memory.read m x := by simp [Memory.read_write, h]

/-! ### The canonical form -/

theorem Memory.wfFrom_cons (lo k : Nat) (b : Byte) (m : Memory) :
    Memory.wfFrom lo ((k, b) :: m) = true ↔ lo ≤ k ∧ k < 16 ∧ b ≠ 0 ∧ Memory.wfFrom (k + 1) m = true := by
  simp only [Memory.wfFrom, Bool.and_eq_true, decide_eq_true_eq, bne_iff_ne, ne_eq, and_assoc]
  exact Iff.rfl

theorem Memory.wfFrom_mono {lo lo' : Nat} {m : Memory} (h : Memory.wfFrom lo m = true) (hle : lo' ≤ lo) :
    Memory.wfFrom lo' m = true := by
  cases m with
  | nil => rfl
  | cons cell m =>
    obtain ⟨k, b⟩ := cell
    rw [Memory.wfFrom_cons] at h ⊢
    exact ⟨by omega, h.2⟩

theorem Memory.wfFrom_filter {lo : Nat} {m : Memory} (h : Memory.wfFrom lo m = true) (p : Host.Cell → Bool) :
    Memory.wfFrom lo (List.filter p m) = true := by
  induction m generalizing lo with
  | nil => rfl
  | cons cell m ih =>
    obtain ⟨k, b⟩ := cell
    rw [Memory.wfFrom_cons] at h
    rw [List.filter_cons]
    split
    · exact (Memory.wfFrom_cons ..).2 ⟨h.1, h.2.1, h.2.2.1, ih h.2.2.2⟩
    · exact Memory.wfFrom_mono (ih h.2.2.2) (by omega)

theorem Memory.wfFrom_insertCell {lo : Nat} {m : Memory} (h : Memory.wfFrom lo m = true) {a : Nat} {b : Byte}
    (hlo : lo ≤ a) (ha : a < 16) (hb : b ≠ 0) (hm : ∀ cell ∈ m, cell.1 ≠ a) :
    Memory.wfFrom lo (Memory.insertCell a b m) = true := by
  induction m generalizing lo with
  | nil => exact (Memory.wfFrom_cons ..).2 ⟨hlo, ha, hb, rfl⟩
  | cons cell m ih =>
    obtain ⟨k, c⟩ := cell
    have hk : k ≠ a := hm (k, c) (by simp)
    rw [Memory.wfFrom_cons] at h
    unfold Memory.insertCell
    split
    · next hlt =>
      exact (Memory.wfFrom_cons ..).2 ⟨hlo, ha, hb, (Memory.wfFrom_cons ..).2 ⟨by omega, h.2⟩⟩
    · next hlt =>
      exact (Memory.wfFrom_cons ..).2 ⟨h.1, h.2.1, h.2.2.1,
        ih h.2.2.2 (by omega) fun cell hcell => hm cell (by simp [hcell])⟩

theorem Memory.wf_put {m : Memory} (h : Memory.wf m = true) (a : Nat) (b : Byte) (ha : a < 16) :
    Memory.wf (Memory.put m a b) = true := by
  unfold Memory.put
  dsimp only
  split
  · exact Memory.wfFrom_filter h _
  · next hb => exact Memory.wfFrom_insertCell (Memory.wfFrom_filter h _) (Nat.zero_le _) ha hb (by simp)

/-- A write keeps the canonical form. -/
theorem Memory.wf_write {m : Memory} (h : Memory.wf m = true) (a : Nat) (b : Byte) :
    Memory.wf (Memory.write m a b) = true := by
  unfold Memory.write frameBytes
  split
  · next ha => exact Memory.wf_put h a b ha
  · exact h

theorem frameWrite_wf {f : Frame} (h : Memory.wf f = true) (off : Nat) (bs : List Byte) :
    Memory.wf (frameWrite f off bs) = true := by
  induction bs generalizing f off with
  | nil => exact h
  | cons b bs ih => exact ih (Memory.wf_write h off b) (off + 1)

theorem Frame.zero_wf : Memory.wf Frame.zero = true := rfl

theorem frameOfBytes_wf (bs : List Byte) : Memory.wf (frameOfBytes bs) = true := frameWrite_wf Frame.zero_wf 0 bs

theorem setEff_wf {f : Frame} (h : Memory.wf f = true) : Memory.wf (setEff f) = true := Memory.wf_write h _ _

theorem clearEff_wf {f : Frame} (h : Memory.wf f = true) : Memory.wf (clearEff f) = true := Memory.wf_write h _ _

/-- Below its first address a canonical memory reads as unlisted. -/
theorem Memory.read_lt_of_wfFrom {lo : Nat} {m : Memory} (h : Memory.wfFrom lo m = true) {a : Nat} (ha : a < lo) :
    Memory.read m a = 0 := by
  induction m generalizing lo with
  | nil => rfl
  | cons cell m ih =>
    obtain ⟨k, b⟩ := cell
    rw [Memory.wfFrom_cons] at h
    rw [Memory.read_cons, if_neg (by omega)]
    exact ih h.2.2.2 (by omega)

/-- Above the last byte position a canonical memory reads as unlisted. -/
theorem Memory.read_ge_of_wfFrom {lo : Nat} {m : Memory} (h : Memory.wfFrom lo m = true) {a : Nat} (ha : 16 ≤ a) :
    Memory.read m a = 0 := by
  induction m generalizing lo with
  | nil => rfl
  | cons cell m ih =>
    obtain ⟨k, b⟩ := cell
    rw [Memory.wfFrom_cons] at h
    rw [Memory.read_cons, if_neg (by omega)]
    exact ih h.2.2.2

theorem Memory.eq_of_wfFrom {lo : Nat} {m m' : Memory} (h : Memory.wfFrom lo m = true) (h' : Memory.wfFrom lo m' = true)
    (heq : ∀ a, Memory.read m a = Memory.read m' a) : m = m' := by
  induction m generalizing lo m' with
  | nil =>
    cases m' with
    | nil => rfl
    | cons cell m' =>
      obtain ⟨k, b⟩ := cell
      rw [Memory.wfFrom_cons] at h'
      have := heq k
      rw [Memory.read_nil, Memory.read_cons, if_pos rfl] at this
      exact absurd this.symm h'.2.2.1
  | cons cell m ih =>
    obtain ⟨k, b⟩ := cell
    rw [Memory.wfFrom_cons] at h
    cases m' with
    | nil =>
      have := heq k
      rw [Memory.read_nil, Memory.read_cons, if_pos rfl] at this
      exact absurd this h.2.2.1
    | cons cell' m' =>
      obtain ⟨k', b'⟩ := cell'
      rw [Memory.wfFrom_cons] at h'
      have hk : k = k' := by
        rcases Nat.lt_trichotomy k k' with hlt | heq' | hgt
        · have := heq k
          rw [Memory.read_cons, if_pos rfl, Memory.read_cons, if_neg (by omega),
            Memory.read_lt_of_wfFrom h'.2.2.2 (by omega)] at this
          exact absurd this h.2.2.1
        · exact heq'
        · have := heq k'
          rw [Memory.read_cons (a := k'), if_neg (by omega), Memory.read_lt_of_wfFrom h.2.2.2 (by omega),
            Memory.read_cons, if_pos rfl] at this
          exact absurd this.symm h'.2.2.1
      subst hk
      have hb : b = b' := by have := heq k; simpa [Memory.read_cons] using this
      subst hb
      have : m = m' := ih h.2.2.2 h'.2.2.2 fun a => by
        by_cases ha : a < k + 1
        · rw [Memory.read_lt_of_wfFrom h.2.2.2 ha, Memory.read_lt_of_wfFrom h'.2.2.2 ha]
        · have := heq a
          rwa [Memory.read_cons, if_neg (by omega), Memory.read_cons, if_neg (by omega)] at this
      rw [this]

/-- Canonical memories with the same sixteen bytes are equal. -/
theorem Memory.ext_of_wf {m m' : Memory} (h : Memory.wf m = true) (h' : Memory.wf m' = true)
    (heq : ∀ a, a < 16 → Memory.read m a = Memory.read m' a) : m = m' :=
  Memory.eq_of_wfFrom h h' fun a => by
    by_cases ha : a < 16
    · exact heq a ha
    · rw [Memory.read_ge_of_wfFrom h (by omega), Memory.read_ge_of_wfFrom h' (by omega)]

/-! ### Runs of bytes -/

@[simp] theorem frameWrite_nil (f : Frame) (off : Nat) : frameWrite f off [] = f := rfl

@[simp] theorem frameWrite_cons (f : Frame) (off : Nat) (b : Byte) (bs : List Byte) :
    frameWrite f off (b :: bs) = frameWrite (Memory.write f off b) (off + 1) bs := rfl

/-- What `FrameWrite` can do: the written run reads as its bytes, every other address as before. -/
theorem read_frameWrite (f : Frame) (off : Nat) (bs : List Byte) (h : off + bs.length ≤ 16) (x : Nat) :
    Memory.read (frameWrite f off bs) x =
      if off ≤ x ∧ x < off + bs.length then bs.getD (x - off) 0 else Memory.read f x := by
  induction bs generalizing f off with
  | nil => simp only [List.length_nil, frameWrite_nil]; rw [if_neg (by omega)]
  | cons b bs ih =>
    simp only [List.length_cons] at h ⊢
    rw [frameWrite_cons, ih _ _ (by omega), Memory.read_write]
    by_cases hx : x = off
    · subst hx
      rw [if_neg (by omega), if_pos (by omega), if_pos (by omega)]
      simp
    · by_cases hin : off + 1 ≤ x ∧ x < off + 1 + bs.length
      · rw [if_pos hin, if_pos (by omega)]
        obtain ⟨k, rfl⟩ : ∃ k, x = off + 1 + k := ⟨x - (off + 1), by omega⟩
        have h1 : off + 1 + k - off = k + 1 := by omega
        have h2 : off + 1 + k - (off + 1) = k := by omega
        rw [h1, h2]; simp
      · rw [if_neg hin, if_neg (by omega), if_neg (by omega)]

/-- What the flag operations read as. -/
theorem read_setEff (f : Frame) (x : Nat) :
    Memory.read (setEff f) x = if x = 3 then Memory.read f 3 ||| 0x80 else Memory.read f x := by
  unfold setEff
  by_cases hx : x = 3
  · subst hx; simp
  · rw [Memory.read_write_ne _ _ _ _ (Ne.symm hx), if_neg hx]

theorem read_clearEff (f : Frame) (x : Nat) :
    Memory.read (clearEff f) x = if x = 3 then Memory.read f 3 &&& 0x7F else Memory.read f x := by
  unfold clearEff
  by_cases hx : x = 3
  · subst hx; simp
  · rw [Memory.read_write_ne _ _ _ _ (Ne.symm hx), if_neg hx]

end Sys2Proof.Machine
end

