-- ==== Sys2Proof/Laws/Operands.lean ====
section
/-! SUPPORT. What the shared steps of the codec can do: the sixteen bytes of a built frame, the mux before and after the
flag operations, the answers of `decodeFrame` and `scaleCommand`. -/

namespace Sys2Proof.Machine

/-! ### Built frames -/

/-- The sixteen bytes `buildFrame` leaves, the payload filled up with zeros. -/
def builtBytes (dst : Byte) (data16 : BitVec 16) (mux : BitVec 5) (hdr : Hdr) (payload : List Byte) : List Byte :=
  [dst, byteOf data16 0, byteOf data16 1, ((hdr.res2.setWidth 8 <<< 5) ||| mux.setWidth 8) ||| 0x80,
   hdr.len, hdr.pad, hdr.res0, hdr.len8] ++ payload

theorem buildFrame_wf (dst : Byte) (data16 : BitVec 16) (mux : BitVec 5) (hdr : Hdr) (payload : List Byte) :
    Memory.wf (buildFrame dst data16 mux hdr payload) = true :=
  setEff_wf (frameWrite_wf (frameWrite_wf Frame.zero_wf _ _) _ _)

theorem read_frameOfBytes (bs : List Byte) (h : bs.length ≤ 16) (x : Nat) :
    Memory.read (frameOfBytes bs) x = bs.getD x 0 := by
  unfold frameOfBytes
  rw [read_frameWrite _ _ _ (by omega)]
  split
  · rfl
  · next hx => rw [List.getD_eq_default _ _ (by omega)]; rfl

/-- Every byte of header and payload, before the flag is set. -/
theorem read_packHdr_payload (dst : Byte) (data16 : BitVec 16) (mux : BitVec 5) (hdr : Hdr) (payload : List Byte)
    (h : payload.length ≤ 8) (x : Nat) :
    Memory.read (frameWrite (packHdr Frame.zero dst data16 mux hdr) 8 payload) x =
      ([dst, byteOf data16 0, byteOf data16 1, (hdr.res2.setWidth 8 <<< 5) ||| mux.setWidth 8,
        hdr.len, hdr.pad, hdr.res0, hdr.len8] ++ payload).getD x 0 := by
  unfold packHdr
  rw [read_frameWrite _ _ _ (by omega), read_frameWrite _ _ _ (by simp)]
  simp only [List.length_cons, List.length_nil]
  by_cases hx : x < 8
  · rw [if_neg (by omega), if_pos (by omega), Nat.sub_zero, List.getD_append _ _ _ _ (by simpa using hx)]
  · rw [List.getD_append_right _ _ _ _ (by simp only [List.length_cons, List.length_nil]; omega)]
    simp only [List.length_cons, List.length_nil]
    split
    · rfl
    · next hlen => rw [if_neg (by omega), List.getD_eq_default _ _ (by omega)]; rfl

/-- Every byte of a built frame. -/
theorem read_buildFrame (dst : Byte) (data16 : BitVec 16) (mux : BitVec 5) (hdr : Hdr) (payload : List Byte)
    (h : payload.length ≤ 8) (x : Nat) :
    Memory.read (buildFrame dst data16 mux hdr payload) x = (builtBytes dst data16 mux hdr payload).getD x 0 := by
  unfold buildFrame builtBytes
  rw [read_setEff, read_packHdr_payload _ _ _ _ _ h, read_packHdr_payload _ _ _ _ _ h]
  rcases x with _ | _ | _ | _ | x <;> rfl

/-- A built frame is the frame of its bytes. -/
theorem buildFrame_eq_frameOfBytes (dst : Byte) (data16 : BitVec 16) (mux : BitVec 5) (hdr : Hdr) (payload : List Byte)
    (h : payload.length ≤ 8) :
    buildFrame dst data16 mux hdr payload = frameOfBytes (builtBytes dst data16 mux hdr payload) :=
  Memory.ext_of_wf (buildFrame_wf ..) (frameOfBytes_wf _) fun x _ => by
    rw [read_buildFrame _ _ _ _ _ h, read_frameOfBytes _ (by simp only [builtBytes, List.length_append, List.length_cons, List.length_nil]; omega)]

/-! ### The mux and the flag -/

/-- The mux is byte 3 modulo 32. -/
theorem muxOf_toNat (f : Frame) : (muxOf f).toNat = (Memory.read f 3).toNat % 32 := by
  unfold muxOf
  generalize Memory.read f 3 = b
  revert b
  decide

@[simp] theorem muxOf_setEff (f : Frame) : muxOf (setEff f) = muxOf f := by
  unfold muxOf
  rw [read_setEff, if_pos rfl]
  generalize Memory.read f 3 = b
  revert b
  decide

@[simp] theorem muxOf_clearEff (f : Frame) : muxOf (clearEff f) = muxOf f := by
  unfold muxOf
  rw [read_clearEff, if_pos rfl]
  generalize Memory.read f 3 = b
  revert b
  decide

theorem setEff_clearEff (f : Frame) (h : Memory.wf f = true) : setEff (clearEff f) = setEff f :=
  Memory.ext_of_wf (setEff_wf (clearEff_wf h)) (setEff_wf h) fun x _ => by
    simp only [read_setEff, read_clearEff, if_true]
    split
    · generalize Memory.read f 3 = b
      revert b
      decide
    · rfl

/-! ### Decoding and scaling -/

/-- A decodable mux is one of the four that have a response shape. -/
theorem decodable_cases {p : Params} {m : BitVec 5} (h : decodable p m = true) :
    m = muxObtainId ∨ m = muxFeedback ∨ m = muxParamRead ∨ m = muxReadAllParams := by
  unfold decodable at h
  simp only [Bool.or_eq_true, Bool.and_eq_true, beq_iff_eq] at h
  tauto

/-- All that `decodeFrame` can answer. -/
theorem decodeFrame_cases (p : Params) (f : Frame) :
    (decodable p (muxOf f) = false ∧ decodeFrame p f = .error (.unknownMux (muxOf f))) ∨
    (decodable p (muxOf f) = true ∧ muxOf f = muxObtainId ∧
      decodeFrame p f = .ok (.obtainId (loadObtainIdResp (clearEff f)))) ∨
    (decodable p (muxOf f) = true ∧ muxOf f = muxFeedback ∧
      decodeFrame p f = .ok (.feedback (loadFeedbackResp (clearEff f)))) ∨
    (decodable p (muxOf f) = true ∧ muxOf f = muxParamRead ∧
      decodeFrame p f = .ok (.paramRead (loadParamReadResp (clearEff f)))) ∨
    (decodable p (muxOf f) = true ∧ muxOf f = muxReadAllParams ∧
      decodeFrame p f = .ok (.readAllParams (loadReadAllParamsResp (clearEff f)))) := by
  unfold decodeFrame
  simp only [muxOf_clearEff]
  cases hd : decodable p (muxOf f) with
  | false => exact .inl ⟨rfl, rfl⟩
  | true =>
    rcases decodable_cases hd with h | h | h | h <;> rw [h]
    · exact .inr (.inl ⟨rfl, rfl, rfl⟩)
    · exact .inr (.inr (.inl ⟨rfl, rfl, rfl⟩))
    · exact .inr (.inr (.inr (.inl ⟨rfl, rfl, rfl⟩)))
    · exact .inr (.inr (.inr (.inr ⟨rfl, rfl, rfl⟩)))

/-- If the five scalings give codes, `scaleCommand` answers them. -/
theorem scaleCommand_ok {p : Params} {canId : Byte} {cmd : ActuatorCommand} {ranges : RangeSet} {m : ControlReq} :
    scaleCommand p canId cmd ranges = .ok m ↔
      m.canId = canId ∧ scaleToWire p cmd.qpos ranges.angle = .ok m.angle ∧
      scaleToWire p cmd.qvel ranges.velocity = .ok m.velocity ∧ scaleToWire p cmd.qfrc ranges.torque = .ok m.torque ∧
      scaleToWire p cmd.kp ranges.kp = .ok m.kp ∧ scaleToWire p cmd.kd ranges.kd = .ok m.kd := by
  obtain ⟨canId', angle, velocity, torque, kp, kd⟩ := m
  unfold scaleCommand
  cases scaleToWire p cmd.qpos ranges.angle <;> cases scaleToWire p cmd.qvel ranges.velocity <;>
    cases scaleToWire p cmd.qfrc ranges.torque <;> cases scaleToWire p cmd.kp ranges.kp <;>
    cases scaleToWire p cmd.kd ranges.kd <;> simp
  intros
  exact eq_comm

end Sys2Proof.Machine
end

