-- ==== Sys2Proof/Laws/Float64.lean ====
section
/-! SUPPORT. The laws of the binary64 model: what a value made from a sign and a magnitude reads as, and that rounding is
exact on a value that needs none. -/

namespace Sys2Proof

theorem F64.ext_bits {x y : F64} (h : x.bits = y.bits) : x = y := by
  cases x; cases y; exact congrArg F64.mk h

theorem F64.mag_lt (x : F64) : x.mag < 2 ^ 63 := Nat.mod_lt _ (by decide)

theorem F64.toNat_ofMag (negative : Bool) {mag : Nat} (h : mag < 2 ^ 63) :
    (F64.ofMag negative mag).bits.toNat = (if negative then 2 ^ 63 else 0) + mag := by
  unfold F64.ofMag
  rw [BitVec.toNat_ofNat]
  exact Nat.mod_eq_of_lt (by split <;> omega)

theorem F64.sign_eq (x : F64) : x.sign = decide (2 ^ 63 ≤ x.bits.toNat) := by
  unfold F64.sign
  rw [BitVec.msb_eq_decide]

@[simp] theorem F64.sign_ofMag (negative : Bool) {mag : Nat} (h : mag < 2 ^ 63) :
    (F64.ofMag negative mag).sign = negative := by
  rw [F64.sign_eq, F64.toNat_ofMag _ h]
  cases negative
  · simp only [Bool.false_eq_true, if_false, Nat.zero_add, decide_eq_false_iff_not]; omega
  · simp

@[simp] theorem F64.mag_ofMag (negative : Bool) {mag : Nat} (h : mag < 2 ^ 63) :
    (F64.ofMag negative mag).mag = mag := by
  unfold F64.mag
  rw [F64.toNat_ofMag _ h]
  cases negative <;> simp <;> omega

/-- A value is its sign and its magnitude. -/
theorem F64.ofMag_sign_mag (x : F64) : F64.ofMag x.sign x.mag = x := by
  apply F64.ext_bits
  apply BitVec.eq_of_toNat_eq
  rw [F64.toNat_ofMag _ x.mag_lt, F64.sign_eq]
  have hlt := x.bits.isLt
  unfold F64.mag
  by_cases h : 2 ^ 63 ≤ x.bits.toNat
  · simp only [h, decide_true, if_true]; omega
  · simp only [h, decide_false, Bool.false_eq_true, if_false]; omega

theorem F64.eq_of_sign_mag {x y : F64} (hs : x.sign = y.sign) (hm : x.mag = y.mag) : x = y := by
  rw [← x.ofMag_sign_mag, ← y.ofMag_sign_mag, hs, hm]

theorem F64.infMag_lt : F64.infMag < 2 ^ 63 := by decide

/-! ### Negation -/

@[simp] theorem F64.mag_neg (x : F64) : x.neg.mag = x.mag := F64.mag_ofMag _ x.mag_lt

@[simp] theorem F64.sign_neg (x : F64) : x.neg.sign = !x.sign := F64.sign_ofMag _ x.mag_lt

@[simp] theorem F64.units_neg (x : F64) : x.neg.units = x.units := by simp [F64.units]

@[simp] theorem F64.signedUnits_neg (x : F64) : x.neg.signedUnits = -x.signedUnits := by
  unfold F64.signedUnits
  rw [F64.sign_neg, F64.units_neg]
  cases x.sign <;> simp

@[simp] theorem F64.isNaN_neg (x : F64) : x.neg.isNaN = x.isNaN := by simp [F64.isNaN]
@[simp] theorem F64.isInf_neg (x : F64) : x.neg.isInf = x.isInf := by simp [F64.isInf]
@[simp] theorem F64.isFinite_neg (x : F64) : x.neg.isFinite = x.isFinite := by simp [F64.isFinite]

/-! ### Classification -/

theorem F64.isFinite_iff (x : F64) : x.isFinite = true ↔ x.mag < F64.infMag := by simp [F64.isFinite]

theorem F64.not_isNaN_of_isFinite {x : F64} (h : x.isFinite = true) : x.isNaN = false := by
  rw [F64.isFinite_iff] at h; simp [F64.isNaN]; omega

theorem F64.not_isInf_of_isFinite {x : F64} (h : x.isFinite = true) : x.isInf = false := by
  rw [F64.isFinite_iff] at h; simp [F64.isInf]; omega

theorem F64.class_of_isInf {x : F64} (h : x.isInf = true) : x.isNaN = false ∧ x.isFinite = false ∧ x.isZero = false := by
  simp [F64.isInf, F64.isNaN, F64.isFinite, F64.isZero] at *
  rw [h]
  decide

@[simp] theorem F64.isInf_infinity (b : Bool) : (F64.infinity b).isInf = true := by cases b <;> decide
@[simp] theorem F64.sign_infinity (b : Bool) : (F64.infinity b).sign = b := by cases b <;> decide
@[simp] theorem F64.isZero_zero (b : Bool) : (F64.zero b).isZero = true := by cases b <;> decide
@[simp] theorem F64.sign_zero (b : Bool) : (F64.zero b).sign = b := by cases b <;> decide

/-- A free NaN is a NaN, whatever its free bits. -/
theorem F64.isNaN_nan (op : FloatOp) (x y : F64) : (F64.nan op x y).isNaN = true := by
  unfold F64.nan
  dsimp only
  have hlt := ((Config.freeNan op x y).setWidth 52).isLt
  have hinf : F64.infMag = 9218868437227405312 := by decide
  generalize ((Config.freeNan op x y).setWidth 52).toNat = payload at hlt
  unfold F64.isNaN
  split
  · rw [F64.mag_ofMag _ (by omega)]; simp
  · rw [F64.mag_ofMag _ (by omega)]; simp only [decide_eq_true_eq]; omega

/-! ### Rounding is exact where no rounding is needed -/

theorem F64.nearestEven_mul (q d : Nat) (h : 0 < d) : F64.nearestEven (d * q) d = q := by
  unfold F64.nearestEven
  rw [Nat.mul_div_cancel_left _ h, Nat.mul_mod_right]
  have hd : d ≠ 0 := by omega
  simp [hd.symm]

/-- The size of a magnitude with a nonzero exponent field lies in its binade. -/
theorem F64.unitsOfMag_of_normal {mag : Nat} (h : mag / 2 ^ 52 ≠ 0) :
    F64.unitsOfMag mag = (2 ^ 52 + mag % 2 ^ 52) * 2 ^ (mag / 2 ^ 52 - 1) := if_neg h

theorem F64.unitsOfMag_of_subnormal {mag : Nat} (h : mag / 2 ^ 52 = 0) : F64.unitsOfMag mag = mag := by
  unfold F64.unitsOfMag
  rw [if_pos h]
  exact Nat.mod_eq_of_lt (by omega)

/-- Rounding a quotient that is a finite binary64 value gives that value. -/
theorem F64.roundMag_exact {d mag : Nat} (hd : 0 < d) (hmag : mag < F64.infMag) :
    F64.roundMag (d * F64.unitsOfMag mag) d = mag := by
  unfold F64.roundMag
  dsimp only
  rw [Nat.mul_div_cancel_left _ hd]
  by_cases h : mag / 2 ^ 52 = 0
  · have hlt : mag < 2 ^ 52 := by omega
    rw [F64.unitsOfMag_of_subnormal h]
    have hk : mag.log2 - 52 = 0 := by
      by_cases h0 : mag = 0
      · subst h0; rfl
      · have := (Nat.log2_lt h0).2 hlt; omega
    rw [hk, Nat.pow_zero, Nat.mul_one, F64.nearestEven_mul _ _ hd]
    omega
  · rw [F64.unitsOfMag_of_normal h]
    generalize he : mag / 2 ^ 52 = e at h
    generalize hf : mag % 2 ^ 52 = f
    have hflt : f < 2 ^ 52 := hf ▸ Nat.mod_lt _ (by decide)
    have hmagef : mag = e * 2 ^ 52 + f := by omega
    have hpos : 0 < 2 ^ (e - 1) := Nat.two_pow_pos _
    have hne : (2 ^ 52 + f) * 2 ^ (e - 1) ≠ 0 := by positivity
    have hlog : ((2 ^ 52 + f) * 2 ^ (e - 1)).log2 = 52 + (e - 1) := by
      rw [Nat.log2_eq_iff hne]
      constructor
      · rw [Nat.pow_add]; exact Nat.mul_le_mul_right _ (by omega)
      · rw [show 52 + (e - 1) + 1 = 53 + (e - 1) by omega, Nat.pow_add]
        exact Nat.mul_lt_mul_of_pos_right (by omega) hpos
    rw [hlog, show 52 + (e - 1) - 52 = e - 1 by omega,
      show d * ((2 ^ 52 + f) * 2 ^ (e - 1)) = d * 2 ^ (e - 1) * (2 ^ 52 + f) by ring,
      F64.nearestEven_mul _ _ (by positivity)]
    have : (e - 1) * 2 ^ 52 + (2 ^ 52 + f) = mag := by
      obtain ⟨k, rfl⟩ : ∃ k, e = k + 1 := ⟨e - 1, by omega⟩
      rw [Nat.add_sub_cancel, hmagef]; ring
    rw [this]
    exact Nat.min_eq_left hmag.le

theorem F64.roundMag_le (n d : Nat) : F64.roundMag n d ≤ F64.infMag := Nat.min_le_right _ _

theorem F64.roundMag_lt (n d : Nat) : F64.roundMag n d < 2 ^ 63 :=
  Nat.lt_of_le_of_lt (F64.roundMag_le n d) F64.infMag_lt

end Sys2Proof
end

