-- ==== Sys2Proof/Laws/Scaler.lean ====
section
/-! SUPPORT. All that the scaler's functions can answer, said once each. -/

namespace Sys2Proof.Machine

/-- `T` is never degenerate (40_scaler.md R88). -/
theorem transportRange_not_degenerate : transportRange.max.eq transportRange.min = false := by decide +kernel

/-! ### The default arithmetic (00_scope.md R9, log 10) -/

@[simp] theorem compute_ieee754_add : Numerics.compute .ieee754 .add = F64.add := rfl
@[simp] theorem compute_ieee754_sub : Numerics.compute .ieee754 .sub = F64.sub := rfl
@[simp] theorem compute_ieee754_mul : Numerics.compute .ieee754 .mul = F64.mul := rfl
@[simp] theorem compute_ieee754_div : Numerics.compute .ieee754 .div = F64.div := rfl

/-- The formula of R82 in the default arithmetic. -/
theorem scaleFormula_ieee754 (value : F64) (source target : PhysicalRange) :
    scaleFormula .ieee754 value source target =
      target.min.add (((value.sub source.min).div (source.max.sub source.min)).mul (target.max.sub target.min)) := rfl

/-! ### What the functions can answer -/

/-- All that `SCALE` can answer. -/
theorem scale_cases (n : Numerics) (value : F64) (source target : PhysicalRange) :
    (source.max.eq source.min = true ∧ scale n value source target = .error (.scaleDegenerateRange source)) ∨
    (source.max.eq source.min = false ∧ scale n value source target = .ok (scaleFormula n value source target)) := by
  unfold scale
  cases source.max.eq source.min <;> simp

/-- `SCALE_FROM_WIRE` is `SCALE` of the code from `T` (R88). -/
theorem scale_fromWire (n : Numerics) (raw : BitVec 16) (eng : PhysicalRange) :
    scale n (F64.ofU16 raw) transportRange eng = .ok (scaleFromWire n raw eng) := by
  unfold scale
  rw [transportRange_not_degenerate]
  rfl

/-- What R86 answers under each policy. -/
theorem quantOutOfRange_cases (p : Params) (r : F64) (n : BitVec 16) :
    (p.quantPolicy = .fault ∧ quantOutOfRange p r n = .error (.scaleOutOfRange r)) ∨
    (p.quantPolicy = .saturate ∧ quantOutOfRange p r n = .ok n) := by
  unfold quantOutOfRange
  cases p.quantPolicy <;> simp

/-- `QUANT16` of a finite value that rounds into the range of the codes. -/
theorem quant16_of_inRange {p : Params} {r : F64} (hr : r.isFinite = true) (h0 : 0 ≤ r.roundToInt p.quantRound)
    (h1 : r.roundToInt p.quantRound ≤ 65535) : quant16 p r = .ok (BitVec.ofInt 16 (r.roundToInt p.quantRound)) := by
  unfold quant16
  simp only [F64.not_isNaN_of_isFinite hr, F64.not_isInf_of_isFinite hr, Bool.false_eq_true, if_false]
  rw [if_neg (by omega), if_neg (by omega)]

/-- All that `SCALE_TO_WIRE` can answer: the degenerate range first (60_exceptions.md R168). -/
theorem scaleToWire_cases (p : Params) (value : F64) (eng : PhysicalRange) :
    (eng.max.eq eng.min = true ∧ scaleToWire p value eng = .error (.scaleDegenerateRange eng)) ∨
    (eng.max.eq eng.min = false ∧ scaleToWire p value eng = quant16 p (scaleFormula p.numerics value eng transportRange)) := by
  unfold scaleToWire
  rcases scale_cases p.numerics value eng transportRange with ⟨h, hs⟩ | ⟨h, hs⟩ <;> rw [hs]
  · exact .inl ⟨h, rfl⟩
  · exact .inr ⟨h, rfl⟩

end Sys2Proof.Machine
end

