-- ==== Sys2Proof/Laws/State.lean ====
section
/-! SUPPORT. What each update of the state leaves in each field, true by `rfl`, and what the three ways an operation ends
can do. -/

namespace Sys2Proof.Machine

@[simp] theorem consumeOp_params (s : State) : (consumeOp s).params = s.params := rfl
@[simp] theorem consumeOp_op (s : State) : (consumeOp s).op = [] := rfl
@[simp] theorem consumeOp_frameIn (s : State) : (consumeOp s).frameIn = s.frameIn := rfl
@[simp] theorem consumeOp_frameOut (s : State) : (consumeOp s).frameOut = s.frameOut := rfl
@[simp] theorem consumeOp_result (s : State) : (consumeOp s).result = s.result := rfl

@[simp] theorem issue_params (s : State) (i : Instr) (f : Frame) : (s.issue i f).params = s.params := rfl
@[simp] theorem issue_op (s : State) (i : Instr) (f : Frame) : (s.issue i f).op = encode i := rfl
@[simp] theorem issue_frameIn (s : State) (i : Instr) (f : Frame) : (s.issue i f).frameIn = f := rfl
@[simp] theorem issue_frameOut (s : State) (i : Instr) (f : Frame) : (s.issue i f).frameOut = s.frameOut := rfl
@[simp] theorem issue_result (s : State) (i : Instr) (f : Frame) : (s.issue i f).result = s.result := rfl

@[simp] theorem withFetchWord_params (s : State) (n w : Nat) : (s.withFetchWord n w).params = s.params := rfl
@[simp] theorem withFetchWord_op (s : State) (n w : Nat) : (s.withFetchWord n w).op = recordOfWord n w := rfl
@[simp] theorem withFetchWord_frameIn (s : State) (n w : Nat) : (s.withFetchWord n w).frameIn = s.frameIn := rfl
@[simp] theorem withFetchWord_frameOut (s : State) (n w : Nat) : (s.withFetchWord n w).frameOut = s.frameOut := rfl
@[simp] theorem withFetchWord_result (s : State) (n w : Nat) : (s.withFetchWord n w).result = s.result := rfl

@[simp] theorem reset_params : State.reset.params = Params.default := rfl
@[simp] theorem reset_op : State.reset.op = [] := rfl
@[simp] theorem reset_frameIn : State.reset.frameIn = [] := rfl
@[simp] theorem reset_frameOut : State.reset.frameOut = none := rfl
@[simp] theorem reset_result : State.reset.result = none := rfl

/-! ### The three ways an operation ends -/

theorem deliver_eq (v : Value) (s : State) :
    deliver v s = .next { s with frameOut := none, result := some (.ok v) } := rfl

theorem deliverFrame_eq (f : Frame) (s : State) :
    deliverFrame f s = .next { s with frameOut := some f, result := some (.ok (.frame f)) } := rfl

theorem raise_eq (e : OpError) (s : State) :
    raise e s = .next { s with frameOut := none, result := some (.err e) } := rfl

/-- All that an operation can leave: its inputs as they were, and either an outcome and no frame, or a frame that is also
the outcome's value. -/
def EndsAs (s t : State) : Prop :=
  (∃ r, (∀ f, r ≠ .ok (.frame f)) ∧ t = { s with frameOut := none, result := some r }) ∨
  (∃ f, t = { s with frameOut := some f, result := some (.ok (.frame f)) })

theorem deliver_endsAs {v : Value} {s t : State} (hv : ∀ f, v ≠ .frame f) (h : deliver v s = .next t) : EndsAs s t := by
  rw [deliver_eq, Host.Outcome.next.injEq] at h
  exact .inl ⟨.ok v, fun f hf => hv f (OpResult.ok.inj hf), h.symm⟩

theorem deliverFrame_endsAs {f : Frame} {s t : State} (h : deliverFrame f s = .next t) : EndsAs s t := by
  rw [deliverFrame_eq, Host.Outcome.next.injEq] at h
  exact .inr ⟨f, h.symm⟩

theorem raise_endsAs {e : OpError} {s t : State} (h : raise e s = .next t) : EndsAs s t := by
  rw [raise_eq, Host.Outcome.next.injEq] at h
  exact .inl ⟨.err e, by simp, h.symm⟩

/-! ### One step -/

/-- All that a step can do. -/
theorem step_cases (s : State) :
    (s.op = [] ∧ step s = .next s) ∨
    (s.op ≠ [] ∧ ∃ e, decode s.op = .error e ∧ step s = .refused (.undecodable e)) ∨
    (s.op ≠ [] ∧ ∃ i rest, decode s.op = .ok (i, rest) ∧ step s = exec i (consumeOp s)) := by
  cases hop : s.op with
  | nil => exact .inl ⟨rfl, by unfold step fetch; simp only [hop]⟩
  | cons b bs =>
    cases hdec : decode (b :: bs) with
    | error e => exact .inr (.inl ⟨by simp, e, rfl, by unfold step fetch; simp only [hop, hdec]⟩)
    | ok found => exact .inr (.inr ⟨by simp, found.1, found.2, rfl, by unfold step fetch; simp only [hop, hdec]⟩)

end Sys2Proof.Machine
end

