-- ==== Sys2Proof/Laws/Exec.lean ====
section
/-! SUPPORT. All that the operations can do, said once: the three shapes of an answer, and the answers of the operations that
can fail, in terms of the functions behind them. -/

namespace Sys2Proof.Machine

/-! ### The three shapes of an answer differ -/

theorem answered_inj {s : State} {v w : Value} :
    (Host.Outcome.next (s.answered v) : Host.Outcome State Fault Refusal) = .next (s.answered w) ↔ v = w :=
  ⟨fun h => OpResult.ok.inj (Option.some.inj (congrArg State.result (Host.Outcome.next.inj h))), fun h => h ▸ rfl⟩

theorem failed_inj {s : State} {e d : OpError} :
    (Host.Outcome.next (s.failed e) : Host.Outcome State Fault Refusal) = .next (s.failed d) ↔ e = d :=
  ⟨fun h => OpResult.err.inj (Option.some.inj (congrArg State.result (Host.Outcome.next.inj h))), fun h => h ▸ rfl⟩

theorem answered_ne_failed {s : State} {v : Value} {e : OpError} :
    (Host.Outcome.next (s.answered v) : Host.Outcome State Fault Refusal) ≠ .next (s.failed e) :=
  fun h => nomatch Option.some.inj (congrArg State.result (Host.Outcome.next.inj h))

/-! ### Every operation -/

/-- All that an operation can leave: a value, an error, or a frame built by the shared steps. -/
theorem exec_ends (i : Instr) (s : State) :
    (∃ v, (∀ f, v ≠ .frame f) ∧ exec i s = .next (s.answered v) ∧ i.operation.buildsFrame = false) ∨
    (∃ e, exec i s = .next (s.failed e)) ∨
    (∃ dst data16 mux hdr payload, payload.length ≤ 8 ∧ i.operation.buildsFrame = true ∧
      exec i s = .next (s.built (buildFrame dst data16 mux hdr payload))) := by
  cases i
  case scale v a b =>
    simp only [exec, execScale]
    cases scale s.params.numerics v a b with
    | error e => exact .inr (.inl ⟨e, rfl⟩)
    | ok r => exact .inl ⟨_, by simp, rfl, rfl⟩
  case quant16 r =>
    simp only [exec, execQuant16]
    cases quant16 s.params r with
    | error e => exact .inr (.inl ⟨e, rfl⟩)
    | ok n => exact .inl ⟨_, by simp, rfl, rfl⟩
  case scaleToWire v r =>
    simp only [exec, execScaleToWire]
    cases scaleToWire s.params v r with
    | error e => exact .inr (.inl ⟨e, rfl⟩)
    | ok n => exact .inl ⟨_, by simp, rfl, rfl⟩
  case controlFromEng canId cmd ranges =>
    simp only [exec, execControlFromEng]
    cases scaleCommand s.params canId cmd ranges with
    | error e => exact .inr (.inl ⟨e, rfl⟩)
    | ok m => exact .inr (.inr ⟨_, _, _, _, _, by simp [bytesBe, bytesLe], rfl, rfl⟩)
  case dec =>
    simp only [exec, execDec]
    cases decodeFrame s.params s.frameIn with
    | error e => exact .inr (.inl ⟨e, rfl⟩)
    | ok r => exact .inl ⟨_, by simp, rfl, rfl⟩
  case feedbackToEng ranges =>
    simp only [exec, execFeedbackToEng]
    rcases decodeFrame s.params s.frameIn with e | (r | r | r | r)
    case ok.feedback => exact .inl ⟨_, by simp, rfl, rfl⟩
    all_goals exact .inr (.inl ⟨_, rfl⟩)
  all_goals first
    | exact .inl ⟨_, by simp, rfl, rfl⟩
    | exact .inr (.inr ⟨_, _, _, _, _,
        by simp [bytesBe, bytesLe, Bytes2.toList, Bytes4.toList, Bytes6.toList, Bytes8.toList], rfl, rfl⟩)

/-! ### The operations that can fail -/

theorem exec_scale_eq (value : F64) (source target : PhysicalRange) (s : State) :
    exec (.scale value source target) s =
      match scale s.params.numerics value source target with
      | .error e => .next (s.failed e)
      | .ok r => .next (s.answered (.f64 r)) := by
  simp only [exec, execScale]
  cases scale s.params.numerics value source target <;> rfl

theorem exec_quant16_eq (r : F64) (s : State) :
    exec (.quant16 r) s =
      match quant16 s.params r with
      | .error e => .next (s.failed e)
      | .ok n => .next (s.answered (.u16 n)) := by
  simp only [exec, execQuant16]
  cases quant16 s.params r <;> rfl

theorem exec_scaleToWire_eq (value : F64) (eng : PhysicalRange) (s : State) :
    exec (.scaleToWire value eng) s =
      match scaleToWire s.params value eng with
      | .error e => .next (s.failed e)
      | .ok n => .next (s.answered (.u16 n)) := by
  simp only [exec, execScaleToWire]
  cases scaleToWire s.params value eng <;> rfl

theorem exec_scaleFromWire_eq (raw : BitVec 16) (eng : PhysicalRange) (s : State) :
    exec (.scaleFromWire raw eng) s = .next (s.answered (.f64 (scaleFromWire s.params.numerics raw eng))) := rfl

theorem exec_dec_eq (s : State) :
    exec .dec s =
      match decodeFrame s.params s.frameIn with
      | .error e => .next (s.failed e)
      | .ok r => .next (s.answered (.response r)) := by
  simp only [exec, execDec]
  cases decodeFrame s.params s.frameIn <;> rfl

theorem exec_controlFromEng_eq (canId : Byte) (cmd : ActuatorCommand) (ranges : RangeSet) (s : State) :
    exec (.controlFromEng canId cmd ranges) s =
      match scaleCommand s.params canId cmd ranges with
      | .error e => .next (s.failed e)
      | .ok m => .next (s.built (storeControlReq m)) := by
  simp only [exec, execControlFromEng]
  cases scaleCommand s.params canId cmd ranges <;> rfl

/-- What `SCALE_TO_WIRE` answers says what the function behind it gives. -/
theorem scaleToWire_of_answered {value : F64} {eng : PhysicalRange} {s : State} {n : BitVec 16}
    (h : exec (.scaleToWire value eng) s = .next (s.answered (.u16 n))) : scaleToWire s.params value eng = .ok n := by
  rw [exec_scaleToWire_eq] at h
  cases hw : scaleToWire s.params value eng with
  | error e => rw [hw] at h; exact absurd h.symm answered_ne_failed
  | ok m => rw [hw] at h; rw [Value.u16.inj (answered_inj.1 h)]

theorem scaleToWire_of_failed {value : F64} {eng : PhysicalRange} {s : State} {e : OpError}
    (h : exec (.scaleToWire value eng) s = .next (s.failed e)) : scaleToWire s.params value eng = .error e := by
  rw [exec_scaleToWire_eq] at h
  cases hw : scaleToWire s.params value eng with
  | error d => rw [hw] at h; rw [failed_inj.1 h]
  | ok m => rw [hw] at h; exact absurd h answered_ne_failed

/-- What `DEC` answers says what the function behind it gives. -/
theorem decodeFrame_of_answered {s : State} {r : Response} (h : exec .dec s = .next (s.answered (.response r))) :
    decodeFrame s.params s.frameIn = .ok r := by
  rw [exec_dec_eq] at h
  cases hw : decodeFrame s.params s.frameIn with
  | error e => rw [hw] at h; exact absurd h.symm answered_ne_failed
  | ok m => rw [hw] at h; rw [Value.response.inj (answered_inj.1 h)]

theorem decodeFrame_of_failed {s : State} {e : OpError} (h : exec .dec s = .next (s.failed e)) :
    decodeFrame s.params s.frameIn = .error e := by
  rw [exec_dec_eq] at h
  cases hw : decodeFrame s.params s.frameIn with
  | error d => rw [hw] at h; rw [failed_inj.1 h]
  | ok m => rw [hw] at h; exact absurd h answered_ne_failed

/-! ### Reading a frame with its flag cleared -/

/-- The flag is in byte 3; no other byte changes. -/
theorem read_clearEff_of_ne (f : Frame) {a : Nat} (h : a ≠ 3) : Memory.read (clearEff f) a = Memory.read f a := by
  rw [read_clearEff, if_neg h]

/-- The header's `res2` is no part of the flag. -/
theorem unpackHdr_clearEff (f : Frame) : unpackHdr (clearEff f) = unpackHdr f := by
  have h : ∀ b : Byte, (b &&& 0x7F).extractLsb' 5 2 = b.extractLsb' 5 2 := by decide
  unfold unpackHdr
  rw [read_clearEff, if_pos rfl, h]
  simp [read_clearEff_of_ne]

theorem loadObtainIdResp_clearEff (f : Frame) : loadObtainIdResp (clearEff f) = loadObtainIdResp f := by
  unfold loadObtainIdResp frameLe64 frameBytes8
  rw [unpackHdr_clearEff]
  simp [read_clearEff_of_ne]

theorem loadFeedbackResp_clearEff (f : Frame) : loadFeedbackResp (clearEff f) = loadFeedbackResp f := by
  unfold loadFeedbackResp frameBe16 frameBytes2
  rw [unpackHdr_clearEff]
  simp [read_clearEff_of_ne]

theorem loadReadAllParamsResp_clearEff (f : Frame) : loadReadAllParamsResp (clearEff f) = loadReadAllParamsResp f := by
  unfold loadReadAllParamsResp frameLe16 frameBytes6
  rw [unpackHdr_clearEff]
  simp [read_clearEff_of_ne]

theorem loadParamReadResp_clearEff (f : Frame) : loadParamReadResp (clearEff f) = loadParamReadResp f := by
  unfold loadParamReadResp frameLe16 frameBytes2 frameBytes4
  rw [unpackHdr_clearEff]
  simp [read_clearEff_of_ne]

end Sys2Proof.Machine
end

