-- ==== Sys2Proof/Laws/PerInstr.lean ====
section
/-! SUPPORT. The family TableRow: for each operation, its record is laid out as its row of spec/opcode_table.json says: the
identifier word fits the row's match and mask (30_encoding.md R70), byte 16 is the row's selector and the record has its
row's length (log 1). One lemma per constructor of Instr. -/

namespace Sys2Proof

/-- Masking an identifier word masks its bytes. -/
theorem le32_and (a0 a1 a2 a3 b0 b1 b2 b3 : Byte) :
    le32 a0 a1 a2 a3 &&& le32 b0 b1 b2 b3 = le32 (a0 &&& b0) (a1 &&& b1) (a2 &&& b2) (a3 &&& b3) := by
  have h (x y u v : Byte) : (x ++ y) &&& (u ++ v) = (x &&& u) ++ (y &&& v) := BitVec.and_append
  have h3 (x u : BitVec 16) (y v : Byte) : (x ++ y) &&& (u ++ v) = (x &&& u) ++ (y &&& v) := BitVec.and_append
  have h4 (x u : BitVec 24) (y v : Byte) : (x ++ y) &&& (u ++ v) = (x &&& u) ++ (y &&& v) := BitVec.and_append
  exact (h4 _ _ _ _).trans (congrArg (· ++ _) ((h3 _ _ _ _).trans (congrArg (· ++ _) (h _ _ _ _))))

/-- A word fits a row whose mask is on the top byte alone if its top byte does. -/
theorem fits_of_topByte (o : Operation) (b0 b1 b2 b3 m : Byte) (hm : o.identifier.2 = le32 0 0 0 m)
    (h : o.identifier.1 = le32 0 0 0 (b3 &&& m)) : o.fits (le32 b0 b1 b2 b3) = true := by
  unfold Operation.fits
  rw [hm, le32_and, h]
  simp

end Sys2Proof

namespace Sys2Proof.Laws.TableRow

/-- What the family says of one operation. -/
def Statement (i : Instr) : Prop :=
  i.operation.fits (identifierAt (encode i)) = true ∧ byteAt (encode i) 16 = i.operation.selector ∧
  (encode i).length = i.operation.recordBytes

/-- The top byte of a packer's record fits its row whatever `res2` is. -/
theorem packed_topByte (top : Byte) (res2 : BitVec 2) (h : top &&& 0x60 = 0) :
    (top ||| (res2.setWidth 8 <<< 5)) &&& 0x9F = top &&& 0x9F := by
  revert h
  revert top res2
  decide

theorem scale (value : F64) (source target : PhysicalRange) : Statement (.scale value source target) :=
  ⟨(by decide : Operation.fits .scale (le32 0 0 0 0) = true), rfl, rfl⟩

theorem quant16 (r : F64) : Statement (.quant16 r) :=
  ⟨(by decide : Operation.fits .quant16 (le32 0 0 0 0) = true), rfl, rfl⟩

theorem scaleToWire (value : F64) (eng : PhysicalRange) : Statement (.scaleToWire value eng) :=
  ⟨(by decide : Operation.fits .scaleToWire (le32 0 0 0 0) = true), rfl, rfl⟩

theorem scaleFromWire (raw : BitVec 16) (eng : PhysicalRange) : Statement (.scaleFromWire raw eng) :=
  ⟨(by decide : Operation.fits .scaleFromWire (le32 0 0 0 0) = true), rfl, rfl⟩

theorem encObtainId (m : ObtainIdReq) : Statement (.encObtainId m) :=
  ⟨fits_of_topByte .encObtainId _ _ _ _ 0xFF (by decide)
    (by decide : _ = le32 0 0 0 (Operation.topByte .encObtainId &&& 0xFF)), rfl, rfl⟩

theorem encControl (m : ControlReq) : Statement (.encControl m) :=
  ⟨fits_of_topByte .encControl _ _ _ _ 0xFF (by decide)
    (by decide : _ = le32 0 0 0 (Operation.topByte .encControl &&& 0xFF)), rfl, rfl⟩

theorem encMotorEnable (m : MotorEnableReq) : Statement (.encMotorEnable m) :=
  ⟨fits_of_topByte .encMotorEnable _ _ _ _ 0xFF (by decide)
    (by decide : _ = le32 0 0 0 (Operation.topByte .encMotorEnable &&& 0xFF)), rfl, rfl⟩

theorem encFeedback (m : FeedbackReq) : Statement (.encFeedback m) :=
  ⟨fits_of_topByte .encFeedback _ _ _ _ 0xFF (by decide)
    (by decide : _ = le32 0 0 0 (Operation.topByte .encFeedback &&& 0xFF)), rfl, rfl⟩

theorem encReadAllParams (m : ReadAllParamsReq) : Statement (.encReadAllParams m) :=
  ⟨fits_of_topByte .encReadAllParams _ _ _ _ 0xFF (by decide)
    (by decide : _ = le32 0 0 0 (Operation.topByte .encReadAllParams &&& 0xFF)), rfl, rfl⟩

theorem encZeroPosition (m : ZeroPositionReq) : Statement (.encZeroPosition m) :=
  ⟨fits_of_topByte .encZeroPosition _ _ _ _ 0xFF (by decide)
    (by decide : _ = le32 0 0 0 (Operation.topByte .encZeroPosition &&& 0xFF)), rfl, rfl⟩

theorem encParamRead (m : ParamReadReq) : Statement (.encParamRead m) :=
  ⟨fits_of_topByte .encParamRead _ _ _ _ 0xFF (by decide)
    (by decide : _ = le32 0 0 0 (Operation.topByte .encParamRead &&& 0xFF)), rfl, rfl⟩

theorem encParamWrite (m : ParamWriteReq) : Statement (.encParamWrite m) :=
  ⟨fits_of_topByte .encParamWrite _ _ _ _ 0xFF (by decide)
    (by decide : _ = le32 0 0 0 (Operation.topByte .encParamWrite &&& 0xFF)), rfl, rfl⟩

theorem encDataSave (m : DataSaveReq) : Statement (.encDataSave m) :=
  ⟨fits_of_topByte .encDataSave _ _ _ _ 0xFF (by decide)
    (by decide : _ = le32 0 0 0 (Operation.topByte .encDataSave &&& 0xFF)), rfl, rfl⟩

theorem controlFromEng (canId : Byte) (cmd : ActuatorCommand) (ranges : RangeSet) :
    Statement (.controlFromEng canId cmd ranges) :=
  ⟨fits_of_topByte .controlFromEng _ _ _ _ 0xFF (by decide)
    (by decide : _ = le32 0 0 0 (Operation.topByte .controlFromEng &&& 0xFF)), rfl, rfl⟩

theorem packObtainIdResp (m : ObtainIdResp) : Statement (.packObtainIdResp m) :=
  ⟨fits_of_topByte .packObtainIdResp _ _ _ _ 0x9F (by decide)
    ((by decide : _ = le32 0 0 0 (Operation.topByte .packObtainIdResp &&& 0x9F)).trans
      (congrArg (le32 0 0 0) (packed_topByte _ m.hdr.res2 (by decide)).symm)), rfl, rfl⟩

theorem packFeedbackResp (m : FeedbackResp) : Statement (.packFeedbackResp m) :=
  ⟨fits_of_topByte .packFeedbackResp _ _ _ _ 0x9F (by decide)
    ((by decide : _ = le32 0 0 0 (Operation.topByte .packFeedbackResp &&& 0x9F)).trans
      (congrArg (le32 0 0 0) (packed_topByte _ m.hdr.res2 (by decide)).symm)), rfl, rfl⟩

theorem packReadAllParamsResp (m : ReadAllParamsResp) : Statement (.packReadAllParamsResp m) :=
  ⟨fits_of_topByte .packReadAllParamsResp _ _ _ _ 0x9F (by decide)
    ((by decide : _ = le32 0 0 0 (Operation.topByte .packReadAllParamsResp &&& 0x9F)).trans
      (congrArg (le32 0 0 0) (packed_topByte _ m.hdr.res2 (by decide)).symm)), rfl, rfl⟩

theorem packParamReadResp (m : ParamReadResp) : Statement (.packParamReadResp m) :=
  ⟨fits_of_topByte .packParamReadResp _ _ _ _ 0x9F (by decide)
    ((by decide : _ = le32 0 0 0 (Operation.topByte .packParamReadResp &&& 0x9F)).trans
      (congrArg (le32 0 0 0) (packed_topByte _ m.hdr.res2 (by decide)).symm)), rfl, rfl⟩

theorem mux : Statement .mux := ⟨by decide, rfl, rfl⟩

theorem dec : Statement .dec := ⟨by decide, rfl, rfl⟩

theorem unpackObtainIdResp : Statement .unpackObtainIdResp := ⟨by decide, rfl, rfl⟩

theorem unpackFeedbackResp : Statement .unpackFeedbackResp := ⟨by decide, rfl, rfl⟩

theorem unpackReadAllParamsResp : Statement .unpackReadAllParamsResp := ⟨by decide, rfl, rfl⟩

theorem unpackParamReadResp : Statement .unpackParamReadResp := ⟨by decide, rfl, rfl⟩

theorem unpackObtainIdReq : Statement .unpackObtainIdReq := ⟨by decide, rfl, rfl⟩

theorem unpackControlReq : Statement .unpackControlReq := ⟨by decide, rfl, rfl⟩

theorem unpackMotorEnableReq : Statement .unpackMotorEnableReq := ⟨by decide, rfl, rfl⟩

theorem unpackFeedbackReq : Statement .unpackFeedbackReq := ⟨by decide, rfl, rfl⟩

theorem unpackReadAllParamsReq : Statement .unpackReadAllParamsReq := ⟨by decide, rfl, rfl⟩

theorem unpackZeroPositionReq : Statement .unpackZeroPositionReq := ⟨by decide, rfl, rfl⟩

theorem unpackParamReadReq : Statement .unpackParamReadReq := ⟨by decide, rfl, rfl⟩

theorem unpackParamWriteReq : Statement .unpackParamWriteReq := ⟨by decide, rfl, rfl⟩

theorem unpackDataSaveReq : Statement .unpackDataSaveReq := ⟨by decide, rfl, rfl⟩

theorem feedbackToEng (ranges : RangeSet) : Statement (.feedbackToEng ranges) :=
  ⟨(by decide : Operation.fits .feedbackToEng (le32 0 0 0 2) = true), rfl, rfl⟩

end Sys2Proof.Laws.TableRow
end

