-- ==== Sys2Proof/Tests/Slice0.lean ====
section
/-! SUPPORT. The model's own tests. Expected values are from spec/95_test_vectors.md (the vector's name stands in the docstring),
from the worked examples of the rules, or worked out by hand from spec/opcode_table.json. The theorems named witness_ show
concrete operands that meet the hypotheses of the statement they name, one conjunct for each clause. -/

namespace Sys2Proof.Tests

/-! One theorem after the other: many kernel evaluations at once start more threads than memory allows. -/
set_option Elab.async false

open Sys2Proof.Machine

/-! ### Helpers -/

/-- The reset state with these bytes on `frame_in`. -/
def onFrame (bytes : List Byte) : State := { State.reset with frameIn := frameOfBytes bytes }

/-- The reset state with a record on `op`. -/
def onOp (record : List Byte) : State := { State.reset with op := record }

/-- The reset state with `QUANT_POLICY = saturate`. -/
def saturating : State := { State.reset with params := { Params.default with quantPolicy := .saturate } }

/-- The next state. -/
def stateOf : Host.Outcome State Fault Refusal → Option State
  | .next t => some t
  | _ => none

/-- The outcome on `result` after a next state. -/
def outcomeOf : Host.Outcome State Fault Refusal → Option OpResult
  | .next t => t.result
  | _ => none

/-- The sixteen bytes on `frame_out` after a next state. -/
def bytesOf : Host.Outcome State Fault Refusal → Option (List Byte)
  | .next t => t.frameOut.map frameToBytes
  | _ => none

/-! `f64` constants, by their bit patterns. -/

def zero : F64 := ⟨0x0000000000000000⟩
def negZero : F64 := ⟨0x8000000000000000⟩
def one : F64 := ⟨0x3FF0000000000000⟩
def half : F64 := ⟨0x3FE0000000000000⟩
def negHalf : F64 := ⟨0xBFE0000000000000⟩
def three : F64 := ⟨0x4008000000000000⟩
def five : F64 := ⟨0x4014000000000000⟩
def eightHalf : F64 := ⟨0x4021000000000000⟩
def twelveHalf : F64 := ⟨0x4029000000000000⟩
def negTwelveHalf : F64 := ⟨0xC029000000000000⟩
def seventeen : F64 := ⟨0x4031000000000000⟩
def negSeventeen : F64 := ⟨0xC031000000000000⟩
def fortyFour : F64 := ⟨0x4046000000000000⟩
def negFortyFour : F64 := ⟨0xC046000000000000⟩
def fiveHundred : F64 := ⟨0x407F400000000000⟩
def belowTop : F64 := ⟨0x40EFFFECCCCCCCCD⟩
def infinity : F64 := ⟨0x7FF0000000000000⟩
def quietNan : F64 := ⟨0x7FF8000000000000⟩

def range17 : PhysicalRange := ⟨negSeventeen, seventeen⟩
def range3 : PhysicalRange := ⟨three, three⟩
def reversed : PhysicalRange := ⟨one, zero⟩

/-- The example ranges `EX` of 95_test_vectors.md: ±12.5, ±44, ±17, 0..500, 0..5. -/
def exampleRanges : RangeSet :=
  ⟨⟨negTwelveHalf, twelveHalf⟩, ⟨negFortyFour, fortyFour⟩, range17, ⟨zero, fiveHundred⟩, ⟨zero, five⟩⟩

def zeroCommand : ActuatorCommand := ⟨zero, zero, zero, zero, zero⟩

/-- The example ranges for every model; only tests use them. -/
def exampleTable : RangeTable := ⟨exampleRanges, exampleRanges, exampleRanges, exampleRanges, exampleRanges⟩

def hostForms : HostData16 := Params.default.hostData16

/-! ### Well-formedness: each check refuses an ill-formed term -/

theorem test_wf_refuses_scale :
    Instr.wf (.scale zero reversed range17) = false ∧ Instr.wf (.scale zero range17 reversed) = false := by decide +kernel

theorem test_wf_refuses_directed :
    Instr.wf (.scaleToWire zero reversed) = false ∧ Instr.wf (.scaleFromWire 0 reversed) = false := by decide +kernel

theorem test_wf_refuses_each_axis :
    ([{ exampleRanges with angle := reversed }, { exampleRanges with velocity := reversed },
      { exampleRanges with torque := reversed }, { exampleRanges with kp := reversed },
      { exampleRanges with kd := reversed }].all fun r =>
        !Instr.wf (.controlFromEng 21 zeroCommand r) && !Instr.wf (.feedbackToEng r)) = true := by decide +kernel

theorem test_wf_refuses_nan :
    PhysicalRange.wf ⟨zero, quietNan⟩ = false ∧ PhysicalRange.wf ⟨quietNan, zero⟩ = false := by decide +kernel

/-- `min = max` is allowed, and `+0.0 = -0.0` (90_conflicts.md C8). -/
theorem test_wf_accepts :
    Instr.wf (.controlFromEng 21 zeroCommand exampleRanges) = true ∧ Instr.wf (.scale zero range3 range17) = true ∧
    PhysicalRange.wf ⟨zero, negZero⟩ = true := by decide +kernel

/-- 30_encoding.md R47. -/
theorem test_params_refuses_taken_mux :
    ([0x00, 0x01, 0x06, 0x11, 0x12, 0x13, 0x16].all fun m =>
      !Params.wf { Params.default with muxMotorEnable := m }) = true ∧
    Params.wf Params.default = true ∧ Params.wf { Params.default with muxMotorEnable := 0x02 } = true := by decide +kernel

/-- An overridden Feedback mux counts among the others (log 8). -/
theorem test_params_refuses_overridden_feedback_mux :
    Params.wf { Params.default with muxFeedbackReq := 0x05, muxMotorEnable := 0x05 } = false ∧
    Params.wf { Params.default with muxFeedbackReq := 0x05 } = true := by decide +kernel

/-- 00_scope.md R9: `0xFD00` or the single-byte form `0x00FD`. -/
theorem test_params_refuses_other_host_form :
    ([{ hostForms with obtainId := 0xFDFD }, { hostForms with motorEnable := 0xFD01 }, { hostForms with feedback := 0 },
      { hostForms with readAllParams := 1 }, { hostForms with zeroPosition := 0xFC00 },
      { hostForms with paramRead := 0xFFFF }, { hostForms with paramWrite := 0x00FE },
      { hostForms with dataSave := 0xFD }].map fun h => Params.wf { Params.default with hostData16 := h }) =
      [false, false, false, false, false, false, false, true] := by decide +kernel

/-- 10_state.md R24: `min < max`, and each constraint on `Robstride01`. -/
theorem test_ranges_legal_refuses :
    ([{ exampleTable with robstride00 := { exampleRanges with kd := reversed } },
      { exampleTable with robstride04 := { exampleRanges with angle := range3 } },
      { exampleTable with robstride01 := { exampleRanges with angle := ⟨zero, five⟩ } },
      { exampleTable with robstride01 := { exampleRanges with velocity := ⟨zero, five⟩ } },
      { exampleTable with robstride01 := { exampleRanges with torque := ⟨negFortyFour, five⟩ } },
      { exampleTable with robstride01 := { exampleRanges with kp := ⟨one, five⟩ } },
      { exampleTable with robstride01 := { exampleRanges with kd := ⟨negHalf, five⟩ } }].all fun t => !RangeTable.legal t) =
      true ∧
    RangeTable.legal { exampleTable with robstride02 := { exampleRanges with kp := ⟨one, five⟩ } } = true := by decide +kernel

/-! ### Decoding: one record of every operation, written out from its row of the table; the selector is byte 16 -/

theorem test_decode_scale :
    decode ([0x00, 0x00, 0x00, 0x00, 0x00, 0x00, 0x00, 0x00, 0x00, 0x00, 0x00, 0x00, 0x00, 0x00, 0x00, 0x00, 1] ++
      [0x00, 0x00, 0x00, 0x00, 0x00, 0x00, 0x21, 0x40] ++
      [0x00, 0x00, 0x00, 0x00, 0x00, 0x00, 0x31, 0xC0] ++
      [0x00, 0x00, 0x00, 0x00, 0x00, 0x00, 0x31, 0x40] ++
      [0x00, 0x00, 0x00, 0x00, 0x00, 0x00, 0x00, 0x00] ++
      [0x00, 0x00, 0x00, 0x00, 0x00, 0x40, 0x7F, 0x40]) =
      .ok (.scale eightHalf range17 ⟨zero, fiveHundred⟩, []) := by decide +kernel

theorem test_decode_quant16 :
    decode ([0x00, 0x00, 0x00, 0x00, 0x00, 0x00, 0x00, 0x00, 0x00, 0x00, 0x00, 0x00, 0x00, 0x00, 0x00, 0x00, 2, 0x00, 0x00, 0x00, 0x00, 0x00, 0x00, 0xE0, 0x3F]) =
      .ok (.quant16 half, []) := by decide +kernel

theorem test_decode_scaleToWire :
    decode ([0x00, 0x00, 0x00, 0x00, 0x00, 0x00, 0x00, 0x00, 0x00, 0x00, 0x00, 0x00, 0x00, 0x00, 0x00, 0x00, 3] ++
      [0x00, 0x00, 0x00, 0x00, 0x00, 0x00, 0x21, 0x40] ++
      [0x00, 0x00, 0x00, 0x00, 0x00, 0x00, 0x31, 0xC0] ++
      [0x00, 0x00, 0x00, 0x00, 0x00, 0x00, 0x31, 0x40]) =
      .ok (.scaleToWire eightHalf range17, []) := by decide +kernel

theorem test_decode_scaleFromWire :
    decode ([0x00, 0x00, 0x00, 0x00, 0x00, 0x00, 0x00, 0x00, 0x00, 0x00, 0x00, 0x00, 0x00, 0x00, 0x00, 0x00, 4, 0x34, 0x12] ++
      [0x00, 0x00, 0x00, 0x00, 0x00, 0x00, 0x31, 0xC0] ++
      [0x00, 0x00, 0x00, 0x00, 0x00, 0x00, 0x31, 0x40]) =
      .ok (.scaleFromWire 0x1234 range17, []) := by decide +kernel

theorem test_decode_encObtainId :
    decode ([0x15, 0x00, 0xFD, 0x80, 0x08, 0x00, 0x00, 0x00, 0x00, 0x00, 0x00, 0x00, 0x00, 0x00, 0x00, 0x00, 5]) =
      .ok (.encObtainId { canId := 21 }, []) := by decide +kernel

theorem test_decode_encControl :
    decode ([0x01, 0xCD, 0xAB, 0x81, 0x08, 0x00, 0x00, 0x00, 0x12, 0x34, 0x56, 0x78, 0x9A, 0xBC, 0xDE, 0xF0, 6]) =
      .ok (.encControl
        { canId := 1, angle := 0x1234, velocity := 0x5678, torque := 0xABCD, kp := 0x9ABC, kd := 0xDEF0 }, []) := by decide +kernel

theorem test_decode_encMotorEnable :
    decode ([0x15, 0x00, 0xFD, 0x83, 0x08, 0x00, 0x00, 0x00, 0x00, 0x00, 0x00, 0x00, 0x00, 0x00, 0x00, 0x00, 7]) =
      .ok (.encMotorEnable { canId := 21 }, []) := by decide +kernel

theorem test_decode_encFeedback :
    decode ([0x15, 0x00, 0xFD, 0x82, 0x08, 0x00, 0x00, 0x00, 0x00, 0x00, 0x00, 0x00, 0x00, 0x00, 0x00, 0x00, 8]) =
      .ok (.encFeedback { canId := 21 }, []) := by decide +kernel

theorem test_decode_encReadAllParams :
    decode ([0x15, 0x00, 0xFD, 0x93, 0x08, 0x00, 0x00, 0x00, 0x01, 0x02, 0x03, 0x04, 0x05, 0x06, 0x07, 0x08, 9]) =
      .ok (.encReadAllParams { canId := 21, mcuUid := 0x0807060504030201 }, []) := by decide +kernel

theorem test_decode_encZeroPosition :
    decode ([0x15, 0x00, 0xFD, 0x86, 0x08, 0x00, 0x00, 0x00, 0x00, 0x00, 0x00, 0x00, 0x00, 0x00, 0x00, 0x00, 10]) =
      .ok (.encZeroPosition { canId := 21 }, []) := by decide +kernel

theorem test_decode_encParamRead :
    decode ([0x15, 0x00, 0xFD, 0x91, 0x08, 0x00, 0x00, 0x00, 0x07, 0x20, 0x00, 0x00, 0x00, 0x00, 0x00, 0x00, 11]) =
      .ok (.encParamRead { canId := 21, index := 0x2007 }, []) := by decide +kernel

theorem test_decode_encParamWrite :
    decode ([0x15, 0x00, 0xFD, 0x92, 0x08, 0x00, 0x00, 0x00, 0x07, 0x20, 0x00, 0x00, 0x11, 0x22, 0x80, 0x3F, 12]) =
      .ok (.encParamWrite { canId := 21, index := 0x2007, data := ⟨0x11, 0x22, 0x80, 0x3F⟩ }, []) := by decide +kernel

theorem test_decode_encDataSave :
    decode ([0x15, 0x00, 0xFD, 0x96, 0x08, 0x00, 0x00, 0x00, 0x00, 0x00, 0x00, 0x00, 0x00, 0x00, 0x00, 0x00, 13]) =
      .ok (.encDataSave { canId := 21 }, []) := by decide +kernel

theorem test_decode_controlFromEng :
    decode ([0x15, 0x00, 0x00, 0x81, 0x00, 0x00, 0x00, 0x00, 0x00, 0x00, 0x00, 0x00, 0x00, 0x00, 0x00, 0x00, 14] ++
      [0x00, 0x00, 0x00, 0x00, 0x00, 0x00, 0x21, 0x40] ++
      [0x00, 0x00, 0x00, 0x00, 0x00, 0x00, 0xE0, 0x3F] ++
      [0x00, 0x00, 0x00, 0x00, 0x00, 0x00, 0xF0, 0x3F] ++
      [0x00, 0x00, 0x00, 0x00, 0x00, 0x00, 0x08, 0x40] ++
      [0x00, 0x00, 0x00, 0x00, 0x00, 0x00, 0x14, 0x40] ++
      [0x00, 0x00, 0x00, 0x00, 0x00, 0x00, 0x29, 0xC0] ++
      [0x00, 0x00, 0x00, 0x00, 0x00, 0x00, 0x29, 0x40] ++
      [0x00, 0x00, 0x00, 0x00, 0x00, 0x00, 0x46, 0xC0] ++
      [0x00, 0x00, 0x00, 0x00, 0x00, 0x00, 0x46, 0x40] ++
      [0x00, 0x00, 0x00, 0x00, 0x00, 0x00, 0x31, 0xC0] ++
      [0x00, 0x00, 0x00, 0x00, 0x00, 0x00, 0x31, 0x40] ++
      [0x00, 0x00, 0x00, 0x00, 0x00, 0x00, 0x00, 0x00] ++
      [0x00, 0x00, 0x00, 0x00, 0x00, 0x40, 0x7F, 0x40] ++
      [0x00, 0x00, 0x00, 0x00, 0x00, 0x00, 0x00, 0x00] ++
      [0x00, 0x00, 0x00, 0x00, 0x00, 0x00, 0x14, 0x40]) =
      .ok (.controlFromEng 21 ⟨eightHalf, half, one, three, five⟩ exampleRanges, []) := by decide +kernel

theorem test_decode_packObtainIdResp :
    decode ([0xFE, 0x15, 0x07, 0xE0, 0x04, 0xAA, 0xBB, 0xCC, 0x01, 0x02, 0x03, 0x04, 0x05, 0x06, 0x07, 0x08, 15]) =
      .ok (.packObtainIdResp
        { host := 0xFE, canId := 21, aux := 7, mcuUid := 0x0807060504030201,
          hdr := { res2 := 3, len := 4, pad := 0xAA, res0 := 0xBB, len8 := 0xCC } }, []) := by decide +kernel

theorem test_decode_packFeedbackResp :
    decode ([0xFD, 0x7F, 0x05, 0xA2, 0x08, 0x00, 0x00, 0x00, 0xFF, 0xFE, 0x00, 0x01, 0x80, 0x00, 0xDE, 0xAD, 16]) =
      .ok (.packFeedbackResp
        { host := 0xFD, canId := 127, status := 5, angle := 0xFFFE, velocity := 1, torque := 0x8000, tail := ⟨0xDE, 0xAD⟩,
          hdr := { Hdr.canonical with res2 := 1 } }, []) := by decide +kernel

theorem test_decode_packReadAllParamsResp :
    decode ([0xFD, 0x15, 0x01, 0x93, 0x08, 0x00, 0x00, 0x00, 0x07, 0x20, 0x3D, 0xCC, 0xCD, 0x3E, 0x01, 0x02, 17]) =
      .ok (.packReadAllParamsResp
        { host := 0xFD, canId := 21, byteMarker := 1, paramCode := 0x2007,
          data := ⟨0x3D, 0xCC, 0xCD, 0x3E, 1, 2⟩, hdr := Hdr.canonical }, []) := by decide +kernel

theorem test_decode_packParamReadResp :
    decode ([0xFD, 0x15, 0x02, 0x91, 0x08, 0x00, 0x00, 0x00, 0x07, 0x20, 0x0A, 0x0B, 0x3D, 0xCC, 0xCD, 0x3E, 18]) =
      .ok (.packParamReadResp
        { host := 0xFD, canId := 21, status := 2, index := 0x2007, rsv := ⟨0x0A, 0x0B⟩,
          data := ⟨0x3D, 0xCC, 0xCD, 0x3E⟩, hdr := Hdr.canonical }, []) := by decide +kernel

theorem test_decode_mux :
    decode ([0x00, 0x00, 0x00, 0x55, 0x00, 0x00, 0x00, 0x00, 0x00, 0x00, 0x00, 0x00, 0x00, 0x00, 0x00, 0x00, 19]) =
      .ok (.mux, []) := by decide +kernel

theorem test_decode_dec :
    decode ([0x00, 0x00, 0x00, 0xAA, 0x00, 0x00, 0x00, 0x00, 0x00, 0x00, 0x00, 0x00, 0x00, 0x00, 0x00, 0x00, 20]) =
      .ok (.dec, []) := by decide +kernel

theorem test_decode_unpackObtainIdResp :
    decode ([0x00, 0x00, 0x00, 0x80, 0x00, 0x00, 0x00, 0x00, 0x00, 0x00, 0x00, 0x00, 0x00, 0x00, 0x00, 0x00, 21]) =
      .ok (.unpackObtainIdResp, []) := by decide +kernel

theorem test_decode_unpackFeedbackResp :
    decode ([0x00, 0x00, 0x00, 0x62, 0x00, 0x00, 0x00, 0x00, 0x00, 0x00, 0x00, 0x00, 0x00, 0x00, 0x00, 0x00, 22]) =
      .ok (.unpackFeedbackResp, []) := by decide +kernel

theorem test_decode_unpackReadAllParamsResp :
    decode ([0x00, 0x00, 0x00, 0x13, 0x00, 0x00, 0x00, 0x00, 0x00, 0x00, 0x00, 0x00, 0x00, 0x00, 0x00, 0x00, 23]) =
      .ok (.unpackReadAllParamsResp, []) := by decide +kernel

theorem test_decode_unpackParamReadResp :
    decode ([0x00, 0x00, 0x00, 0x91, 0x00, 0x00, 0x00, 0x00, 0x00, 0x00, 0x00, 0x00, 0x00, 0x00, 0x00, 0x00, 24]) =
      .ok (.unpackParamReadResp, []) := by decide +kernel

theorem test_decode_unpackObtainIdReq :
    decode ([0x00, 0x00, 0x00, 0x00, 0x00, 0x00, 0x00, 0x00, 0x00, 0x00, 0x00, 0x00, 0x00, 0x00, 0x00, 0x00, 25]) =
      .ok (.unpackObtainIdReq, []) := by decide +kernel

theorem test_decode_unpackControlReq :
    decode ([0x00, 0x00, 0x00, 0x81, 0x00, 0x00, 0x00, 0x00, 0x00, 0x00, 0x00, 0x00, 0x00, 0x00, 0x00, 0x00, 26]) =
      .ok (.unpackControlReq, []) := by decide +kernel

theorem test_decode_unpackMotorEnableReq :
    decode ([0x00, 0x00, 0x00, 0x83, 0x00, 0x00, 0x00, 0x00, 0x00, 0x00, 0x00, 0x00, 0x00, 0x00, 0x00, 0x00, 27]) =
      .ok (.unpackMotorEnableReq, []) := by decide +kernel

theorem test_decode_unpackFeedbackReq :
    decode ([0x00, 0x00, 0x00, 0x02, 0x00, 0x00, 0x00, 0x00, 0x00, 0x00, 0x00, 0x00, 0x00, 0x00, 0x00, 0x00, 28]) =
      .ok (.unpackFeedbackReq, []) := by decide +kernel

theorem test_decode_unpackReadAllParamsReq :
    decode ([0x00, 0x00, 0x00, 0x93, 0x00, 0x00, 0x00, 0x00, 0x00, 0x00, 0x00, 0x00, 0x00, 0x00, 0x00, 0x00, 29]) =
      .ok (.unpackReadAllParamsReq, []) := by decide +kernel

theorem test_decode_unpackZeroPositionReq :
    decode ([0x00, 0x00, 0x00, 0x86, 0x00, 0x00, 0x00, 0x00, 0x00, 0x00, 0x00, 0x00, 0x00, 0x00, 0x00, 0x00, 30]) =
      .ok (.unpackZeroPositionReq, []) := by decide +kernel

theorem test_decode_unpackParamReadReq :
    decode ([0x00, 0x00, 0x00, 0x11, 0x00, 0x00, 0x00, 0x00, 0x00, 0x00, 0x00, 0x00, 0x00, 0x00, 0x00, 0x00, 31]) =
      .ok (.unpackParamReadReq, []) := by decide +kernel

theorem test_decode_unpackParamWriteReq :
    decode ([0x00, 0x00, 0x00, 0x92, 0x00, 0x00, 0x00, 0x00, 0x00, 0x00, 0x00, 0x00, 0x00, 0x00, 0x00, 0x00, 32]) =
      .ok (.unpackParamWriteReq, []) := by decide +kernel

theorem test_decode_unpackDataSaveReq :
    decode ([0x00, 0x00, 0x00, 0x16, 0x00, 0x00, 0x00, 0x00, 0x00, 0x00, 0x00, 0x00, 0x00, 0x00, 0x00, 0x00, 33]) =
      .ok (.unpackDataSaveReq, []) := by decide +kernel

theorem test_decode_feedbackToEng :
    decode ([0x00, 0x00, 0x00, 0x02, 0x00, 0x00, 0x00, 0x00, 0x00, 0x00, 0x00, 0x00, 0x00, 0x00, 0x00, 0x00, 34] ++
      [0x00, 0x00, 0x00, 0x00, 0x00, 0x00, 0x29, 0xC0] ++
      [0x00, 0x00, 0x00, 0x00, 0x00, 0x00, 0x29, 0x40] ++
      [0x00, 0x00, 0x00, 0x00, 0x00, 0x00, 0x46, 0xC0] ++
      [0x00, 0x00, 0x00, 0x00, 0x00, 0x00, 0x46, 0x40] ++
      [0x00, 0x00, 0x00, 0x00, 0x00, 0x00, 0x31, 0xC0] ++
      [0x00, 0x00, 0x00, 0x00, 0x00, 0x00, 0x31, 0x40] ++
      [0x00, 0x00, 0x00, 0x00, 0x00, 0x00, 0x00, 0x00] ++
      [0x00, 0x00, 0x00, 0x00, 0x00, 0x40, 0x7F, 0x40] ++
      [0x00, 0x00, 0x00, 0x00, 0x00, 0x00, 0x00, 0x00] ++
      [0x00, 0x00, 0x00, 0x00, 0x00, 0x00, 0x14, 0x40]) =
      .ok (.feedbackToEng exampleRanges, []) := by decide +kernel

/-- With selector 0 the identifier word selects the first row it fits (log 2). -/
theorem test_decode_by_identifier :
    decodeTableWord 32 0x83000015 = some (.encMotorEnable { canId := 21 }) ∧
    decodeTableWord 32 0x13000000 = some .unpackReadAllParamsResp ∧
    decodeTableWord 32 0x11000000 = some .unpackParamReadResp ∧
    decodeTableWord 32 0x01000000 = some .unpackControlReq ∧
    decodeTableWord 32 0x12000000 = some .unpackParamWriteReq ∧
    decodeTableWord 32 0x16000000 = some .unpackDataSaveReq ∧
    (decodeTableWord 32 0xA2000000).map Instr.operation = some .packFeedbackResp := by decide +kernel

theorem test_decode_refuses :
    decode (List.replicate 16 0) = .error .truncated ∧
    decode (List.replicate 16 0 ++ [35]) = .error (.unknownSelector 35) ∧
    decode ([0, 0, 0, 0x1F] ++ List.replicate 13 0) = .error (.unknownIdentifier 0x1F000000) ∧
    decode ([0, 0, 0, 0x80] ++ List.replicate 12 0 ++ [6]) = .error (.identifierMismatch 0x80000000) ∧
    decode (List.replicate 16 0 ++ [2, 0, 0, 0]) = .error .truncated := by decide

theorem test_decode_leaves_rest :
    decode (encode .mux ++ [1, 2]) = .ok (.mux, [1, 2]) := by decide

/-! ### The operations -/

/-- V-S1. -/
theorem test_scale :
    outcomeOf (exec (.scale eightHalf range17 transportRange) State.reset) = some (.ok (.f64 ⟨0x40E7FFE800000000⟩)) := by decide +kernel

/-- V-S12: 0.1 is not exact in binary. -/
theorem test_scale_rounded :
    outcomeOf (exec (.scale ⟨0x3FB999999999999A⟩ ⟨zero, five⟩ transportRange) State.reset) = some (.ok (.f64 ⟨0x40947ACCCCCCCCCD⟩)) := by decide +kernel

/-- V-Q5: one exact rounding, no `floor(r + 0.5)`. -/
theorem test_quant16_below_half :
    outcomeOf (exec (.quant16 ⟨0x3FDFFFFFFFFFFFFF⟩) State.reset) = some (.ok (.u16 0)) := by decide +kernel

/-- V-Q4: ties away from zero. -/
theorem test_quant16_tie :
    outcomeOf (exec (.quant16 ⟨0x4004000000000000⟩) State.reset) = some (.ok (.u16 3)) := by decide +kernel

/-- V-S4. -/
theorem test_scaleToWire_tie :
    outcomeOf (exec (.scaleToWire zero range17) State.reset) = some (.ok (.u16 32768)) := by decide +kernel

/-- V-S20: rounds to 65536. -/
theorem test_scaleToWire_beyond :
    outcomeOf (exec (.scaleToWire ⟨0x40310013A92A3055⟩ range17) State.reset) = some (.err (.scaleOutOfRange ⟨0x40EFFFF2810624DB⟩)) := by decide +kernel

/-- V-F3. -/
theorem test_scaleFromWire :
    outcomeOf (exec (.scaleFromWire 32768 range17) State.reset) = some (.ok (.f64 ⟨0x3F31001100110000⟩)) := by decide +kernel

/-- V-F6. -/
theorem test_scaleFromWire_exact :
    outcomeOf (exec (.scaleFromWire 13107 ⟨zero, fiveHundred⟩) State.reset) = some (.ok (.f64 ⟨0x4059000000000000⟩)) := by decide +kernel

/-- V-E3. -/
theorem test_encObtainId :
    bytesOf (exec (.encObtainId { canId := 255 }) State.reset) =
      some [0xFF, 0x00, 0xFD, 0x80, 0x08, 0x00, 0x00, 0x00, 0x00, 0x00, 0x00, 0x00, 0x00, 0x00, 0x00, 0x00] := by decide +kernel

/-- V-E18: the single-byte host form. -/
theorem test_encObtainId_short_host :
    bytesOf (exec (.encObtainId { canId := 21 }) { State.reset with
      params := { Params.default with hostData16 := { Params.default.hostData16 with obtainId := 0x00FD } } }) =
      some [0x15, 0xFD, 0x00, 0x80, 0x08, 0x00, 0x00, 0x00, 0x00, 0x00, 0x00, 0x00, 0x00, 0x00, 0x00, 0x00] := by decide +kernel

/-- V-E5. -/
theorem test_encControl :
    bytesOf (exec (.encControl { canId := 1, angle := 0x1234, velocity := 0x5678, torque := 0xABCD, kp := 0x9ABC, kd := 0xDEF0 }) State.reset) =
      some [0x01, 0xCD, 0xAB, 0x81, 0x08, 0x00, 0x00, 0x00, 0x12, 0x34, 0x56, 0x78, 0x9A, 0xBC, 0xDE, 0xF0] := by decide +kernel

/-- V-E9. -/
theorem test_encMotorEnable :
    bytesOf (exec (.encMotorEnable { canId := 21 }) State.reset) =
      some [0x15, 0x00, 0xFD, 0x83, 0x08, 0x00, 0x00, 0x00, 0x00, 0x00, 0x00, 0x00, 0x00, 0x00, 0x00, 0x00] := by decide +kernel

/-- V-E10. -/
theorem test_encFeedback :
    bytesOf (exec (.encFeedback { canId := 21 }) State.reset) =
      some [0x15, 0x00, 0xFD, 0x82, 0x08, 0x00, 0x00, 0x00, 0x00, 0x00, 0x00, 0x00, 0x00, 0x00, 0x00, 0x00] := by decide +kernel

/-- V-E12. -/
theorem test_encReadAllParams :
    bytesOf (exec (.encReadAllParams { canId := 6, mcuUid := 0x0123456789ABCDEF }) State.reset) =
      some [0x06, 0x00, 0xFD, 0x93, 0x08, 0x00, 0x00, 0x00, 0xEF, 0xCD, 0xAB, 0x89, 0x67, 0x45, 0x23, 0x01] := by decide +kernel

/-- V-E13 with `ZERO_POS_PAYLOAD = 01 00 00 00 00 00 00 00`. -/
theorem test_encZeroPosition :
    bytesOf (exec (.encZeroPosition { canId := 21 }) { State.reset with
      params := { Params.default with zeroPosPayload := ⟨1, 0, 0, 0, 0, 0, 0, 0⟩ } }) =
      some [0x15, 0x00, 0xFD, 0x86, 0x08, 0x00, 0x00, 0x00, 0x01, 0x00, 0x00, 0x00, 0x00, 0x00, 0x00, 0x00] := by decide +kernel

/-- V-E14. -/
theorem test_encParamRead :
    bytesOf (exec (.encParamRead { canId := 21, index := 0x2007 }) State.reset) =
      some [0x15, 0x00, 0xFD, 0x91, 0x08, 0x00, 0x00, 0x00, 0x07, 0x20, 0x00, 0x00, 0x00, 0x00, 0x00, 0x00] := by decide +kernel

/-- V-E15: the `f32` 1.0, placed by 41_encode.md R113. -/
theorem test_encParamWrite :
    bytesOf (exec (.encParamWrite { canId := 21, index := 0x2007, data := writeDataF32 0x3F800000 }) State.reset) =
      some [0x15, 0x00, 0xFD, 0x92, 0x08, 0x00, 0x00, 0x00, 0x07, 0x20, 0x00, 0x00, 0x00, 0x00, 0x80, 0x3F] := by decide +kernel

/-- V-E17. -/
theorem test_encDataSave :
    bytesOf (exec (.encDataSave { canId := 21 }) State.reset) =
      some [0x15, 0x00, 0xFD, 0x96, 0x08, 0x00, 0x00, 0x00, 0x00, 0x00, 0x00, 0x00, 0x00, 0x00, 0x00, 0x00] := by decide +kernel

/-- V-E21. -/
theorem test_controlFromEng :
    bytesOf (exec (.controlFromEng 21 ⟨⟨0x4019000000000000⟩, ⟨0xC026000000000000⟩, eightHalf, ⟨0x4059000000000000⟩, one⟩ exampleRanges) State.reset) =
      some [0x15, 0xFF, 0xBF, 0x81, 0x08, 0x00, 0x00, 0x00, 0xBF, 0xFF, 0x60, 0x00, 0x33, 0x33, 0x33, 0x33] := by decide +kernel

/-- V-E26: the angle's error, not the torque's. -/
theorem test_controlFromEng_first_error :
    outcomeOf (exec (.controlFromEng 21 ⟨⟨0x4058C00000000000⟩, zero, ⟨0x4058C00000000000⟩, zero, zero⟩ exampleRanges) State.reset) = some (.err (.scaleOutOfRange ⟨0x4111D6F866666666⟩)) := by decide +kernel

/-- V-E31. -/
theorem test_packObtainIdResp :
    bytesOf (exec (.packObtainIdResp
      { host := 0xFE, canId := 21, aux := 0, mcuUid := 0x0807060504030201, hdr := Hdr.canonical }) State.reset) =
      some [0xFE, 0x15, 0x00, 0x80, 0x08, 0x00, 0x00, 0x00, 0x01, 0x02, 0x03, 0x04, 0x05, 0x06, 0x07, 0x08] := by decide +kernel

/-- V-E35: the header is written as given. -/
theorem test_packFeedbackResp :
    bytesOf (exec (.packFeedbackResp
      { host := 0xFD, canId := 127, status := 5, angle := 0xFFFF, velocity := 1, torque := 0x8000, tail := ⟨0xDE, 0xAD⟩,
        hdr := { res2 := 3, len := 4, pad := 0xAA, res0 := 0xBB, len8 := 0xCC } }) State.reset) =
      some [0xFD, 0x7F, 0x05, 0xE2, 0x04, 0xAA, 0xBB, 0xCC, 0xFF, 0xFF, 0x00, 0x01, 0x80, 0x00, 0xDE, 0xAD] := by decide +kernel

/-- V-E33. -/
theorem test_packReadAllParamsResp :
    bytesOf (exec (.packReadAllParamsResp
      { host := 0xFD, canId := 21, byteMarker := 1, paramCode := 0x2007,
        data := ⟨0, 0, 0, 0, 0, 0⟩, hdr := { Hdr.canonical with len := 4 } }) State.reset) =
      some [0xFD, 0x15, 0x01, 0x93, 0x04, 0x00, 0x00, 0x00, 0x07, 0x20, 0x00, 0x00, 0x00, 0x00, 0x00, 0x00] := by decide +kernel

/-- V-E34. -/
theorem test_packParamReadResp :
    bytesOf (exec (.packParamReadResp
      { host := 0xFD, canId := 21, status := 0, index := 0x2007, rsv := ⟨0, 0⟩,
        data := ⟨0x3D, 0xCC, 0xCC, 0x3D⟩, hdr := Hdr.canonical }) State.reset) =
      some [0xFD, 0x15, 0x00, 0x91, 0x08, 0x00, 0x00, 0x00, 0x07, 0x20, 0x00, 0x00, 0x3D, 0xCC, 0xCC, 0x3D] := by decide +kernel

/-- The examples of 42_decode.md R117. -/
theorem test_mux_sweep :
    ([(0x80, 0x00), (0x82, 0x02), (0x93, 0x13), (0xFF, 0x1F), (0x60, 0x00), (0x11, 0x11)].all fun (b, m) =>
      outcomeOf (exec .mux (onFrame [0xFF, 0xFF, 0xFF, b])) == some (.ok (.u5 m))) = true := by decide +kernel

/-- V-D3: nothing but the mux is checked. -/
theorem test_dec :
    outcomeOf (exec (.dec) (onFrame [0xFD, 0x7F, 0x05, 0x62, 0x04, 0xAA, 0xBB, 0xCC, 0xFF, 0xFF, 0x00, 0x01, 0x80, 0x00, 0xDE, 0xAD])) =
      some (.ok (.response (.feedback
      { host := 0xFD, canId := 127, status := 5, angle := 0xFFFF, velocity := 1, torque := 0x8000, tail := ⟨0xDE, 0xAD⟩,
        hdr := { res2 := 3, len := 4, pad := 0xAA, res0 := 0xBB, len8 := 0xCC } }))) := by decide +kernel

/-- V-D10: a Control request fed to the decoder. -/
theorem test_dec_unknown :
    outcomeOf (exec (.dec) (onFrame [0x15, 0x00, 0xFD, 0x81, 0x08, 0x00, 0x00, 0x00, 0x80, 0x00, 0x80, 0x00, 0x00, 0x00, 0x00, 0x00])) =
      some (.err (.unknownMux 0x01)) := by decide +kernel

/-- The example of 42_decode.md R122. -/
theorem test_unpackObtainIdResp :
    outcomeOf (exec (.unpackObtainIdResp) (onFrame [0xFE, 0x15, 0x00, 0x00, 0x08, 0x00, 0x00, 0x00, 0x01, 0x02, 0x03, 0x04, 0x05, 0x06, 0x07, 0x08])) =
      some (.ok (.obtainIdResp
        { host := 0xFE, canId := 21, aux := 0, mcuUid := 0x0807060504030201, hdr := Hdr.canonical })) := by decide +kernel

/-- The example of 42_decode.md R123. -/
theorem test_unpackFeedbackResp :
    outcomeOf (exec (.unpackFeedbackResp) (onFrame [0xFD, 0x15, 0x00, 0x02, 0x08, 0x00, 0x00, 0x00, 0x80, 0x00, 0x7F, 0xFF, 0xBF, 0xFF, 0x01, 0x2C])) =
      some (.ok (.feedbackResp
        { host := 0xFD, canId := 21, status := 0, angle := 32768, velocity := 32767, torque := 49151, tail := ⟨0x01, 0x2C⟩,
          hdr := Hdr.canonical })) := by decide +kernel

/-- The example of 42_decode.md R124. -/
theorem test_unpackReadAllParamsResp :
    outcomeOf (exec (.unpackReadAllParamsResp) (onFrame [0xFD, 0x15, 0x00, 0x13, 0x08, 0x00, 0x00, 0x00, 0x07, 0x20, 0x3D, 0xCC, 0xCC, 0x3D, 0x00, 0x00])) =
      some (.ok (.readAllParamsResp
        { host := 0xFD, canId := 21, byteMarker := 0, paramCode := 0x2007, data := ⟨0x3D, 0xCC, 0xCC, 0x3D, 0, 0⟩,
          hdr := Hdr.canonical })) := by decide +kernel

/-- The example of 42_decode.md R125. -/
theorem test_unpackParamReadResp :
    outcomeOf (exec (.unpackParamReadResp) (onFrame [0xFD, 0x15, 0x00, 0x11, 0x08, 0x00, 0x00, 0x00, 0x07, 0x20, 0x00, 0x00, 0x3D, 0xCC, 0xCC, 0x3D])) =
      some (.ok (.paramReadResp
        { host := 0xFD, canId := 21, status := 0, index := 0x2007, rsv := ⟨0, 0⟩, data := ⟨0x3D, 0xCC, 0xCC, 0x3D⟩,
          hdr := Hdr.canonical })) := by decide +kernel

/-- V-E1, V-E9, V-E10, V-E13, V-E17, read back. -/
theorem test_unpack_bare_requests :
    outcomeOf (exec .unpackObtainIdReq (onFrame [21])) = some (.ok (.obtainIdReq { canId := 21 })) ∧
    outcomeOf (exec .unpackMotorEnableReq (onFrame [21])) = some (.ok (.motorEnableReq { canId := 21 })) ∧
    outcomeOf (exec .unpackFeedbackReq (onFrame [21])) = some (.ok (.feedbackReq { canId := 21 })) ∧
    outcomeOf (exec .unpackZeroPositionReq (onFrame [21])) = some (.ok (.zeroPositionReq { canId := 21 })) ∧
    outcomeOf (exec .unpackDataSaveReq (onFrame [21])) = some (.ok (.dataSaveReq { canId := 21 })) := by decide +kernel

/-- The example of 42_decode.md R126. -/
theorem test_unpackControlReq :
    outcomeOf (exec (.unpackControlReq) (onFrame [0x01, 0xCD, 0xAB, 0x01, 0x08, 0x00, 0x00, 0x00, 0x12, 0x34, 0x56, 0x78, 0x9A, 0xBC, 0xDE, 0xF0])) =
      some (.ok (.controlReq
        { canId := 1, torque := 0xABCD, angle := 0x1234, velocity := 0x5678, kp := 0x9ABC, kd := 0xDEF0 })) := by decide +kernel

/-- V-E12, read back. -/
theorem test_unpackReadAllParamsReq :
    outcomeOf (exec (.unpackReadAllParamsReq) (onFrame [0x06, 0x00, 0xFD, 0x13, 0x08, 0x00, 0x00, 0x00, 0xEF, 0xCD, 0xAB, 0x89, 0x67, 0x45, 0x23, 0x01])) =
      some (.ok (.readAllParamsReq { canId := 6, mcuUid := 0x0123456789ABCDEF })) := by decide +kernel

/-- V-E14, read back. -/
theorem test_unpackParamReadReq :
    outcomeOf (exec (.unpackParamReadReq) (onFrame [0x15, 0x00, 0xFD, 0x11, 0x08, 0x00, 0x00, 0x00, 0x07, 0x20, 0x00, 0x00, 0x00, 0x00, 0x00, 0x00])) =
      some (.ok (.paramReadReq { canId := 21, index := 0x2007 })) := by decide +kernel

/-- V-E15, read back. -/
theorem test_unpackParamWriteReq :
    outcomeOf (exec (.unpackParamWriteReq) (onFrame [0x15, 0x00, 0xFD, 0x12, 0x08, 0x00, 0x00, 0x00, 0x07, 0x20, 0x00, 0x00, 0x00, 0x00, 0x80, 0x3F])) =
      some (.ok (.paramWriteReq
        { canId := 21, index := 0x2007, data := ⟨0x00, 0x00, 0x80, 0x3F⟩ })) := by decide +kernel

/-- V-D21. -/
theorem test_feedbackToEng :
    outcomeOf (exec (.feedbackToEng exampleRanges) (onFrame [0xFD, 0x15, 0x00, 0x82, 0x08, 0x00, 0x00, 0x00, 0xBF, 0xFF, 0x60, 0x00, 0xBF, 0xFF, 0x01, 0x2C])) =
      some (.ok (.feedbackUpdate 21
        ⟨⟨0x4018FFE6FFE6FFE8⟩, ⟨0xC025FFBDFFBDFFC0⟩, ⟨0x4020FFEEFFEEFFF0⟩⟩)) := by decide +kernel

/-- V-D23. -/
theorem test_feedbackToEng_other_shape :
    outcomeOf (exec (.feedbackToEng exampleRanges) (onFrame [0xFE, 0x15, 0x00, 0x80, 0x08, 0x00, 0x00, 0x00, 0x01, 0x02, 0x03, 0x04, 0x05, 0x06, 0x07, 0x08])) =
      some (.err (.notFeedback 0x00)) := by decide +kernel

/-- V-X1, V-X2. -/
theorem test_errors_leave_nothing :
    stateOf (exec .dec (onFrame [0, 0, 0, 0x1F])) = some ((onFrame [0, 0, 0, 0x1F]).failed (.unknownMux 0x1F)) ∧
    stateOf (exec (.encObtainId { canId := 21 }) ((onFrame [0, 0, 0, 0x1F]).failed (.unknownMux 0x1F))) =
      stateOf (exec (.encObtainId { canId := 21 }) (onFrame [0, 0, 0, 0x1F])) := by decide +kernel

/-- V-X3. -/
theorem test_degenerate_before_out_of_range :
    outcomeOf (exec (.scaleToWire quietNan range3) State.reset) = some (.err (.scaleDegenerateRange range3)) := by decide +kernel

/-- V-Q11, V-Q8, V-S32 with `saturate`. -/
theorem test_saturate :
    outcomeOf (exec (.quant16 ⟨0x40EFFFF000000000⟩) saturating) = some (.ok (.u16 65535)) ∧
    outcomeOf (exec (.quant16 negHalf) saturating) = some (.ok (.u16 0)) ∧
    outcomeOf (exec (.quant16 quietNan) saturating) = some (.ok (.u16 0)) := by decide +kernel

/-- P3 step 2 with `saturate`. -/
theorem test_controlFromEng_saturates :
    bytesOf (exec (.controlFromEng 21 ⟨zero, zero, ⟨0x40310013A92A3055⟩, zero, zero⟩ exampleRanges) saturating) =
      some [0x15, 0xFF, 0xFF, 0x81, 0x08, 0x00, 0x00, 0x00, 0x80, 0x00, 0x80, 0x00, 0x00, 0x00, 0x00, 0x00] := by decide +kernel

theorem test_step_runs_table_word :
    bytesOf (step (State.reset.withFetchWord 32 0x80000015)) =
      some [0x15, 0x00, 0xFD, 0x80, 0x08, 0x00, 0x00, 0x00, 0x00, 0x00, 0x00, 0x00, 0x00, 0x00, 0x00, 0x00] ∧ stateOf (step State.reset) = some State.reset ∧
    stateOf (step (onOp [1])) = none := by decide +kernel

/-! ### The host software beside the block -/

/-- S4, P4: an ObtainId response carrying 6 on a session for 5. -/
theorem test_session_rejects_other_actuator :
    handleResponse Params.default (newSession 5 exampleRanges)
      (frameOfBytes [0xFD, 0x06, 0x00, 0x80, 0x08, 0x00, 0x00, 0x00, 0xEF, 0xCD, 0xAB, 0x89, 0x67, 0x45, 0x23, 0x01]) =
      some ⟨newSession 5 exampleRanges, .error (.protocol .canIdMismatch)⟩ := by decide +kernel

theorem example_table_legal : exampleTable.legal = true := by decide +kernel

def exampleActuators : ActuatorRanges := ⟨exampleTable, example_table_legal⟩

/-- A driver with the session of actuator 21, its UID known, before these receptions. -/
def driver21 (sends : List SendOutcome) (receptions : List Reception) : Driver :=
  { transport := { interface := "can0", sent := [], sendOutcomes := sends, receptions := receptions }
    sessions := [(21, (newSession 21 exampleRanges).identified 0x0807060504030201)] }

/-- A driver with no session. -/
def bareDriver (sends : List SendOutcome) (receptions : List Reception) : Driver :=
  Driver.create { interface := "can0", sent := [], sendOutcomes := sends, receptions := receptions }

def anyOrder : ProbeOrder := ⟨actuatorTypes.reverse, List.reverse_perm _⟩

def answerOf {α : Type} : DriverResult α → Option (Except HostError α)
  | .ended _ a => some a
  | .unstated => none

/-- The frames sent, and the session of actuator 21. -/
def traceOf {α : Type} : DriverResult α → Option (List (List Byte) × Option Session)
  | .ended d _ => some (d.transport.sent.map frameToBytes, d.find 21)
  | .unstated => none

def policy (feeds : Bool) (choice : UnknownMuxChoice) : CollectPolicy :=
  { unknownMux := choice, validLen := fragValidLen, feedsSession := feeds, emptyCounts := false
    emptyIsTimeout := true }

def fragment1 : Frame := frameOfBytes [0xFD, 0x15, 0x00, 0x93, 0x08, 0x00, 0x00, 0x00, 0x07, 0x20, 0x3D, 0xCC, 0xCC, 0x3D, 0x00, 0x00]
def fragment2 : Frame := frameOfBytes [0xFD, 0x15, 0x01, 0x93, 0x04, 0x00, 0x00, 0x00, 0x07, 0x20, 0x00, 0x00, 0x00, 0x00, 0x00, 0x00]
def fragmentEmpty : Frame := frameOfBytes [0xFD, 0x15, 0x01, 0x93, 0x02, 0x00, 0x00, 0x00, 0x07, 0x20, 0x00, 0x00, 0x00, 0x00, 0x00, 0x00]
/-- V-D4, and V-D12: no response has the mux 0x16. -/
def identity21 : Frame := frameOfBytes [0xFE, 0x15, 0x00, 0x80, 0x08, 0x00, 0x00, 0x00, 0x01, 0x02, 0x03, 0x04, 0x05, 0x06, 0x07, 0x08]
def unknownMux : Frame := frameOfBytes [0xFD, 0x15, 0x00, 0x96, 0x08, 0x00, 0x00, 0x00, 0x00, 0x00, 0x00, 0x00, 0x00, 0x00, 0x00, 0x00]

/-- S5, P1: the eight bytes; the request sent; the session Ready where fragments are passed to it. -/
theorem test_readOneParameter :
    answerOf (Driver.readOneParameter Params.default (policy true .skip) (fun b => decide (8 ≤ b.flatten.length)) 5
      (driver21 [] [.frame fragment1, .silent, .frame unknownMux, .frame fragment2, .broken]) 21 0x2007) =
      some (.ok (some [0x3D, 0xCC, 0xCC, 0x3D, 0x00, 0x00, 0x00, 0x00])) ∧
    traceOf (Driver.readOneParameter Params.default (policy true .skip) (fun b => decide (8 ≤ b.flatten.length)) 5
      (driver21 [] [.frame fragment1, .frame fragment2]) 21 0x2007) =
      some ([[0x15, 0x00, 0xFD, 0x93, 0x08, 0x00, 0x00, 0x00, 0x01, 0x02, 0x03, 0x04, 0x05, 0x06, 0x07, 0x08]],
        some { (newSession 21 exampleRanges).identified 0x0807060504030201 with
          lastRequest := some (.readAllParams { canId := 21, mcuUid := 0x0807060504030201 }) }) := by decide +kernel

/-- R153, C9: not at the first fragment, which is answered at the deadline if no other comes. -/
theorem test_readOneParameter_not_at_first :
    answerOf (Driver.readOneParameter Params.default (policy false .skip) (fun _ => true) 5
      (driver21 [] [.frame fragment1, .frame fragment2, .broken]) 21 0x2007) =
      some (.ok (some [0x3D, 0xCC, 0xCC, 0x3D, 0x00, 0x00, 0x00, 0x00])) ∧
    answerOf (Driver.readOneParameter Params.default (policy false .skip) (fun _ => true) 5
      (driver21 [] [.frame fragment1]) 21 0x2007) = some (.ok (some [0x3D, 0xCC, 0xCC, 0x3D, 0x00, 0x00])) := by decide +kernel

/-- A fragment of length 2 has no valid byte; whether it counts is the policy (log 18). -/
theorem test_empty_fragment :
    answerOf (Driver.readAllParameters Params.default (policy false .skip) 2 (driver21 [] [.frame fragmentEmpty]) 21) =
      some (.error .timeout) ∧
    answerOf (Driver.readAllParameters Params.default { policy false .skip with emptyCounts := true } 2
      (driver21 [] [.frame fragmentEmpty]) 21) = some (.ok [(0x2007, [])]) := by decide +kernel

/-- R152, R153: a silent poll ends a full dump that has something. -/
theorem test_readAllParameters :
    answerOf (Driver.readAllParameters Params.default (policy false .fail) 9
      (driver21 [] [.silent, .frame fragment1, .silent, .frame fragment2]) 21) =
      some (.ok [(0x2007, [0x3D, 0xCC, 0xCC, 0x3D, 0x00, 0x00])]) ∧
    answerOf (Driver.readAllParameters Params.default (policy false .fail) 9 (driver21 [] []) 21) =
      some (.error .timeout) ∧
    answerOf (Driver.readAllParameters Params.default (policy false .fail) 9 (driver21 [] [.frame fragment1, .broken]) 21) =
      some (.error .transport) := by decide +kernel

/-- R152, R175: an unknown mux where it fails the loop, an absent session, and no I/O without a UID. -/
theorem test_readAllParameters_errors :
    answerOf (Driver.readAllParameters Params.default (policy false .fail) 9 (driver21 [] [.frame unknownMux]) 21) =
      some (.error (.protocol (.unknownMux 0x16))) ∧
    answerOf (Driver.readAllParameters Params.default (policy false .fail) 9 (bareDriver [] []) 21) =
      some (.error .actuatorNotFound) ∧
    traceOf (Driver.readAllParameters Params.default (policy false .fail) 9
      ((bareDriver [] []).register exampleActuators 21 .robstride03) 21) = some ([], some (newSession 21 exampleRanges)) := by decide +kernel

/-- R149: an empty bus over `10..=12`, one probe for each. -/
theorem test_scan_empty_bus :
    (Driver.scan Params.default exampleActuators anyOrder (bareDriver [] []) 10 12) =
      ({ transport := ⟨"can0", [10, 11, 12].map fun id => requestFrame Params.default (.obtainId ⟨id⟩), [], []⟩,
         sessions := [] }, .ok []) := by decide +kernel

/-- R149: a failed send skips 20; 21 answers the probe and the second ping; 22 is silent. -/
theorem test_scan_finds :
    (let r := Driver.scan Params.default exampleActuators anyOrder
        (bareDriver [.failed] [.frame identity21, .silent, .frame identity21]) 20 22;
      (r.2, r.1.sessions.map (·.1), (r.1.find 21).bind (·.mcuUid), r.1.transport.sent.length)) =
      (.ok [21], [21], some 0x0807060504030201, 4) := by decide +kernel

/-- R149, R175: a failed receive is surfaced; a response that does not match leaves no session. -/
theorem test_scan_broken_receive :
    (Driver.scan Params.default exampleActuators anyOrder (bareDriver [] [.frame identity21, .broken]) 21 30).2 =
      .error .transport ∧
    (Driver.pingOne Params.default (bareDriver [] [.frame unknownMux]) exampleActuators 21 .robstride01).2 = .ok false ∧
    (Driver.pingOne Params.default (bareDriver [] [.frame identity21]) exampleActuators 20 .robstride01).1.sessions = [] := by decide +kernel

/-- R151, P2. -/
theorem test_commands :
    answerOf (Driver.enable Params.default (driver21 [] [.frame (frameOfBytes [0xFD, 0x15, 0x00, 0x82, 0x08, 0x00, 0x00, 0x00, 0x80, 0x00, 0x80, 0x00, 0x80, 0x00, 0x00, 0x00])]) 21) = some (.ok ()) ∧
    answerOf (Driver.enable Params.default (driver21 [] []) 21) = some (.error .timeout) ∧
    answerOf (Driver.enable Params.default ((driver21 [] []).remove 21) 21) = some (.error .actuatorNotFound) ∧
    answerOf (Driver.move Params.default (driver21 [.failed] []) 21 zeroCommand) = some (.error .transport) ∧
    (traceOf (Driver.requestFeedback Params.default (driver21 [] [.frame (frameOfBytes [0xFD, 0x15, 0x00, 0x82, 0x08, 0x00, 0x00, 0x00, 0xBF, 0xFF, 0x60, 0x00, 0xBF, 0xFF, 0x01, 0x2C])]) 21)).map (·.1) =
      some [[0x15, 0x00, 0xFD, 0x82, 0x08, 0x00, 0x00, 0x00, 0x00, 0x00, 0x00, 0x00, 0x00, 0x00, 0x00, 0x00]] := by decide +kernel

/-- R142. -/
theorem test_lookup :
    (lookupParameter 0x2007).map (fun info => (info.name, info.type)) = some ("limit_torque", .float32) := by decide +kernel

/-- V-H1, V-H2, V-H7, V-H6, V-H13. -/
theorem test_param_values :
    decodeParamValue [0x3D, 0xCC, 0xCC, 0x3D, 0, 0, 0, 0] .float32 = some (.float32 0x3DCCCC3D) ∧
    decodeParamValue [0x3D, 0xCC, 0xCC] .float32 = none ∧
    decodeParamValue [0xFE, 0xFF, 0xFF, 0xFF] .int32 = some (.int32 (-2)) ∧
    decodeParamValue [0x00, 0x80] .int16 = some (.int16 (-32768)) ∧
    decodeParamValue [] .string = some (.string []) := by decide +kernel

/-- V-H11. -/
theorem test_param_string :
    decodeParamValue [0x52, 0x53, 0x30, 0x31, 0x00, 0x41, 0x42] .string = some (.string [0x52, 0x53, 0x30, 0x31]) := by decide +kernel

/-! ### Witnesses: concrete states and operands that meet the hypotheses of the statements -/

/-- A next state is known by its value. -/
theorem next_of_stateOf {o : Host.Outcome State Fault Refusal} {t : State} (h : stateOf o = some t) : o = .next t := by
  cases o with
  | next s => exact congrArg Host.Outcome.next (Option.some.inj h)
  | fault => cases h
  | refused => cases h

/-- A canonical frame of the given mux, with bit 7 set and every other byte filled. -/
def framed (top : Byte) : State := onFrame [0xFD, 0x15, 0x00, top, 8, 0, 0, 0, 0x80, 0, 0x7F, 0xFF, 0xBF, 0xFF, 1, 0x2C]

theorem witness_StepRunsIssuedOperation :
    decode (onOp (encode .mux ++ [7])).op = .ok (.mux, [7]) ∧ State.reset.op = [] := by decide +kernel

theorem witness_ResponseRowsSelectTheShape : (framed 0x82).params = Params.default := by decide +kernel

/-- A state with an operation issued meets the invariant, and its step answers a next state that is another state. -/
theorem witness_StepKeepsInvariant :
    (onOp (encode (.encObtainId { canId := 255 }))).Inv ∧
    ∃ t, step (onOp (encode (.encObtainId { canId := 255 }))) = .next t ∧ t.frameOut ≠ none := by
  refine ⟨⟨by decide, by decide, fun _ => ⟨nofun, nofun⟩, nofun⟩, _, rfl, by decide +kernel⟩

theorem witness_OutcomesDoNotPersist :
    exec (.scaleToWire zero range3) State.reset = .next (State.reset.failed (.scaleDegenerateRange range3)) ∧
    (State.reset.failed (.scaleDegenerateRange range3)).result = some (.err (.scaleDegenerateRange range3)) :=
  ⟨next_of_stateOf (by decide +kernel), rfl⟩

theorem witness_OperationsKeepTheirInputs :
    (∃ t, exec .mux (framed 0x82) = .next t) ∧ (∃ t, step { framed 0x82 with op := encode .mux } = .next t) :=
  ⟨⟨_, rfl⟩, ⟨_, rfl⟩⟩

theorem witness_OnlyBuildersPutAFrameOut :
    (∃ t, exec (.encDataSave { canId := 0 }) State.reset = .next t ∧ t.frameOut.isSome = true) ∧
    (∃ t, exec .mux State.reset = .next t ∧ t.frameOut = none) :=
  ⟨⟨_, rfl, rfl⟩, ⟨_, rfl, rfl⟩⟩

/-- The last byte position, and the addresses on both sides of a run. -/
theorem witness_FrameWriteReadsBack :
    15 + [(0xFF : Byte)].length ≤ 16 ∧ (14 < 15 ∨ 15 + [(0xFF : Byte)].length ≤ 14) ∧
    (16 < 15 ∨ 15 + [(0xFF : Byte)].length ≤ 16) ∧ Memory.wf (framed 0x82).frameIn = true := by decide +kernel

theorem witness_MuxIsIdentifierBits :
    (Memory.read (framed 0xE2).frameIn 3).toNat % 32 = (Memory.read (framed 0x02).frameIn 3).toNat % 32 ∧
    (framed 0xE2).frameIn ≠ (framed 0x02).frameIn := by decide +kernel

theorem witness_MuxOperation :
    Memory.read (framed 0xFF).frameIn 3 &&& 0x1F = Memory.read (framed 0x1F).frameIn 3 &&& 0x1F := by decide +kernel

theorem witness_SetEffIsTheLastStep :
    Operation.buildsFrame (Instr.operation (.encDataSave { canId := 0 })) = true ∧
    ∃ t f, exec (.encDataSave { canId := 0 }) State.reset = .next t ∧ t.frameOut = some f :=
  ⟨rfl, _, _, rfl, rfl⟩

theorem witness_UnassignedBytesAreZero :
    (Operation.buildsFrame (Instr.operation (.encObtainId { canId := 255 })) = true ∧
      ∃ t f, exec (.encObtainId { canId := 255 }) State.reset = .next t ∧ t.frameOut = some f) ∧
    (∃ t f, exec (.encMotorEnable { canId := 255 }) State.reset = .next t ∧ t.frameOut = some f) ∧
    (∃ t f, exec (.encFeedback { canId := 255 }) State.reset = .next t ∧ t.frameOut = some f) ∧
    (∃ t f, exec (.encParamRead { canId := 255, index := 0xFFFF }) State.reset = .next t ∧ t.frameOut = some f) ∧
    (∃ t f, exec (.encParamWrite { canId := 255, index := 0xFFFF, data := ⟨0xFF, 0xFF, 0xFF, 0xFF⟩ }) State.reset =
      .next t ∧ t.frameOut = some f) :=
  ⟨⟨rfl, _, _, rfl, rfl⟩, ⟨_, _, rfl, rfl⟩, ⟨_, _, rfl, rfl⟩, ⟨_, _, rfl, rfl⟩, ⟨_, _, rfl, rfl⟩⟩

theorem witness_DecDispatchesOnTheMux :
    ((Memory.read (framed 0xE0).frameIn 3).toNat % 32 = 0x00 ∧ (framed 0xE0).params.decodableMux.obtainId = true) ∧
    ((Memory.read (framed 0xE2).frameIn 3).toNat % 32 = 0x02 ∧ (framed 0xE2).params.decodableMux.feedback = true) ∧
    ((Memory.read (framed 0x91).frameIn 3).toNat % 32 = 0x11 ∧ (framed 0x91).params.decodableMux.paramRead = true) ∧
    ((Memory.read (framed 0x13).frameIn 3).toNat % 32 = 0x13 ∧ (framed 0x13).params.decodableMux.readAllParams = true) ∧
    (¬ (((Memory.read (framed 0x81).frameIn 3).toNat % 32 = 0x00 ∧ (framed 0x81).params.decodableMux.obtainId = true) ∨
        ((Memory.read (framed 0x81).frameIn 3).toNat % 32 = 0x02 ∧ (framed 0x81).params.decodableMux.feedback = true) ∨
        ((Memory.read (framed 0x81).frameIn 3).toNat % 32 = 0x11 ∧ (framed 0x81).params.decodableMux.paramRead = true) ∨
        ((Memory.read (framed 0x81).frameIn 3).toNat % 32 = 0x13 ∧
          (framed 0x81).params.decodableMux.readAllParams = true))) := by decide +kernel

theorem witness_DecStepsInOrder :
    decodable (framed 0x9F).params (muxOf (clearEff (framed 0x9F).frameIn)) = false ∧
    ([(0xE0, 0x00), (0xE2, 0x02), (0x91, 0x11), (0x93, 0x13)].all fun (b, m) =>
      decide ((muxOf (clearEff (framed b).frameIn)).toNat = m) &&
      decodable (framed b).params (muxOf (clearEff (framed b).frameIn))) = true ∧
    saturating.frameIn = State.reset.frameIn ∧
    saturating.params.decodableMux = State.reset.params.decodableMux := by decide +kernel

theorem witness_DecodingIgnoresTheFlag :
    (∀ a, a < 16 → a ≠ 3 → Memory.read (framed 0x02).frameIn a = Memory.read (framed 0x82).frameIn a) ∧
    (∀ a, 16 ≤ a → Memory.read (framed 0x02).frameIn a = Memory.read (framed 0x82).frameIn a) ∧
    (Memory.read (framed 0x02).frameIn 3).toNat % 128 = (Memory.read (framed 0x82).frameIn 3).toNat % 128 := by
  refine ⟨by decide +kernel, fun a ha => ?_, by decide +kernel⟩
  rw [Memory.read_ge_of_wfFrom (lo := 0) (by decide +kernel) ha, Memory.read_ge_of_wfFrom (lo := 0) (by decide +kernel) ha]

theorem witness_ResponsesRoundTrip :
    State.reset.params.decodableMux.obtainId = true ∧ State.reset.params.decodableMux.feedback = true ∧
    State.reset.params.decodableMux.readAllParams = true ∧ State.reset.params.decodableMux.paramRead = true := by
  decide

theorem witness_ResponsesAreLossless :
    ([(0x60, 0x00), (0xE2, 0x02), (0x93, 0x13), (0x11, 0x11)].all fun (b, m) =>
      Memory.wf (framed b).frameIn && decide ((Memory.read (framed b).frameIn 3).toNat % 32 = m)) = true := by
  decide +kernel

/-- The largest finite value, a subnormal, exact zero results, a NaN, and infinities of both signs. -/
theorem witness_SumsAreCorrectlyRounded :
    F64.isFinite ⟨0x7FEFFFFFFFFFFFFF⟩ = true ∧ F64.isFinite ⟨0x8000000000000001⟩ = true ∧
    half.value + negHalf.value = 0 ∧ negZero.value - zero.value = 0 ∧ quietNan.isNaN = true ∧
    infinity.isInf = true ∧ F64.isInf ⟨0xFFF0000000000000⟩ = true ∧
    infinity.sign ≠ F64.sign ⟨0xFFF0000000000000⟩ := by
  unfold F64.value; decide +kernel

/-- As above, and zeros as factor, dividend and divisor. -/
theorem witness_ProductsAreCorrectlyRounded :
    F64.isFinite ⟨0x7FEFFFFFFFFFFFFF⟩ = true ∧ F64.isZero ⟨0x8000000000000001⟩ = false ∧ negZero.isZero = true ∧
    zero.isZero = true ∧ quietNan.isNaN = true ∧ infinity.isInf = true ∧ infinity.isNaN = false ∧
    infinity.isZero = false ∧ (one.mul infinity).isNaN = false ∧ (one.div infinity).isNaN = false := by decide +kernel

theorem witness_ComparisonIsByValue :
    negZero.isFinite = true ∧ F64.isFinite ⟨0x8000000000000001⟩ = true ∧ quietNan.isNaN = true ∧
    (infinity.isInf = true ∧ infinity.sign = false) ∧
    (F64.isInf ⟨0xFFF0000000000000⟩ = true ∧ F64.sign ⟨0xFFF0000000000000⟩ = true) ∧
    F64.isNaN ⟨0x7FEFFFFFFFFFFFFF⟩ = false ∧ infinity.isNaN = false := by decide +kernel

theorem witness_ScaleCompletes :
    State.reset.params.numerics = .ieee754 ∧ range17.max.eq range17.min = false := by decide +kernel

/-- `+0.0` and `-0.0` are equal ends; a scaled value that rounds to no code on a range whose ends differ. -/
theorem witness_ScalerTraps :
    F64.eq negZero zero = true ∧ State.reset.params.quantPolicy = .fault ∧
    (∃ r : F64, exec (.scale infinity range17 transportRange) State.reset = .next (State.reset.answered (.f64 r)) ∧
      ¬ r.hasCode State.reset.params.quantRound) := by
  refine ⟨by decide +kernel, rfl, infinity, next_of_stateOf (by decide +kernel), ?_⟩
  unfold F64.hasCode F64.value
  decide +kernel

/-- Just above `-1/2`, at a tie, and just below `65535.5`. -/
theorem witness_QuantiseInRange :
    F64.hasCode .tiesAway ⟨0xBFDFFFFFFFFFFFFF⟩ ∧ half.hasCode .tiesEven ∧ F64.hasCode .tiesAway ⟨0x40EFFFEFFFFFFFFF⟩ ∧
    negHalf.hasCode .halfUp := by
  unfold F64.hasCode F64.value; decide +kernel

/-- A NaN, an infinity, just below `-1/2`, `65535.5` itself, and `-1/2`; under either policy. -/
theorem witness_QuantiseOutOfRange :
    ¬ quietNan.hasCode .tiesAway ∧ ¬ infinity.hasCode .tiesEven ∧ ¬ F64.hasCode .halfUp ⟨0xBFE0000000000001⟩ ∧
    ¬ F64.hasCode .tiesAway ⟨0x40EFFFF000000000⟩ ∧ ¬ negHalf.hasCode .tiesAway ∧
    State.reset.params.quantRound = .tiesAway ∧ State.reset.params.quantPolicy = .fault ∧
    saturating.params.quantRound = .tiesAway ∧ saturating.params.quantPolicy = .saturate := by
  unfold F64.hasCode F64.value; decide +kernel

/-- A value a little beyond the upper end of its range still rounds to a code (V-S18); the range of V-S20. -/
theorem witness_ScaleToWireCompletes :
    range17.max.eq range17.min = false ∧ saturating.params.quantPolicy = .saturate ∧
    ∃ r, exec (.scale ⟨0x403100068DB8BAC7⟩ range17 transportRange) State.reset = .next (State.reset.answered (.f64 r)) ∧
      r.hasCode State.reset.params.quantRound :=
  ⟨by decide +kernel, rfl, scaleFormula .ieee754 ⟨0x403100068DB8BAC7⟩ range17 transportRange,
    next_of_stateOf (by decide +kernel), by unfold F64.hasCode F64.value; decide +kernel⟩

theorem witness_ScaleToWireAtTheEnds :
    State.reset.params.numerics = .ieee754 ∧ range17.finite = true ∧ range17.max.eq range17.min = false ∧ negSeventeen.eq range17.min = true ∧
    (range17.max.sub range17.min).isFinite = true := by decide +kernel

theorem witness_ZeroOfSymmetricRangeIs32768 :
    State.reset.params.numerics = .ieee754 ∧ negZero.isZero = true ∧ range17.finite = true ∧ range17.symmetric = true ∧ range17.max.eq range17.min = false ∧
    (range17.max.sub range17.min).isFinite = true := by decide +kernel

theorem witness_ScaleToWireIsMonotone :
    State.reset.params.numerics = .ieee754 ∧
    range17.finite = true ∧ range17.min.le range17.max = true ∧ zero.isFinite = true ∧ eightHalf.isFinite = true ∧
    zero.le eightHalf = true ∧ exec (.scaleToWire zero range17) State.reset = .next (State.reset.answered (.u16 32768)) ∧
    exec (.scaleToWire eightHalf range17) State.reset = .next (State.reset.answered (.u16 49151)) :=
  ⟨rfl, by decide +kernel, by decide +kernel, by decide +kernel, by decide +kernel, by decide +kernel,
    next_of_stateOf (by decide +kernel), next_of_stateOf (by decide +kernel)⟩

theorem witness_ScaleFromWireAtTheEnds :
    State.reset.params.numerics = .ieee754 ∧ range17.finite = true ∧ (range17.max.sub range17.min).isFinite = true := by decide +kernel

/-- The command of V-E21 on the example ranges, and with `saturate` the torque of V-E24. -/
theorem witness_ControlFromEngCompletes :
    exampleRanges.angle.admits Params.default ⟨0x4019000000000000⟩ ∧
    exampleRanges.velocity.admits Params.default ⟨0xC026000000000000⟩ ∧
    exampleRanges.torque.admits Params.default eightHalf ∧ exampleRanges.kp.admits Params.default ⟨0x4059000000000000⟩ ∧
    exampleRanges.kd.admits Params.default one ∧ exampleRanges.torque.admits saturating.params ⟨0x40310013A92A3055⟩ := by
  unfold PhysicalRange.admits F64.hasCode F64.value; decide +kernel

/-- Each axis in turn is the first to fail: zero is admitted on every example range, and no value on `{3, 3}`. -/
theorem witness_ControlFromEngFirstError :
    (exec (.scaleToWire zero range3) State.reset = .next (State.reset.failed (.scaleDegenerateRange range3))) ∧
    exec (.scaleToWire zero exampleRanges.angle) State.reset = .next (State.reset.answered (.u16 32768)) ∧
    exec (.scaleToWire zero exampleRanges.velocity) State.reset = .next (State.reset.answered (.u16 32768)) ∧
    exec (.scaleToWire zero exampleRanges.torque) State.reset = .next (State.reset.answered (.u16 32768)) ∧
    exec (.scaleToWire zero exampleRanges.kp) State.reset = .next (State.reset.answered (.u16 0)) :=
  ⟨witness_OutcomesDoNotPersist.1, next_of_stateOf (by decide +kernel), next_of_stateOf (by decide +kernel),
    next_of_stateOf (by decide +kernel), next_of_stateOf (by decide +kernel)⟩

theorem witness_ZeroCommandEndToEnd :
    State.reset.params.numerics = .ieee754 ∧
    (zeroCommand.qpos.isZero = true ∧ zeroCommand.qvel.isZero = true ∧ zeroCommand.qfrc.isZero = true ∧
      zeroCommand.kp.isZero = true ∧ zeroCommand.kd.isZero = true) ∧
    (∀ r ∈ [exampleRanges.angle, exampleRanges.velocity, exampleRanges.torque], r.finite = true ∧ r.symmetric = true ∧
      r.max.eq r.min = false ∧ (r.max.sub r.min).isFinite = true) ∧
    (∀ r ∈ [exampleRanges.kp, exampleRanges.kd], r.finite = true ∧ r.min.isZero = true ∧ r.max.eq r.min = false) := by
  decide +kernel

theorem witness_FeedbackToEngCompletes :
    (Memory.read (framed 0x82).frameIn 3).toNat % 32 = 0x02 ∧ (framed 0x82).params.decodableMux.feedback = true := by
  decide +kernel

theorem witness_FeedbackToEngErrors :
    exec .dec (framed 0x81) = .next ((framed 0x81).failed (.unknownMux 0x01)) ∧
    (∃ m, exec .dec (framed 0x80) = .next ((framed 0x80).answered (.response (.obtainId m)))) :=
  ⟨next_of_stateOf (by decide +kernel), _, rfl⟩

theorem witness_StageRequestEncodes :
    (∃ r, buildRequest Params.default { newSession 21 exampleRanges with mcuUid := some 7 } .readAllParams = .ok r) ∧
    (∃ r, buildRequest Params.default (newSession 21 exampleRanges) .dataSave = .ok r) ∧
    State.reset.params = Params.default :=
  ⟨⟨_, rfl⟩, ⟨_, rfl⟩, rfl⟩

/-- The three shapes, with the session's identifier and with another. -/
theorem witness_SessionHandlesResponses :
    (∃ m, exec .dec (framed 0x80) = .next ((framed 0x80).answered (.response (.obtainId m))) ∧
      m.canId = (newSession 0x15 exampleRanges).canId ∧ m.canId ≠ (newSession 0x16 exampleRanges).canId) ∧
    (∃ m, exec .dec (framed 0x82) = .next ((framed 0x82).answered (.response (.feedback m))) ∧
      m.canId = (newSession 0x15 exampleRanges).canId ∧ m.canId ≠ (newSession 0x16 exampleRanges).canId) ∧
    (∃ m, exec .dec (framed 0x93) = .next ((framed 0x93).answered (.response (.readAllParams m)))) :=
  ⟨⟨_, rfl, by decide +kernel, by decide +kernel⟩, ⟨_, rfl, by decide +kernel, by decide +kernel⟩, ⟨_, rfl⟩⟩

theorem witness_SessionSurvivesDecodeFailure :
    exec .dec (framed 0x9F) = .next ((framed 0x9F).failed (.unknownMux 0x1F)) := next_of_stateOf (by decide +kernel)

/-- A span of each length at the widths' boundary, and a text without a zero byte. -/
theorem witness_ParameterValueWidths :
    [(0 : Byte)].length < 2 ∧ 0xFFFF = (0xFF : Byte).toNat + 256 * (0xFF : Byte).toNat ∧
    0x3DCCCC3D = (0x3D : Byte).toNat + 2 ^ 8 * (0xCC : Byte).toNat + 2 ^ 16 * (0xCC : Byte).toNat +
      2 ^ 24 * (0x3D : Byte).toNat ∧
    ∀ b ∈ [(0x52 : Byte), 0x53], b ≠ 0 ∧ b.toNat < 128 := by decide

end Sys2Proof.Tests
end

section
/-! The byte-order primitives as numbers (00_scope.md R11): each value is built one byte at a time, so one
rule for a byte appended below a value gives every reading, and one rule for byte `k` gives every listing. -/

namespace Sys2Proof

/-! ### Readings -/

/-- A byte appended below a value weighs the value's own bytes 256 times as much. -/
theorem append_byte_toNat {w : Nat} (hi : BitVec w) (lo : Byte) : (hi ++ lo).toNat = 256 * hi.toNat + lo.toNat := by
  rw [BitVec.toNat_append, ← Nat.shiftLeft_add_eq_or_of_lt lo.isLt, Nat.shiftLeft_eq]
  omega

theorem le32_toNat (b0 b1 b2 b3 : Byte) :
    (le32 b0 b1 b2 b3).toNat = b0.toNat + 2 ^ 8 * b1.toNat + 2 ^ 16 * b2.toNat + 2 ^ 24 * b3.toNat := by
  unfold le32
  rw [append_byte_toNat, append_byte_toNat, append_byte_toNat]
  omega

theorem le64_toNat (b : Bytes8) :
    (le64 b).toNat = b.b0.toNat + 2 ^ 8 * b.b1.toNat + 2 ^ 16 * b.b2.toNat + 2 ^ 24 * b.b3.toNat +
      2 ^ 32 * b.b4.toNat + 2 ^ 40 * b.b5.toNat + 2 ^ 48 * b.b6.toNat + 2 ^ 56 * b.b7.toNat := by
  unfold le64
  rw [append_byte_toNat, append_byte_toNat, append_byte_toNat, append_byte_toNat, append_byte_toNat,
    append_byte_toNat, append_byte_toNat]
  omega

/-! ### Listings -/

/-- Byte `k` of a value as a number, past the value's width too (where both sides are 0). -/
theorem byteOf_toNat {w : Nat} (v : BitVec w) (k : Nat) : (byteOf v k).toNat = v.toNat / 2 ^ (8 * k) % 256 := by
  unfold byteOf
  rw [BitVec.extractLsb'_toNat, Nat.shiftRight_eq_div_pow]

@[simp] theorem bytesLe_length {w : Nat} (v : BitVec w) (n : Nat) : (bytesLe v n).length = n := by
  unfold bytesLe
  rw [List.length_map, List.length_range]

theorem bytesLe_getD {w : Nat} (v : BitVec w) {n k : Nat} (hk : k < n) : (bytesLe v n).getD k 0 = byteOf v k := by
  have hlen : k < (bytesLe v n).length := by rwa [bytesLe_length]
  rw [List.getD_eq_getElem _ _ hlen]
  simp only [bytesLe, List.getElem_map, List.getElem_range]

/-! ### The exchange of two bytes -/

/-- `bswap16` exchanges the two bytes of its operand. -/
theorem bswap16_toNat (v : BitVec 16) : (bswap16 v).toNat = 256 * (v.toNat % 256) + v.toNat / 256 := by
  have low : (byteOf v 0).toNat = v.toNat % 256 := by rw [byteOf_toNat, Nat.mul_zero, Nat.pow_zero, Nat.div_one]
  have high : (byteOf v 1).toNat = v.toNat / 256 :=
    (byteOf_toNat v 1).trans (Nat.mod_eq_of_lt (Nat.div_lt_of_lt_mul v.isLt))
  unfold bswap16
  rw [be16_toNat, low, high]

/-- Settles O11: each clause is the primitive's own rule above or in Laws/Bytes. -/
theorem byteOrderPrimitives : Obligations.ByteOrderPrimitives := by
  have bytesLe_spec : ∀ (w : Nat) (v : BitVec w) (n : Nat), (bytesLe v n).length = n ∧
      ∀ k, k < n → ((bytesLe v n).getD k 0).toNat = v.toNat / 2 ^ (8 * k) % 256 := fun _ v n =>
    ⟨bytesLe_length v n, fun k hk => by rw [bytesLe_getD v hk, byteOf_toNat]⟩
  exact ⟨le16_toNat, be16_toNat, le32_toNat, le64_toNat, bytesLe_spec, fun _ _ _ => rfl,
    fun v => ⟨bytesLe_two v, rfl, bswap16_toNat v⟩⟩

end Sys2Proof
end

section
/-! The identifier word of a frame (20_memory.md R31): byte 3 stands above the other three bytes, so every bit from 24
on is a bit of byte 3. -/

namespace Sys2Proof

/-- A byte appended below a value moves the value's own bits up by 8. -/
theorem append_byte_getLsbD {w : Nat} (hi : BitVec w) (lo : Byte) (k : Nat) :
    (hi ++ lo).getLsbD (8 + k) = hi.getLsbD k := by
  rw [BitVec.getLsbD_append, if_neg (by omega), Nat.add_sub_cancel_left]

/-- The top byte of `le32`, bit by bit; past the word's width both sides are `false`. -/
theorem le32_getLsbD_topByte (b0 b1 b2 b3 : Byte) (k : Nat) :
    (le32 b0 b1 b2 b3).getLsbD (24 + k) = b3.getLsbD k := by
  have hk : 24 + k = 8 + (8 + (8 + k)) := by omega
  unfold le32
  rw [hk, append_byte_getLsbD, append_byte_getLsbD, append_byte_getLsbD]

namespace Machine

theorem frameIdentifier_toNat (f : Frame) :
    (frameIdentifier f).toNat = (Memory.read f 0).toNat + 2 ^ 8 * (Memory.read f 1).toNat +
      2 ^ 16 * (Memory.read f 2).toNat + 2 ^ 24 * (Memory.read f 3).toNat :=
  le32_toNat _ _ _ _

theorem frameIdentifier_getLsbD_topByte (f : Frame) (k : Nat) :
    (frameIdentifier f).getLsbD (24 + k) = (Memory.read f 3).getLsbD k :=
  le32_getLsbD_topByte _ _ _ _ k

/-- Settles O13: the sum is the reading of `le32`, and both bit clauses are the rule for the top byte, at bit 7 and at
bits 0 to 4. -/
theorem identifierIsLittleEndian : Obligations.IdentifierIsLittleEndian := fun f =>
  ⟨frameIdentifier_toNat f, frameIdentifier_getLsbD_topByte f 7, fun k _ => frameIdentifier_getLsbD_topByte f k⟩

end Machine

end Sys2Proof
end

section
/-! The mux of a frame (30_encoding.md R44): byte 3 is the top byte of the identifier word, and the mux is that byte's
low five bits, which the extended-frame flag at bit 7 is none of. -/

namespace Sys2Proof.Machine

theorem frameIdentifier_div_topByte (f : Frame) : (frameIdentifier f).toNat / 2 ^ 24 = (Memory.read f 3).toNat := by
  have h0 := (Memory.read f 0).isLt
  have h1 := (Memory.read f 1).isLt
  have h2 := (Memory.read f 2).isLt
  rw [frameIdentifier_toNat]
  omega

theorem muxOf_toNat_identifier (f : Frame) : (muxOf f).toNat = (frameIdentifier f).toNat / 2 ^ 24 % 32 := by
  rw [frameIdentifier_div_topByte, muxOf_toNat]

/-- Nothing of a frame but the low five bits of byte 3 matters to its mux. -/
theorem muxOf_eq_of_lowBits {f g : Frame} (h : (Memory.read g 3).toNat % 32 = (Memory.read f 3).toNat % 32) :
    muxOf g = muxOf f :=
  BitVec.eq_of_toNat_eq (by rw [muxOf_toNat, muxOf_toNat, h])

/-- Settles O14: the two readings of the mux, its dependence on the five bits alone, and Laws' two rules for the flag. -/
theorem muxIsIdentifierBits : Obligations.MuxIsIdentifierBits := fun f =>
  ⟨muxOf_toNat f, muxOf_toNat_identifier f, fun _ => muxOf_eq_of_lowBits, muxOf_clearEff f, muxOf_setEff f⟩

end Sys2Proof.Machine
end

section
/-! The flag as the last step of every builder (41_encode.md R97): `SET_EFF` reads as its one byte says, and the only
frame an operation can leave on `frame_out` is one of `buildFrame`, whose outermost step is `SET_EFF`. -/

namespace Sys2Proof.Machine

/-- Bit 7 of byte 3 is bit 31 of the identifier word. -/
theorem frameIdentifier_setEff_ge (f : Frame) : 0x80000000 ≤ (frameIdentifier (setEff f)).toNat := by
  have flagged : 0x80 ≤ (Memory.read (setEff f) 3).toNat := by
    rw [read_setEff, if_pos rfl, BitVec.toNat_or]
    exact Nat.right_le_or
  rw [frameIdentifier_toNat]
  omega

/-! ### The frame on `frame_out` -/

theorem frameOut_of_built {s t : State} {f g : Frame}
    (h : (Host.Outcome.next (s.built g) : Host.Outcome State Fault Refusal) = .next t) (hf : t.frameOut = some f) :
    f = g := by
  cases h
  exact (Option.some.inj hf).symm

theorem frameOut_of_answered {s t : State} {v : Value}
    (h : (Host.Outcome.next (s.answered v) : Host.Outcome State Fault Refusal) = .next t) : t.frameOut = none := by
  cases h
  rfl

theorem frameOut_of_failed {s t : State} {e : OpError}
    (h : (Host.Outcome.next (s.failed e) : Host.Outcome State Fault Refusal) = .next t) : t.frameOut = none := by
  cases h
  rfl

/-- Whatever the operation, a frame it leaves on `frame_out` comes from the shared steps of the builders. -/
theorem frameOut_is_buildFrame {i : Instr} {s t : State} {f : Frame} (h : exec i s = .next t)
    (hf : t.frameOut = some f) : ∃ dst data16 mux hdr payload, f = buildFrame dst data16 mux hdr payload := by
  obtain ⟨v, -, hv, -⟩ | ⟨e, he⟩ | ⟨dst, data16, mux, hdr, payload, -, -, hb⟩ := exec_ends i s
  · cases (frameOut_of_answered (hv ▸ h)).symm.trans hf
  · cases (frameOut_of_failed (he ▸ h)).symm.trans hf
  · exact ⟨dst, data16, mux, hdr, payload, frameOut_of_built (hb ▸ h) hf⟩

/-- Settles O16: the reading rule of `SET_EFF` at byte 3 and elsewhere, the identifier it leaves, and the last step of
`buildFrame`. -/
theorem setEffIsTheLastStep : Obligations.SetEffIsTheLastStep := by
  refine ⟨fun f => ⟨?_, fun a ha => ?_, frameIdentifier_setEff_ge f⟩, fun i s t f _ h hf => ?_⟩
  · rw [read_setEff, if_pos rfl]
  · rw [read_setEff, if_neg ha]
  · obtain ⟨dst, data16, mux, hdr, payload, rfl⟩ := frameOut_is_buildFrame h hf
    exact ⟨frameWrite (packHdr Frame.zero dst data16 mux hdr) 8 payload, rfl⟩

end Sys2Proof.Machine
end

section
/-! The zero fill of an encoded request (41_encode.md R99): every request is built with the header `HDR0`, whose
unassigned fields are zero, and past its payload a built frame keeps the zeros it started from. -/

namespace Sys2Proof.Machine

/-! ### The payload of a built frame -/

theorem read_buildFrame_payload (dst : Byte) (data16 : BitVec 16) (mux : BitVec 5) (hdr : Hdr) (payload : List Byte)
    (h : payload.length ≤ 8) (k : Nat) :
    Memory.read (buildFrame dst data16 mux hdr payload) (8 + k) = payload.getD k 0 := by
  unfold buildFrame
  rw [read_setEff, if_neg (by omega), read_packHdr_payload _ _ _ _ _ h, List.getD_append_right _ _ _ _ (by simp)]
  simp

/-- Past the payload a built frame is zero. -/
theorem read_buildFrame_of_payload_le {dst : Byte} {data16 : BitVec 16} {mux : BitVec 5} {hdr : Hdr}
    {payload : List Byte} (h : payload.length ≤ 8) {a : Nat} (ha : 8 + payload.length ≤ a) :
    Memory.read (buildFrame dst data16 mux hdr payload) a = 0 := by
  obtain ⟨k, rfl⟩ : ∃ k, a = 8 + k := ⟨a - 8, by omega⟩
  rw [read_buildFrame_payload _ _ _ _ _ h, List.getD_eq_default _ _ (by omega)]

/-! ### The header of a request -/

/-- `res2`, `pad`, `res0` and `len8`, the header fields no request layout assigns, are zero. -/
def ZeroHeaderFill (f : Frame) : Prop :=
  (Memory.read f 3).toNat / 32 % 4 = 0 ∧ Memory.read f 5 = 0 ∧ Memory.read f 6 = 0 ∧ Memory.read f 7 = 0

/-- `HDR0` puts zero into bits 6 and 5 of byte 3, beside the mux and below the flag. -/
theorem canonical_res2_zero (mux : BitVec 5) :
    (((Hdr.canonical.res2.setWidth 8 <<< 5) ||| mux.setWidth 8 ||| 0x80 : Byte).toNat) / 32 % 4 = 0 := by
  revert mux
  decide

theorem buildFrame_canonical_zeroHeaderFill (dst : Byte) (data16 : BitVec 16) (mux : BitVec 5) (payload : List Byte)
    (h : payload.length ≤ 8) : ZeroHeaderFill (buildFrame dst data16 mux Hdr.canonical payload) := by
  unfold ZeroHeaderFill
  simp only [read_buildFrame _ _ _ _ _ h]
  exact ⟨canonical_res2_zero mux, rfl, rfl, rfl⟩

theorem storeControlReq_zeroHeaderFill (m : ControlReq) : ZeroHeaderFill (storeControlReq m) :=
  buildFrame_canonical_zeroHeaderFill _ _ _ _ (by simp)

/-- A builder that is no response packer leaves a frame with the header of a request. -/
theorem request_zeroHeaderFill {i : Instr} {s t : State} {f : Frame} (hbuilds : i.operation.buildsFrame = true)
    (hobtain : i.operation ≠ .packObtainIdResp) (hfeedback : i.operation ≠ .packFeedbackResp)
    (hreadAll : i.operation ≠ .packReadAllParamsResp) (hparamRead : i.operation ≠ .packParamReadResp)
    (h : exec i s = .next t) (hf : t.frameOut = some f) : ZeroHeaderFill f := by
  cases i
  case controlFromEng canId cmd ranges =>
    rw [exec_controlFromEng_eq] at h
    cases hm : scaleCommand s.params canId cmd ranges with
    | error e => rw [hm] at h; cases (frameOut_of_failed h).symm.trans hf
    | ok m => rw [hm] at h; exact frameOut_of_built h hf ▸ storeControlReq_zeroHeaderFill m
  case encControl m => exact frameOut_of_built h hf ▸ storeControlReq_zeroHeaderFill m
  case encObtainId | encMotorEnable | encFeedback | encReadAllParams | encZeroPosition | encParamRead |
      encParamWrite | encDataSave =>
    refine frameOut_of_built h hf ▸ buildFrame_canonical_zeroHeaderFill _ _ _ _ ?_
    simp [Bytes4.toList, Bytes8.toList]
  case packObtainIdResp => exact absurd rfl hobtain
  case packFeedbackResp => exact absurd rfl hfeedback
  case packReadAllParamsResp => exact absurd rfl hreadAll
  case packParamReadResp => exact absurd rfl hparamRead
  -- the operations that build no frame
  all_goals cases hbuilds

/-! ### The payload of a request -/

/-- `F[10..11]` lies between the index and the data (R58). -/
theorem storeParamWriteReq_gap (p : Params) (m : ParamWriteReq) :
    Memory.read (storeParamWriteReq p m) 10 = 0 ∧ Memory.read (storeParamWriteReq p m) 11 = 0 := by
  have hlen : (bytesLe m.index 2 ++ [0, 0] ++ m.data.toList).length ≤ 8 := by simp [Bytes4.toList]
  exact ⟨read_buildFrame_payload _ _ _ _ _ hlen 2, read_buildFrame_payload _ _ _ _ _ hlen 3⟩

/-- Settles O17: the header is every request's; the bare requests have no payload, ParamRead has its two index bytes,
and ParamWrite has its gap. -/
theorem unassignedBytesAreZero : Obligations.UnassignedBytesAreZero := by
  intro s t f
  refine ⟨?header, ?obtainId, ?motorEnable, ?feedback, ?paramRead, ?paramWrite⟩
  case header =>
    intro i ⟨hbuilds, hobtain, hfeedback, hreadAll, hparamRead⟩
    exact request_zeroHeaderFill hbuilds hobtain hfeedback hreadAll hparamRead
  case obtainId | motorEnable | feedback =>
    intro m h hf a ha
    rw [frameOut_of_built h hf]
    exact read_buildFrame_of_payload_le (payload := []) (Nat.zero_le 8) ha
  case paramRead =>
    intro m h hf a ha
    rw [frameOut_of_built h hf]
    exact read_buildFrame_of_payload_le (payload := bytesLe m.index 2) (by simp) ha
  case paramWrite =>
    intro m h hf
    rw [frameOut_of_built h hf]
    exact storeParamWriteReq_gap s.params m

end Sys2Proof.Machine
end

section
/-! The operation `MUX` (42_decode.md R117): it answers the mux of the frame, which the mask `0x1F` of byte 3 fixes. -/

namespace Sys2Proof.Machine

theorem exec_mux_eq (s : State) : exec .mux s = .next (s.answered (.u5 (muxOf s.frameIn))) := rfl

theorem muxOf_eq_ofNat (f : Frame) : muxOf f = BitVec.ofNat 5 (Memory.read f 3).toNat :=
  BitVec.eq_of_toNat_eq (by rw [muxOf_toNat, BitVec.toNat_ofNat])

theorem and_muxMask_toNat (b : Byte) : (b &&& 0x1F).toNat = b.toNat % 32 := by
  rw [BitVec.toNat_and]
  exact Nat.and_two_pow_sub_one_eq_mod b.toNat 5

/-- Settles O15: the mux as a number, the mask as a remainder, and the mux's dependence on that remainder alone. -/
theorem muxOperation : Obligations.MuxOperation := by
  refine fun s => ⟨?_, fun b => ?_, fun g hg => ?_⟩
  · rw [exec_mux_eq, muxOf_eq_ofNat]
  · rw [BitVec.toNat_ofNat, and_muxMask_toNat]
  · have lowBits : (Memory.read g 3).toNat % 32 = (Memory.read s.frameIn 3).toNat % 32 := by
      rw [← and_muxMask_toNat, ← and_muxMask_toNat, hg]
    rw [exec_mux_eq, muxOf_eq_of_lowBits lowBits]

end Sys2Proof.Machine
end

section
/-! The decoder as one equation (42_decode.md R115, R120): `DECODABLE_MUX` decides whether there is an answer, and the
mux and the cleared frame decide which. -/

namespace Sys2Proof.Machine

/-- What the unpacker a mux selects reads from a cleared frame (R121). Where no shape belongs to the mux the value is
arbitrary: no `DECODABLE_MUX` holds such a mux. -/
def responseOf (m : BitVec 5) (g : Frame) : Response :=
  if m = muxObtainId then .obtainId (loadObtainIdResp g)
  else if m = muxFeedback then .feedback (loadFeedbackResp g)
  else if m = muxParamRead then .paramRead (loadParamReadResp g)
  else .readAllParams (loadReadAllParamsResp g)

theorem decodeFrame_eq (p : Params) (f : Frame) :
    decodeFrame p f =
      if decodable p (muxOf f) = true then .ok (responseOf (muxOf f) (clearEff f))
      else .error (.unknownMux (muxOf f)) := by
  obtain ⟨hd, h⟩ | ⟨hd, hm, h⟩ | ⟨hd, hm, h⟩ | ⟨hd, hm, h⟩ | ⟨hd, hm, h⟩ := decodeFrame_cases p f
  · rw [h, hd, if_neg Bool.false_ne_true]
  -- a decodable mux selects its own branch of `responseOf`
  all_goals
    rw [h, if_pos hd, hm]
    rfl

/-- Of the parameters, only `DECODABLE_MUX` matters to the decoder. -/
theorem decodeFrame_congr {p q : Params} (h : q.decodableMux = p.decodableMux) (f : Frame) :
    decodeFrame q f = decodeFrame p f := by
  have hdecodable : decodable q (muxOf f) = decodable p (muxOf f) := by
    unfold decodable
    rw [h]
  rw [decodeFrame_eq, decodeFrame_eq, hdecodable]

theorem exec_dec_of_not_decodable {s : State} (hd : decodable s.params (muxOf (clearEff s.frameIn)) = false) :
    exec .dec s = .next (s.failed (.unknownMux (muxOf (clearEff s.frameIn)))) := by
  rw [muxOf_clearEff] at hd ⊢
  rw [exec_dec_eq, decodeFrame_eq, hd, if_neg Bool.false_ne_true]

theorem exec_dec_of_decodable {s : State} {m : BitVec 5} (hm : (muxOf (clearEff s.frameIn)).toNat = m.toNat)
    (hd : decodable s.params (muxOf (clearEff s.frameIn)) = true) :
    exec .dec s = .next (s.answered (.response (responseOf m (clearEff s.frameIn)))) := by
  have hmux : muxOf s.frameIn = m := (muxOf_clearEff _).symm.trans (BitVec.eq_of_toNat_eq hm)
  rw [muxOf_clearEff] at hd
  rw [exec_dec_eq, decodeFrame_eq, if_pos hd, hmux]

/-- Settles O34: the dispatch is the decoder's equation at each mux, and two states that agree on the frame and on
`DECODABLE_MUX` give that equation the same answer. -/
theorem decStepsInOrder : Obligations.DecStepsInOrder := by
  refine ⟨fun s => ⟨exec_dec_of_not_decodable, ?obtainId, ?feedback, ?paramRead, ?readAllParams⟩, ?reads⟩
  case obtainId => exact fun hm hd => ⟨_, rfl, exec_dec_of_decodable (m := muxObtainId) hm hd⟩
  case feedback => exact fun hm hd => ⟨_, rfl, exec_dec_of_decodable (m := muxFeedback) hm hd⟩
  case paramRead => exact fun hm hd => ⟨_, rfl, exec_dec_of_decodable (m := muxParamRead) hm hd⟩
  case readAllParams => exact fun hm hd => ⟨_, rfl, exec_dec_of_decodable (m := muxReadAllParams) hm hd⟩
  case reads =>
    intro s s' hframe hmux
    rw [exec_dec_eq, exec_dec_eq, hframe, decodeFrame_congr hmux]
    cases decodeFrame s.params s.frameIn with
    | error e => exact ⟨_, _, rfl, rfl, rfl, rfl⟩
    | ok r => exact ⟨_, _, rfl, rfl, rfl, rfl⟩

end Sys2Proof.Machine
end

section
/-! The session beside the block (50_host_context.md R134 to R139): what staging a request leaves, and what the session
makes of each decoded response and of a decode failure. -/

namespace Sys2Proof.Machine

/-! ### Staging (R134) -/

theorem stageRequest_of_buildRequest {p : Params} {session : Session} {params : RequestParams} {r : Request}
    (h : buildRequest p session params = .ok r) :
    stageRequest p session params = .ok (session.staged r, requestFrame p r) := by
  rw [stageRequest, h]

/-- The frame the session transmits is the one the block's encoder of that request puts out. -/
theorem exec_encoder_eq (r : Request) (s : State) : exec r.encoder s = .next (s.built (requestFrame s.params r)) := by
  cases r <;> exact deliverFrame_eq _ s

/-- Settles O57: the staged session, and the encoder's frame under the parameters that staged it. -/
theorem stageRequestEncodes : Obligations.StageRequestEncodes := by
  intro p session params r hbuilt
  refine ⟨requestFrame p r, stageRequest_of_buildRequest hbuilt, ?_⟩
  rintro s rfl
  exact exec_encoder_eq r s

/-! ### Handling a frame (R135) -/

theorem handleResponse_of_answered {s : State} {r : Response} (h : exec .dec s = .next (s.answered (.response r)))
    (session : Session) : handleResponse s.params session s.frameIn = applyResponse s.params session r := by
  rw [handleResponse, decodeFrame_of_answered h]

theorem handleResponse_of_unknownMux {s : State} {m : BitVec 5} (h : exec .dec s = .next (s.failed (.unknownMux m)))
    (session : Session) :
    handleResponse s.params session s.frameIn = some ⟨session, .error (.protocol (.unknownMux m))⟩ := by
  rw [handleResponse, decodeFrame_of_failed h]

/-- Settles O59: the decoder's error is the answer, beside the session that was given. -/
theorem sessionSurvivesDecodeFailure : Obligations.SessionSurvivesDecodeFailure :=
  fun _ session _ hfailed => handleResponse_of_unknownMux hfailed session

/-! ### The effect of a decoded response (R136, R137, R138) -/

theorem applyResponse_obtainId_same {session : Session} {m : ObtainIdResp} (h : m.canId = session.canId) (p : Params) :
    applyResponse p session (.obtainId m) = some ⟨session.identified m.mcuUid, .ok none⟩ := if_pos h

theorem applyResponse_obtainId_other {session : Session} {m : ObtainIdResp} (h : m.canId ≠ session.canId) (p : Params) :
    applyResponse p session (.obtainId m) = some ⟨session, .error (.protocol .canIdMismatch)⟩ := if_neg h

theorem applyResponse_feedback_same {session : Session} {m : FeedbackResp} (h : m.canId = session.canId) (p : Params) :
    applyResponse p session (.feedback m) =
      some ⟨{ session with status := .ready }, .ok (some (scaleFeedback p.numerics m session.actuatorRanges))⟩ := if_pos h

theorem applyResponse_feedback_other {session : Session} {m : FeedbackResp} (h : m.canId ≠ session.canId) (p : Params) :
    applyResponse p session (.feedback m) = some ⟨session, .error (.protocol .canIdMismatch)⟩ := if_neg h

/-- A fragment's identifier is not compared with the session's (R138). -/
theorem applyResponse_readAllParams (p : Params) (session : Session) (m : ReadAllParamsResp) :
    applyResponse p session (.readAllParams m) = some ⟨{ session with status := .ready }, .ok none⟩ := rfl

/-- Settles O58: each clause is `handleResponse` on the decoded response, then that response's own rule; the update's
three values are what SCALE_FROM_WIRE answers. -/
theorem sessionHandlesResponses : Obligations.SessionHandlesResponses := by
  refine fun s session => ⟨fun m hdec => ?obtainId, fun m hdec => ?feedback, fun m hdec => ?readAllParams⟩
  all_goals rw [handleResponse_of_answered hdec]
  case obtainId =>
    exact ⟨fun hother => applyResponse_obtainId_other hother _, fun hsame => applyResponse_obtainId_same hsame _⟩
  case feedback =>
    refine ⟨fun hother => applyResponse_feedback_other hother _, fun hsame => ?_⟩
    exact ⟨scaleFeedback s.params.numerics m session.actuatorRanges, exec_scaleFromWire_eq .., exec_scaleFromWire_eq ..,
      exec_scaleFromWire_eq .., applyResponse_feedback_same hsame _⟩
  case readAllParams => exact applyResponse_readAllParams _ session m

end Sys2Proof.Machine
end

section
/-! The record of an operation read back (log 1): every field is found where its row puts it, the selector names the row,
and the bytes after the record are the ones that were appended. -/

namespace Sys2Proof

/-! ### Bytes of a record with others before or after it -/

theorem byteAt_append_left {record : List Byte} {k : Nat} (h : k < record.length) (rest : List Byte) :
    byteAt (record ++ rest) k = byteAt record k := List.getD_append _ _ _ _ h

theorem byteAt_append_right {front : List Byte} {k : Nat} (h : front.length ≤ k) (record : List Byte) :
    byteAt (front ++ record) k = byteAt record (k - front.length) := List.getD_append_right _ _ _ _ h

theorem identifierAt_append {record : List Byte} (h : 4 ≤ record.length) (rest : List Byte) :
    identifierAt (record ++ rest) = identifierAt record := by
  unfold identifierAt
  rw [byteAt_append_left (by omega), byteAt_append_left (by omega), byteAt_append_left (by omega),
    byteAt_append_left (by omega)]

/-! ### The operands beyond the image -/

theorem f64At_append_right {front : List Byte} {k : Nat} (h : front.length ≤ k) (record : List Byte) :
    f64At (front ++ record) k = f64At record (k - front.length) := by
  have byte (j : Nat) : byteAt (front ++ record) (k + j) = byteAt record (k - front.length + j) := by
    rw [byteAt_append_right (by omega), Nat.sub_add_comm h]
  have byte0 := byte 0
  unfold f64At le64At bytes8At
  simp only [Nat.add_zero] at byte0
  simp only [byte0, byte]

@[simp] theorem f64At_encodeF64 (x : F64) (rest : List Byte) : f64At (encodeF64 x ++ rest) 0 = x :=
  congrArg F64.mk (le64_byteOf x.bits)

@[simp] theorem encodeF64_length (x : F64) : (encodeF64 x).length = 8 := bytesLe_length x.bits 8

@[simp] theorem encodeRange_length (r : PhysicalRange) : (encodeRange r).length = 16 := by
  simp [encodeRange]

theorem rangeAt_append_right {front : List Byte} {k : Nat} (h : front.length ≤ k) (record : List Byte) :
    rangeAt (front ++ record) k = rangeAt record (k - front.length) := by
  unfold rangeAt
  rw [f64At_append_right h, f64At_append_right (by omega), Nat.sub_add_comm h]

@[simp] theorem rangeAt_encodeRange (r : PhysicalRange) (rest : List Byte) : rangeAt (encodeRange r ++ rest) 0 = r := by
  unfold rangeAt encodeRange
  rw [List.append_assoc, f64At_encodeF64, f64At_append_right (by simp)]
  simp

theorem rangeSetAt_append_right {front : List Byte} {k : Nat} (h : front.length ≤ k) (record : List Byte) :
    rangeSetAt (front ++ record) k = rangeSetAt record (k - front.length) := by
  unfold rangeSetAt
  rw [rangeAt_append_right h, rangeAt_append_right (by omega), rangeAt_append_right (by omega),
    rangeAt_append_right (by omega), rangeAt_append_right (by omega)]
  simp only [Nat.sub_add_comm h]

@[simp] theorem rangeSetAt_encodeRangeSet (r : RangeSet) (rest : List Byte) :
    rangeSetAt (encodeRangeSet r ++ rest) 0 = r := by
  unfold rangeSetAt encodeRangeSet
  simp [rangeAt_append_right]

@[simp] theorem commandAt_encodeCommand (c : ActuatorCommand) (rest : List Byte) :
    commandAt (encodeCommand c ++ rest) 0 = c := by
  unfold commandAt encodeCommand
  simp [f64At_append_right]

theorem commandAt_append_right {front : List Byte} {k : Nat} (h : front.length ≤ k) (record : List Byte) :
    commandAt (front ++ record) k = commandAt record (k - front.length) := by
  unfold commandAt
  rw [f64At_append_right h, f64At_append_right (by omega), f64At_append_right (by omega),
    f64At_append_right (by omega), f64At_append_right (by omega)]
  simp only [Nat.sub_add_comm h]

@[simp] theorem encodeCommand_length (c : ActuatorCommand) : (encodeCommand c).length = 40 := by
  simp [encodeCommand]

@[simp] theorem bareRecord_length (o : Operation) : (bareRecord o).length = 17 := by
  simp [bareRecord, imageRecord, zeros4, zeros8]

@[simp] theorem requestRecord_length (o : Operation) (canId : Byte) (data16 : BitVec 16) (payload : List Byte) :
    (requestRecord o canId data16 payload).length = payload.length + 9 := by
  simp [requestRecord, imageRecord, zeros4]

/-! ### The header of a response image -/

/-- `res2` stands in bits 6 and 5, which no packer's row uses. -/
theorem res2_of_topByte (top : Byte) (res2 : BitVec 2) (h : top &&& 0x60 = 0) :
    (top ||| (res2.setWidth 8 <<< 5)).extractLsb' 5 2 = res2 := by
  revert h
  revert top res2
  decide

theorem hdrAt_responseRecord {o : Operation} (htop : o.topByte &&& 0x60 = 0) (host canId aux : Byte) (hdr : Hdr)
    (payload rest : List Byte) : hdrAt (responseRecord o host canId aux hdr payload ++ rest) = hdr := by
  obtain ⟨res2, len, pad, res0, len8⟩ := hdr
  exact congrArg (Hdr.mk · len pad res0 len8) (res2_of_topByte o.topByte res2 htop)

/-! ### Every operand -/

/-- The operands of an operation are read from its record as they were written, whatever follows it. -/
theorem operands_encode (i : Instr) (rest : List Byte) : i.operation.operands (encode i ++ rest) = i := by
  cases i
  case scale value source target =>
    simp [Instr.operation, Operation.operands, encode, f64At_append_right, rangeAt_append_right]
  case quant16 r => simp [Instr.operation, Operation.operands, encode, f64At_append_right]
  case scaleToWire value eng =>
    simp [Instr.operation, Operation.operands, encode, f64At_append_right, rangeAt_append_right]
  case scaleFromWire raw eng =>
    have hraw : le16At (encode (.scaleFromWire raw eng) ++ rest) 17 = raw := le16_byteOf raw
    have heng : rangeAt (encode (.scaleFromWire raw eng) ++ rest) 19 = eng := by
      have shape : encode (.scaleFromWire raw eng) ++ rest =
          bareRecord .scaleFromWire ++ (bytesLe raw 2 ++ (encodeRange eng ++ rest)) := by simp [encode]
      rw [shape, rangeAt_append_right (by simp), rangeAt_append_right (by simp)]
      simp
    exact congrArg₂ Instr.scaleFromWire hraw heng
  case controlFromEng canId cmd ranges =>
    have hcmd : commandAt (encode (.controlFromEng canId cmd ranges) ++ rest) 17 = cmd := by
      simp [encode, commandAt_append_right, zeros8]
    have hranges : rangeSetAt (encode (.controlFromEng canId cmd ranges) ++ rest) 57 = ranges := by
      simp [encode, rangeSetAt_append_right, zeros8]
    exact congrArg₂ (Instr.controlFromEng canId) hcmd hranges
  case feedbackToEng ranges => simp [Instr.operation, Operation.operands, encode, rangeSetAt_append_right]
  case encObtainId | encMotorEnable | encFeedback | encZeroPosition | encDataSave => rfl
  case encControl m =>
    calc _ = Instr.encControl
          { canId := m.canId, torque := le16 (byteOf m.torque 0) (byteOf m.torque 1)
            angle := be16 (byteOf m.angle 1) (byteOf m.angle 0)
            velocity := be16 (byteOf m.velocity 1) (byteOf m.velocity 0)
            kp := be16 (byteOf m.kp 1) (byteOf m.kp 0), kd := be16 (byteOf m.kd 1) (byteOf m.kd 0) } := rfl
      _ = .encControl m := by simp only [le16_byteOf, be16_byteOf]
  case encReadAllParams m => exact congrArg (Instr.encReadAllParams ⟨m.canId, ·⟩) (le64_byteOf m.mcuUid)
  case encParamRead m => exact congrArg (Instr.encParamRead ⟨m.canId, ·⟩) (le16_byteOf m.index)
  case encParamWrite m => exact congrArg (Instr.encParamWrite ⟨m.canId, ·, m.data⟩) (le16_byteOf m.index)
  case packObtainIdResp m =>
    exact congrArg₂ (fun uid hdr => Instr.packObtainIdResp ⟨m.host, m.canId, m.aux, uid, hdr⟩) (le64_byteOf m.mcuUid)
      (hdrAt_responseRecord (by decide) ..)
  case packReadAllParamsResp m =>
    exact congrArg₂ (fun code hdr => Instr.packReadAllParamsResp ⟨m.host, m.canId, m.byteMarker, code, m.data, hdr⟩)
      (le16_byteOf m.paramCode) (hdrAt_responseRecord (by decide) ..)
  case packParamReadResp m =>
    exact congrArg₂ (fun index hdr => Instr.packParamReadResp ⟨m.host, m.canId, m.status, index, m.rsv, m.data, hdr⟩)
      (le16_byteOf m.index) (hdrAt_responseRecord (by decide) ..)
  case packFeedbackResp m =>
    have hhdr : hdrAt (encode (.packFeedbackResp m) ++ rest) = m.hdr := hdrAt_responseRecord (by decide) ..
    calc _ = Instr.packFeedbackResp
          { host := m.host, canId := m.canId, status := m.status
            angle := be16 (byteOf m.angle 1) (byteOf m.angle 0)
            velocity := be16 (byteOf m.velocity 1) (byteOf m.velocity 0)
            torque := be16 (byteOf m.torque 1) (byteOf m.torque 0), tail := m.tail, hdr := hdrAt _ } := rfl
      _ = .packFeedbackResp m := by rw [be16_byteOf, be16_byteOf, be16_byteOf, hhdr]
  -- the operations without an operand
  all_goals rfl

/-! ### The row of the record -/

/-- Every operation's record is laid out as its row (Laws/PerInstr). -/
theorem tableRow (i : Instr) : Laws.TableRow.Statement i := by
  cases i
  case scale => exact Laws.TableRow.scale ..
  case quant16 => exact Laws.TableRow.quant16 _
  case scaleToWire => exact Laws.TableRow.scaleToWire ..
  case scaleFromWire => exact Laws.TableRow.scaleFromWire ..
  case encObtainId => exact Laws.TableRow.encObtainId _
  case encControl => exact Laws.TableRow.encControl _
  case encMotorEnable => exact Laws.TableRow.encMotorEnable _
  case encFeedback => exact Laws.TableRow.encFeedback _
  case encReadAllParams => exact Laws.TableRow.encReadAllParams _
  case encZeroPosition => exact Laws.TableRow.encZeroPosition _
  case encParamRead => exact Laws.TableRow.encParamRead _
  case encParamWrite => exact Laws.TableRow.encParamWrite _
  case encDataSave => exact Laws.TableRow.encDataSave _
  case controlFromEng => exact Laws.TableRow.controlFromEng ..
  case packObtainIdResp => exact Laws.TableRow.packObtainIdResp _
  case packFeedbackResp => exact Laws.TableRow.packFeedbackResp _
  case packReadAllParamsResp => exact Laws.TableRow.packReadAllParamsResp _
  case packParamReadResp => exact Laws.TableRow.packParamReadResp _
  case mux => exact Laws.TableRow.mux
  case dec => exact Laws.TableRow.dec
  case unpackObtainIdResp => exact Laws.TableRow.unpackObtainIdResp
  case unpackFeedbackResp => exact Laws.TableRow.unpackFeedbackResp
  case unpackReadAllParamsResp => exact Laws.TableRow.unpackReadAllParamsResp
  case unpackParamReadResp => exact Laws.TableRow.unpackParamReadResp
  case unpackObtainIdReq => exact Laws.TableRow.unpackObtainIdReq
  case unpackControlReq => exact Laws.TableRow.unpackControlReq
  case unpackMotorEnableReq => exact Laws.TableRow.unpackMotorEnableReq
  case unpackFeedbackReq => exact Laws.TableRow.unpackFeedbackReq
  case unpackReadAllParamsReq => exact Laws.TableRow.unpackReadAllParamsReq
  case unpackZeroPositionReq => exact Laws.TableRow.unpackZeroPositionReq
  case unpackParamReadReq => exact Laws.TableRow.unpackParamReadReq
  case unpackParamWriteReq => exact Laws.TableRow.unpackParamWriteReq
  case unpackDataSaveReq => exact Laws.TableRow.unpackDataSaveReq
  case feedbackToEng => exact Laws.TableRow.feedbackToEng _

theorem extensionStart_le_recordBytes (o : Operation) : extensionStart ≤ o.recordBytes := by
  cases o <;> decide

theorem selector_ne_zero (o : Operation) : o.selector ≠ 0 := by
  cases o <;> decide

/-- A selector is its operation's place in the table. -/
theorem operationOfSelector_selector (o : Operation) : operationOfSelector o.selector = some o := by
  cases o <;> rfl

theorem selectOperation_encode (i : Instr) (rest : List Byte) : selectOperation (encode i ++ rest) = .ok i.operation := by
  obtain ⟨hfits, hselector, hlength⟩ := tableRow i
  have hlong : 17 ≤ (encode i).length := hlength ▸ extensionStart_le_recordBytes i.operation
  have hshort : ¬ (encode i ++ rest).length < extensionStart := by
    rw [List.length_append, extensionStart]
    omega
  have hbyte : byteAt (encode i ++ rest) 16 = i.operation.selector := by
    rw [byteAt_append_left (by omega), hselector]
  rw [← identifierAt_append (by omega) rest] at hfits
  rw [selectOperation, if_neg hshort, hbyte, if_neg (selector_ne_zero _), operationOfSelector_selector]
  exact if_pos hfits

/-- Settles O3: the record's row is the operation's, it is as long as the row says, and its operands read back. -/
theorem decodeEncodeRoundTrip : Obligations.DecodeEncodeRoundTrip := by
  intro i rest
  obtain ⟨-, -, hlength⟩ := tableRow i
  have hlong : ¬ (encode i ++ rest).length < i.operation.recordBytes := by
    rw [List.length_append]
    omega
  rw [decode, selectOperation_encode]
  dsimp only
  rw [if_neg hlong, operands_encode, ← hlength, List.drop_left]

end Sys2Proof
end

section
/-! What operations and steps keep (10_state.md section 1): every operation ends in a value, an error or a built frame,
and touches nothing but the two output channels. -/

namespace Sys2Proof.Machine

/-! ### The invariant through the three ways an operation ends -/

theorem buildFrame_frameOutWf (dst : Byte) (data16 : BitVec 16) (mux : BitVec 5) (hdr : Hdr) (payload : List Byte) :
    FrameOutWf (buildFrame dst data16 mux hdr payload) :=
  ⟨buildFrame_wf dst data16 mux hdr payload, frameIdentifier_setEff_ge _⟩

theorem inv_consumeOp {s : State} (h : s.Inv) : (consumeOp s).Inv := h

theorem inv_answered {s : State} (h : s.Inv) {v : Value} (hv : ∀ f, v ≠ .frame f) : (s.answered v).Inv := by
  obtain ⟨hframeIn, hparams, -, -⟩ := h
  refine ⟨hframeIn, hparams, fun f => ⟨nofun, fun hf => ?_⟩, nofun⟩
  exact absurd (OpResult.ok.inj (Option.some.inj hf)) (hv f)

theorem inv_failed {s : State} (h : s.Inv) (e : OpError) : (s.failed e).Inv := by
  obtain ⟨hframeIn, hparams, -, -⟩ := h
  exact ⟨hframeIn, hparams, fun f => ⟨nofun, nofun⟩, nofun⟩

theorem inv_built {s : State} (h : s.Inv) {f : Frame} (hf : FrameOutWf f) : (s.built f).Inv := by
  obtain ⟨hframeIn, hparams, -, -⟩ := h
  refine ⟨hframeIn, hparams, fun g => ⟨fun hg => ?_, fun hg => ?_⟩, fun g hg => Option.some.inj hg ▸ hf⟩
  · rw [← Option.some.inj hg]
    rfl
  · rw [← Value.frame.inj (OpResult.ok.inj (Option.some.inj hg))]
    rfl

theorem exec_keeps_inv {i : Instr} {s t : State} (hs : s.Inv) (h : exec i s = .next t) : t.Inv := by
  obtain ⟨v, hv, hexec, -⟩ | ⟨e, hexec⟩ | ⟨dst, data16, mux, hdr, payload, -, -, hexec⟩ := exec_ends i s <;>
    cases hexec.symm.trans h
  · exact inv_answered hs hv
  · exact inv_failed hs e
  · exact inv_built hs (buildFrame_frameOutWf ..)

/-- Settles O6: an idle step changes nothing, and any other runs an operation on the state with the record taken off. -/
theorem stepKeepsInvariant : Obligations.StepKeepsInvariant := by
  intro s t hs hstep
  obtain ⟨-, h⟩ | ⟨-, e, -, h⟩ | ⟨-, i, rest, -, h⟩ := step_cases s
  · cases h.symm.trans hstep
    exact hs
  · cases h.symm.trans hstep
  · exact exec_keeps_inv (inv_consumeOp hs) (h.symm.trans hstep)

/-- Settles O7: every clause is about a literal state. -/
theorem resetMeetsInvariant : Obligations.ResetMeetsInvariant :=
  ⟨⟨Frame.zero_wf, by decide, fun _ => ⟨nofun, nofun⟩, nofun⟩, reset_params, reset_op, reset_frameOut, reset_result⟩

/-! ### Steps -/

theorem exec_is_next (i : Instr) (s : State) : ∃ t o, exec i s = .next t ∧ t.result = some o := by
  obtain ⟨v, -, h, -⟩ | ⟨e, h⟩ | ⟨_, _, _, _, _, -, -, h⟩ := exec_ends i s
  · exact ⟨_, _, h, rfl⟩
  · exact ⟨_, _, h, rfl⟩
  · exact ⟨_, _, h, rfl⟩

/-- Settles O1: the two ways a step can go on. -/
theorem stepRunsIssuedOperation : Obligations.StepRunsIssuedOperation := by
  refine ⟨fun s i rest hdec => ?_, fun s hop => ?_⟩
  · obtain ⟨hop, -⟩ | ⟨-, e, he, -⟩ | ⟨-, j, rest', hj, h⟩ := step_cases s
    · rw [hop] at hdec
      cases hdec
    · cases he.symm.trans hdec
    · cases hj.symm.trans hdec
      exact h
  · obtain ⟨-, h⟩ | ⟨hne, -⟩ | ⟨hne, -⟩ := step_cases s
    · exact h
    · exact absurd hop hne
    · exact absurd hop hne

/-- Settles O2: the idle step, the refusal and the operation are told apart by the `op` channel. -/
theorem stepStopsOnlyOnUndecodableRecords : Obligations.StepStopsOnlyOnUndecodableRecords := by
  intro s
  obtain ⟨hop, h⟩ | ⟨hop, e, he, h⟩ | ⟨hop, i, rest, hdec, h⟩ := step_cases s
  · exact ⟨nofun, by simp [h, hop], by simp [h, hop, State.Safe]⟩
  · exact ⟨nofun, by simp [h, hop, he], by simp [h, hop, he, State.Safe]⟩
  · obtain ⟨t, -, hexec, -⟩ := exec_is_next i (consumeOp s)
    rw [hexec] at h
    exact ⟨nofun, by simp [h, hdec], by simp [h, hdec, State.Safe]⟩

/-! ### The inputs and the output channels -/

/-- What an operation leaves in the fields it does not write. -/
theorem exec_keeps_inputs {i : Instr} {s t : State} (h : exec i s = .next t) :
    t.params = s.params ∧ t.op = s.op ∧ t.frameIn = s.frameIn := by
  obtain ⟨v, -, hexec, -⟩ | ⟨e, hexec⟩ | ⟨_, _, _, _, _, -, -, hexec⟩ := exec_ends i s <;>
    cases hexec.symm.trans h <;> exact ⟨rfl, rfl, rfl⟩

/-- Settles O9: the frame of one operation, and of the step that runs it on the emptied channel. -/
theorem operationsKeepTheirInputs : Obligations.OperationsKeepTheirInputs := by
  refine ⟨fun i s t h => ?_, fun s t hstep => ?_⟩
  · obtain ⟨hparams, hop, hframeIn⟩ := exec_keeps_inputs h
    exact ⟨hparams, hop, hframeIn, fun a => by rw [hframeIn]⟩
  · obtain ⟨hop, h⟩ | ⟨-, e, -, h⟩ | ⟨-, i, rest, -, h⟩ := step_cases s
    · cases h.symm.trans hstep
      exact ⟨rfl, rfl, hop⟩
    · cases h.symm.trans hstep
    · obtain ⟨hparams, hop, hframeIn⟩ := exec_keeps_inputs (h.symm.trans hstep)
      exact ⟨hparams, hframeIn, hop⟩

/-- An operation reads neither output channel. -/
theorem exec_ignores_outputs (i : Instr) (s : State) (f : Option Frame) (r : Option OpResult) :
    exec i { s with frameOut := f, result := r } = exec i s := by
  cases i
  case scale => simp only [exec_scale_eq]; rfl
  case quant16 => simp only [exec_quant16_eq]; rfl
  case scaleToWire => simp only [exec_scaleToWire_eq]; rfl
  case controlFromEng => simp only [exec_controlFromEng_eq]; rfl
  case dec => simp only [exec_dec_eq]; rfl
  case feedbackToEng =>
    simp only [exec, execFeedbackToEng]
    rcases decodeFrame s.params s.frameIn with e | (m | m | m | m) <;> rfl
  all_goals rfl

/-- An error outcome is all that an operation which ends with it leaves. -/
theorem eq_failed_of_result {i : Instr} {s t : State} {e : OpError} (h : exec i s = .next t)
    (he : t.result = some (.err e)) : t = s.failed e := by
  obtain ⟨v, -, hexec, -⟩ | ⟨d, hexec⟩ | ⟨_, _, _, _, _, -, -, hexec⟩ := exec_ends i s <;> cases hexec.symm.trans h
  · cases he
  · rw [OpResult.err.inj (Option.some.inj he)]
  · cases he

/-- Settles O8: no operation reads the output channels, and an error changes nothing else. -/
theorem outcomesDoNotPersist : Obligations.OutcomesDoNotPersist := by
  refine ⟨exec_is_next, exec_ignores_outputs, fun i s t e => eq_failed_of_result, fun i j s t e h he => ?_⟩
  rw [eq_failed_of_result h he]
  exact exec_ignores_outputs j s none _

/-- Settles O10: a value and an error leave no frame, and a built frame is the outcome. -/
theorem onlyBuildersPutAFrameOut : Obligations.OnlyBuildersPutAFrameOut := by
  intro i s t h
  obtain ⟨v, -, hexec, hbuilds⟩ | ⟨e, hexec⟩ | ⟨_, _, _, _, _, -, hbuilds, hexec⟩ := exec_ends i s <;>
    cases hexec.symm.trans h
  · exact ⟨by simp [State.answered, hbuilds], nofun⟩
  · exact ⟨by simp [State.failed], nofun⟩
  · exact ⟨by simp [State.built, hbuilds], fun f hf => by cases hf; rfl⟩

end Sys2Proof.Machine
end

section
/-! The two access primitives of a frame (20_memory.md section 4). -/

namespace Sys2Proof.Machine

/-- Reading a run byte by byte gives the list the run is. -/
theorem frameRead_eq {f : Frame} {off : Nat} {bytes : List Byte}
    (h : ∀ k, k < bytes.length → Memory.read f (off + k) = bytes.getD k 0) : frameRead f off bytes.length = bytes := by
  refine List.ext_getElem (by simp [frameRead]) fun k _ hk => ?_
  rw [← List.getD_eq_getElem bytes 0 hk, ← h k hk]
  simp [frameRead]

/-- Frames that give the same sixteen bytes read alike at each of them. -/
theorem read_eq_of_frameToBytes_eq {f g : Frame} (h : frameToBytes g = frameToBytes f) {a : Nat} (ha : a < 16) :
    Memory.read g a = Memory.read f a := by
  have hread (m : Frame) : (frameToBytes m)[a]? = some (Memory.read m a) := by
    simp [frameToBytes, frameRead, frameBytes, ha]
  exact Option.some.inj ((hread g).symm.trans (h ▸ hread f))

/-- Settles O12: the read-after-write rule inside and outside the run, and the canonical form. -/
theorem frameWriteReadsBack : Obligations.FrameWriteReadsBack := by
  intro f off bytes hlen
  refine ⟨frameRead_eq fun k hk => ?_, fun a ha => ?_, fun hwf => ⟨frameWrite_wf hwf off bytes, ?_, ?_⟩⟩
  · rw [read_frameWrite _ _ _ hlen, if_pos (by omega), Nat.add_sub_cancel_left]
  · rw [read_frameWrite _ _ _ hlen, if_neg (by omega)]
  · exact fun g hg hbytes => Memory.ext_of_wf hg hwf fun a ha => read_eq_of_frameToBytes_eq hbytes ha
  · exact fun a ha => Memory.read_ge_of_wfFrom hwf ha

end Sys2Proof.Machine
end

section
/-! The bytes of a built frame written out (30_encoding.md sections 3 and 5): the top byte as a number, and a payload shorter than
eight bytes filled up with zeros. -/

namespace Sys2Proof.Machine

/-- Flag, `res2` and mux do not overlap, so the top byte is their sum. -/
theorem topByte_eq (res2 : BitVec 2) (mux : BitVec 5) :
    ((res2.setWidth 8 <<< 5) ||| mux.setWidth 8) ||| 0x80 = BitVec.ofNat 8 (0x80 + 32 * res2.toNat + mux.toNat) := by
  revert res2 mux
  decide

/-- A frame starts as zeros, so zeros at its end need not be written. -/
theorem frameOfBytes_append_zeros {bytes : List Byte} {n : Nat} (h : bytes.length + n ≤ 16) :
    frameOfBytes (bytes ++ List.replicate n 0) = frameOfBytes bytes :=
  Memory.ext_of_wf (frameOfBytes_wf _) (frameOfBytes_wf _) fun x _ => by
    rw [read_frameOfBytes _ (by simpa using h), read_frameOfBytes _ (by omega)]
    by_cases hx : x < bytes.length
    · rw [List.getD_append _ _ _ _ hx]
    · rw [List.getD_append_right _ _ _ _ (by omega), List.getD_eq_default bytes _ (by omega),
        List.getD_eq_getElem?_getD, List.getElem?_getD_replicate_default_eq]

/-- The sixteen bytes of a request (30_encoding.md section 3): the header is `HDR0`. -/
theorem buildFrame_request (dst : Byte) (data16 : BitVec 16) (mux : BitVec 5) {payload : List Byte} {n : Nat}
    (h : payload.length + n = 8) :
    buildFrame dst data16 mux Hdr.canonical payload =
      frameOfBytes (([dst, byteOf data16 0, byteOf data16 1, BitVec.ofNat 8 (0x80 + mux.toNat), 8, 0, 0, 0] ++ payload) ++
        List.replicate n 0) := by
  have htop : ((Hdr.canonical.res2.setWidth 8 <<< 5) ||| mux.setWidth 8) ||| 0x80 = BitVec.ofNat 8 (0x80 + mux.toNat) :=
    topByte_eq 0 mux
  rw [frameOfBytes_append_zeros (by simp only [List.length_append, List.length_cons, List.length_nil]; omega),
    buildFrame_eq_frameOfBytes _ _ _ _ _ (by omega), builtBytes, htop]
  rfl

/-- The sixteen bytes of a response (30_encoding.md section 5): the header is as given, the data field the actuator's byte and
the kind's own. -/
theorem buildFrame_response (host canId aux : Byte) (mux : BitVec 5) (hdr : Hdr) {payload : List Byte}
    (h : payload.length = 8) :
    buildFrame host (le16 canId aux) mux hdr payload =
      frameOfBytes ([host, canId, aux, BitVec.ofNat 8 (0x80 + 32 * hdr.res2.toNat + mux.toNat),
        hdr.len, hdr.pad, hdr.res0, hdr.len8] ++ payload) := by
  rw [buildFrame_eq_frameOfBytes _ _ _ _ _ (by omega), builtBytes, topByte_eq, byteOf_le16_zero, byteOf_le16_one]

/-! ### The encoders -/

theorem exec_encControl_eq (m : ControlReq) (s : State) : exec (.encControl m) s = .next (s.built (storeControlReq m)) := rfl

theorem storeControlReq_bytes (m : ControlReq) :
    storeControlReq m = frameOfBytes
      [m.canId, byteOf m.torque 0, byteOf m.torque 1, 0x81, 8, 0, 0, 0,
       byteOf m.angle 1, byteOf m.angle 0, byteOf m.velocity 1, byteOf m.velocity 0,
       byteOf m.kp 1, byteOf m.kp 0, byteOf m.kd 1, byteOf m.kd 0] :=
  buildFrame_request m.canId m.torque muxControl (n := 0) rfl

/-- Settles O18: the three requests without a payload. -/
theorem encodeBareRequests : Obligations.EncodeBareRequests := by
  refine fun s => ⟨fun m => ?obtainId, fun m => ?motorEnable, fun m => ?feedback⟩
  all_goals refine congrArg (fun f => Host.Outcome.next (s.built f)) ?_
  case obtainId => exact buildFrame_request m.canId _ muxObtainId (payload := []) (n := 8) rfl
  case motorEnable => exact buildFrame_request m.canId _ s.params.muxMotorEnable (payload := []) (n := 8) rfl
  case feedback => exact buildFrame_request m.canId _ s.params.muxFeedbackReq (payload := []) (n := 8) rfl

/-- Settles O19: the Control frame is a request without padding. -/
theorem encodeControl : Obligations.EncodeControl := by
  intro s m
  rw [exec_encControl_eq, storeControlReq_bytes]

/-- Settles O20: the payload is the UID, no padding. -/
theorem encodeReadAllParams : Obligations.EncodeReadAllParams := fun s m =>
  congrArg (fun f => Host.Outcome.next (s.built f))
    (buildFrame_request m.canId s.params.hostData16.readAllParams muxReadAllParams (payload := bytesLe m.mcuUid 8) (n := 0) rfl)

/-- Settles O21: the two payloads are the parameters'. -/
theorem encodeParameterPayloadRequests : Obligations.EncodeParameterPayloadRequests := by
  refine fun s => ⟨fun m => ?zeroPosition, fun m => ?dataSave⟩
  all_goals refine congrArg (fun f => Host.Outcome.next (s.built f)) ?_
  case zeroPosition =>
    exact buildFrame_request m.canId _ muxZeroPosition (payload := s.params.zeroPosPayload.toList) (n := 0) rfl
  case dataSave =>
    exact buildFrame_request m.canId _ muxDataSave (payload := s.params.dataSavePayload.toList) (n := 0) rfl

/-- Settles O22: the index alone, and the index with its gap and its data. -/
theorem encodeParamReadAndWrite : Obligations.EncodeParamReadAndWrite := by
  refine fun s => ⟨fun m => ?read, fun m => ?write⟩
  all_goals refine congrArg (fun f => Host.Outcome.next (s.built f)) ?_
  case read => exact buildFrame_request m.canId _ muxParamRead (payload := bytesLe m.index 2) (n := 6) rfl
  case write =>
    exact buildFrame_request m.canId _ muxParamWrite (payload := bytesLe m.index 2 ++ [0, 0] ++ m.data.toList) (n := 0) rfl

/-! ### The packers -/

/-- Settles O23: a response whose payload is the UID. -/
theorem packObtainIdResponse : Obligations.PackObtainIdResponse := fun s m =>
  congrArg (fun f => Host.Outcome.next (s.built f))
    (buildFrame_response m.host m.canId m.aux muxObtainId m.hdr (payload := bytesLe m.mcuUid 8) rfl)

/-- Settles O24: a response whose payload is the three axes and the tail. -/
theorem packFeedbackResponse : Obligations.PackFeedbackResponse := fun s m =>
  congrArg (fun f => Host.Outcome.next (s.built f))
    (buildFrame_response m.host m.canId m.status muxFeedback m.hdr
      (payload := bytesBe m.angle 2 ++ bytesBe m.velocity 2 ++ bytesBe m.torque 2 ++ m.tail.toList) rfl)

/-- Settles O25: a response whose payload is the code and the fragment. -/
theorem packReadAllParamsResponse : Obligations.PackReadAllParamsResponse := fun s m =>
  congrArg (fun f => Host.Outcome.next (s.built f))
    (buildFrame_response m.host m.canId m.byteMarker muxReadAllParams m.hdr
      (payload := bytesLe m.paramCode 2 ++ m.data.toList) rfl)

/-- Settles O26: a response whose payload is the index, the reserved bytes and the data. -/
theorem packParamReadResponse : Obligations.PackParamReadResponse := fun s m =>
  congrArg (fun f => Host.Outcome.next (s.built f))
    (buildFrame_response m.host m.canId m.status muxParamRead m.hdr
      (payload := bytesLe m.index 2 ++ m.rsv.toList ++ m.data.toList) rfl)

end Sys2Proof.Machine
end

section
/-! The fields the unpackers deliver, as numbers (30_encoding.md sections 3 and 5, 42_decode.md R118). -/

namespace Sys2Proof.Machine

theorem unpackHdr_res2_toNat (f : Frame) : (unpackHdr f).res2.toNat = (Memory.read f 3).toNat / 32 % 4 := by
  unfold unpackHdr
  rw [BitVec.extractLsb'_toNat, Nat.shiftRight_eq_div_pow]

theorem frameLe16_toNat (f : Frame) (off : Nat) :
    (frameLe16 f off).toNat = (Memory.read f off).toNat + 256 * (Memory.read f (off + 1)).toNat := le16_toNat _ _

theorem frameBe16_toNat (f : Frame) (off : Nat) :
    (frameBe16 f off).toNat = 256 * (Memory.read f off).toNat + (Memory.read f (off + 1)).toNat := be16_toNat _ _

theorem frameLe64_toNat (f : Frame) (off : Nat) :
    (frameLe64 f off).toNat = (Memory.read f off).toNat + 2 ^ 8 * (Memory.read f (off + 1)).toNat +
      2 ^ 16 * (Memory.read f (off + 2)).toNat + 2 ^ 24 * (Memory.read f (off + 3)).toNat +
      2 ^ 32 * (Memory.read f (off + 4)).toNat + 2 ^ 40 * (Memory.read f (off + 5)).toNat +
      2 ^ 48 * (Memory.read f (off + 6)).toNat + 2 ^ 56 * (Memory.read f (off + 7)).toNat := le64_toNat _

/-! ### Responses -/

/-- Settles O27: the UID and `res2` are the only fields that are not whole bytes as they stand. -/
theorem unpackObtainIdResponse : Obligations.UnpackObtainIdResponse := fun s =>
  ⟨loadObtainIdResp s.frameIn, rfl, rfl, rfl, rfl, frameLe64_toNat s.frameIn 8, unpackHdr_res2_toNat s.frameIn,
    rfl, rfl, rfl, rfl⟩

/-- Settles O28: the three axes and `res2` are the fields that are not whole bytes as they stand. -/
theorem unpackFeedbackResponse : Obligations.UnpackFeedbackResponse := fun s =>
  ⟨loadFeedbackResp s.frameIn, rfl, rfl, rfl, rfl, frameBe16_toNat s.frameIn 8, frameBe16_toNat s.frameIn 10,
    frameBe16_toNat s.frameIn 12, rfl, rfl, unpackHdr_res2_toNat s.frameIn, rfl, rfl, rfl, rfl⟩

/-- Settles O29: the code and `res2` are the fields that are not whole bytes as they stand. -/
theorem unpackReadAllParamsResponse : Obligations.UnpackReadAllParamsResponse := fun s =>
  ⟨loadReadAllParamsResp s.frameIn, rfl, rfl, rfl, rfl, frameLe16_toNat s.frameIn 8, rfl, rfl, rfl, rfl, rfl, rfl,
    unpackHdr_res2_toNat s.frameIn, rfl, rfl, rfl, rfl⟩

/-- Settles O30: the index and `res2` are the fields that are not whole bytes as they stand. -/
theorem unpackParamReadResponse : Obligations.UnpackParamReadResponse := fun s =>
  ⟨loadParamReadResp s.frameIn, rfl, rfl, rfl, rfl, frameLe16_toNat s.frameIn 8, rfl, rfl, rfl, rfl, rfl, rfl,
    unpackHdr_res2_toNat s.frameIn, rfl, rfl, rfl, rfl⟩

/-! ### Requests -/

/-- Settles O31: each of the five delivers byte 0 and nothing else. -/
theorem unpackBareRequests : Obligations.UnpackBareRequests := fun _ => ⟨rfl, rfl, rfl, rfl, rfl⟩

/-- Settles O32: each field of two or eight bytes by the rule of its byte order. -/
theorem unpackOperandRequests : Obligations.UnpackOperandRequests := by
  refine fun s => ⟨?control, ?readAllParams, ?paramRead, ?paramWrite⟩
  case control =>
    exact ⟨loadControlReq s.frameIn, rfl, rfl, frameLe16_toNat s.frameIn 1, frameBe16_toNat s.frameIn 8,
      frameBe16_toNat s.frameIn 10, frameBe16_toNat s.frameIn 12, frameBe16_toNat s.frameIn 14⟩
  case readAllParams => exact ⟨loadReadAllParamsReq s.frameIn, rfl, rfl, frameLe64_toNat s.frameIn 8⟩
  case paramRead => exact ⟨loadParamReadReq s.frameIn, rfl, rfl, frameLe16_toNat s.frameIn 8⟩
  case paramWrite =>
    exact ⟨loadParamWriteReq s.frameIn, rfl, rfl, frameLe16_toNat s.frameIn 8, rfl, rfl, rfl, rfl⟩

end Sys2Proof.Machine
end

section
/-! The decoder's dispatch read off the frame itself (42_decode.md section 2): which muxes a frame's parameters take, what
`DEC` answers on a frame whose flag is not cleared, and the table rows those muxes stand for. -/

namespace Sys2Proof.Machine

/-! ### The answer depends on what the frame reads as, and not on the flag -/

/-- Clearing the flag changes no field of any response. -/
theorem responseOf_clearEff (m : BitVec 5) (f : Frame) : responseOf m (clearEff f) = responseOf m f := by
  unfold responseOf
  rw [loadObtainIdResp_clearEff, loadFeedbackResp_clearEff, loadParamReadResp_clearEff, loadReadAllParamsResp_clearEff]

theorem responseOf_congr (m : BitVec 5) {f g : Frame} (h : ∀ a, Memory.read g a = Memory.read f a) :
    responseOf m g = responseOf m f := by
  simp only [responseOf, loadObtainIdResp, loadFeedbackResp, loadParamReadResp, loadReadAllParamsResp, unpackHdr,
    frameLe16, frameBe16, frameLe64, frameBytes2, frameBytes4, frameBytes6, frameBytes8, h]

theorem exec_dec_of_mux {s : State} {m : BitVec 5} (hm : (Memory.read s.frameIn 3).toNat % 32 = m.toNat)
    (hd : decodable s.params m = true) : exec .dec s = .next (s.answered (.response (responseOf m s.frameIn))) := by
  have hmux : muxOf s.frameIn = m := BitVec.eq_of_toNat_eq ((muxOf_toNat _).trans hm)
  rw [exec_dec_eq, decodeFrame_eq, hmux, if_pos hd, responseOf_clearEff]

/-- `DECODABLE_MUX` as R121 states it: four muxes, each with its own switch. -/
theorem decodable_iff (p : Params) (m : BitVec 5) :
    decodable p m = true ↔
      (m.toNat = 0x00 ∧ p.decodableMux.obtainId = true) ∨ (m.toNat = 0x02 ∧ p.decodableMux.feedback = true) ∨
      (m.toNat = 0x11 ∧ p.decodableMux.paramRead = true) ∨ (m.toNat = 0x13 ∧ p.decodableMux.readAllParams = true) := by
  have heq (k : BitVec 5) : m = k ↔ m.toNat = k.toNat := ⟨congrArg _, BitVec.eq_of_toNat_eq⟩
  unfold decodable
  simp only [Bool.or_eq_true, Bool.and_eq_true, beq_iff_eq, heq, or_assoc, and_comm]
  exact Iff.rfl

/-- Settles O33: the decoder's answer at each mux, and its error where no switch of `DECODABLE_MUX` admits the mux. -/
theorem decDispatchesOnTheMux : Obligations.DecDispatchesOnTheMux := by
  refine fun s => ⟨fun hm hd => ?obtainId, fun hm hd => ?feedback, fun hm hd => ?paramRead, fun hm hd => ?readAllParams,
    fun hnone => ?unknown⟩
  case obtainId => exact ⟨_, rfl, exec_dec_of_mux (m := muxObtainId) hm ((decodable_iff ..).2 (.inl ⟨rfl, hd⟩))⟩
  case feedback => exact ⟨_, rfl, exec_dec_of_mux (m := muxFeedback) hm ((decodable_iff ..).2 (.inr (.inl ⟨rfl, hd⟩)))⟩
  case paramRead =>
    exact ⟨_, rfl, exec_dec_of_mux (m := muxParamRead) hm ((decodable_iff ..).2 (.inr (.inr (.inl ⟨rfl, hd⟩))))⟩
  case readAllParams =>
    exact ⟨_, rfl, exec_dec_of_mux (m := muxReadAllParams) hm ((decodable_iff ..).2 (.inr (.inr (.inr ⟨rfl, hd⟩))))⟩
  case unknown =>
    rw [← muxOf_toNat, ← decodable_iff, Bool.not_eq_true] at hnone
    rw [exec_dec_eq, decodeFrame_eq, hnone, if_neg Bool.false_ne_true, muxOf_eq_ofNat]

/-! ### The response rows of the table -/

/-- A word fits a row whose mask is the mux's five bits exactly when its mux is the row's. -/
theorem fits_frameIdentifier_iff (o : Operation) (m : BitVec 5) (hmask : o.identifier.2 = le32 0 0 0 0x1F)
    (hmatch : o.identifier.1 = le32 0 0 0 (m.setWidth 8)) (f : Frame) :
    o.fits (frameIdentifier f) = true ↔ muxOf f = m := by
  have htop (a b : Byte) : le32 0 0 0 a = le32 0 0 0 b ↔ a = b := by
    refine ⟨fun h => BitVec.eq_of_toNat_eq ?_, fun h => h ▸ rfl⟩
    have := congrArg BitVec.toNat h
    simp only [le32_toNat] at this
    omega
  have hzero (b : Byte) : b &&& 0 = 0 := BitVec.and_zero
  have hwiden : (m.setWidth 8).toNat = m.toNat := BitVec.toNat_setWidth_of_le (by omega)
  unfold Operation.fits frameIdentifier
  rw [hmask, hmatch, le32_and, beq_iff_eq, hzero, hzero, hzero, htop, ← BitVec.toNat_inj, ← BitVec.toNat_inj,
    and_muxMask_toNat, muxOf_toNat, hwiden]

/-- With the defaults a mux that is not decodable is none of the four. -/
theorem not_decodable_default_iff (m : BitVec 5) :
    decodable Params.default m = false ↔
      m ≠ muxObtainId ∧ m ≠ muxFeedback ∧ m ≠ muxParamRead ∧ m ≠ muxReadAllParams := by
  revert m
  decide

/-- Settles O5: each row's word is its mux, and with the defaults the mux alone decides. -/
theorem responseRowsSelectTheShape : Obligations.ResponseRowsSelectTheShape := by
  intro s hp
  have hobtain := fits_frameIdentifier_iff .unpackObtainIdResp muxObtainId (by decide) (by decide) s.frameIn
  have hfeedback := fits_frameIdentifier_iff .unpackFeedbackResp muxFeedback (by decide) (by decide) s.frameIn
  have hparam := fits_frameIdentifier_iff .unpackParamReadResp muxParamRead (by decide) (by decide) s.frameIn
  have hreadAll := fits_frameIdentifier_iff .unpackReadAllParamsResp muxReadAllParams (by decide) (by decide) s.frameIn
  simp only [← Bool.not_eq_true, hobtain, hfeedback, hparam, hreadAll, exec_dec_eq]
  obtain ⟨hd, h⟩ | ⟨-, hm, h⟩ | ⟨-, hm, h⟩ | ⟨-, hm, h⟩ | ⟨-, hm, h⟩ := decodeFrame_cases s.params s.frameIn
  case inl =>
    rw [hp, not_decodable_default_iff] at hd
    obtain ⟨h1, h2, h3, h4⟩ := hd
    simp only [h, h1, h2, h3, h4, failed_inj, answered_ne_failed.symm]
    simp
  -- on a decodable mux the shapes differ, and so do the muxes
  all_goals
    simp only [h, hm, answered_inj, answered_ne_failed]
    simp [muxObtainId, muxFeedback, muxParamRead, muxReadAllParams]

/-! ### The compound decoder (42_decode.md section 5) -/

theorem exec_feedbackToEng_eq (ranges : RangeSet) (s : State) :
    exec (.feedbackToEng ranges) s =
      match decodeFrame s.params s.frameIn with
      | .error e => .next (s.failed e)
      | .ok (.feedback m) => .next (s.answered (.feedbackUpdate m.canId (scaleFeedback s.params.numerics m ranges)))
      | .ok _ => .next (s.failed (.notFeedback (muxOf s.frameIn))) := by
  simp only [exec, execFeedbackToEng]
  rcases decodeFrame s.params s.frameIn with e | (m | m | m | m) <;> rfl

/-- A two-byte field by the number its bytes make. -/
theorem frameBe16_eq_ofNat (f : Frame) (off : Nat) :
    frameBe16 f off = BitVec.ofNat 16 (256 * (Memory.read f off).toNat + (Memory.read f (off + 1)).toNat) := by
  rw [← frameBe16_toNat, BitVec.ofNat_toNat, BitVec.setWidth_eq]

/-- Settles O55: the decoded feedback record, its three fields scaled. -/
theorem feedbackToEngCompletes : Obligations.FeedbackToEngCompletes := by
  intro s ranges hm hd
  have hdec := decodeFrame_of_answered
    (exec_dec_of_mux (m := muxFeedback) hm ((decodable_iff ..).2 (.inr (.inl ⟨rfl, hd⟩))))
  refine ⟨_, _, _, exec_scaleFromWire_eq .., exec_scaleFromWire_eq .., exec_scaleFromWire_eq .., ?_⟩
  rw [exec_feedbackToEng_eq, hdec, ← frameBe16_eq_ofNat, ← frameBe16_eq_ofNat, ← frameBe16_eq_ofNat]
  rfl

/-- Settles O56: the decoder's error first, then the shape. -/
theorem feedbackToEngErrors : Obligations.FeedbackToEngErrors := by
  refine fun s ranges => ⟨fun e h => ?_, fun r h hshape => ?_⟩
  · rw [exec_feedbackToEng_eq, decodeFrame_of_failed h]
  · rw [exec_feedbackToEng_eq, decodeFrame_of_answered h, ← muxOf_eq_ofNat]
    cases r with
    | feedback m => exact absurd rfl (hshape m)
    | obtainId m => rfl
    | paramRead m => rfl
    | readAllParams m => rfl

/-- Settles O35: two frames that differ in the flag alone read alike once it is cleared, and have one mux. -/
theorem decodingIgnoresTheFlag : Obligations.DecodingIgnoresTheFlag := by
  intro s g ranges hother hbyte3 i hi
  have hmux : muxOf g = muxOf s.frameIn := muxOf_eq_of_lowBits (by omega)
  have hflag : ∀ b c : Byte, b.toNat % 128 = c.toNat % 128 → b &&& 0x7F = c &&& 0x7F := fun b c h =>
    BitVec.eq_of_toNat_eq (by
      rw [BitVec.toNat_and, BitVec.toNat_and]
      exact (Nat.and_two_pow_sub_one_eq_mod b.toNat 7).trans
        (h.trans (Nat.and_two_pow_sub_one_eq_mod c.toNat 7).symm))
  have hread (a : Nat) : Memory.read (clearEff g) a = Memory.read (clearEff s.frameIn) a := by
    rw [read_clearEff, read_clearEff]
    split
    · exact hflag _ _ hbyte3
    · next ha => exact hother a ha
  have hdec : decodeFrame s.params g = decodeFrame s.params s.frameIn := by
    rw [decodeFrame_eq, decodeFrame_eq, hmux, responseOf_congr _ hread]
  rcases hi with rfl | rfl
  · rw [exec_dec_eq, exec_dec_eq, hdec]
    cases decodeFrame s.params s.frameIn with
    | error e => exact ⟨_, _, rfl, rfl, rfl, rfl⟩
    | ok r => exact ⟨_, _, rfl, rfl, rfl, rfl⟩
  · rw [exec_feedbackToEng_eq, exec_feedbackToEng_eq, hdec, hmux]
    rcases decodeFrame s.params s.frameIn with e | (m | m | m | m) <;> exact ⟨_, _, rfl, rfl, rfl, rfl⟩

end Sys2Proof.Machine
end

section
/-! Round trips (42_decode.md section 4): what an unpacker reads from a built frame is the record the frame was built from, and
what a packer builds from a record read off a frame is that frame with its flag set. -/

namespace Sys2Proof.Machine

/-! ### Message to frame to message -/

/-- Off byte 3 a built frame with its flag cleared reads as its bytes. -/
theorem read_clearEff_buildFrame (dst : Byte) (data16 : BitVec 16) (mux : BitVec 5) (hdr : Hdr) {payload : List Byte}
    (h : payload.length ≤ 8) {a : Nat} (ha : a ≠ 3) :
    Memory.read (clearEff (buildFrame dst data16 mux hdr payload)) a = (builtBytes dst data16 mux hdr payload).getD a 0 := by
  rw [read_clearEff_of_ne _ ha, read_buildFrame _ _ _ _ _ h]

theorem res2_of_built (res2 : BitVec 2) (mux : BitVec 5) :
    (((res2.setWidth 8 <<< 5) ||| mux.setWidth 8) ||| 0x80 : Byte).extractLsb' 5 2 = res2 := by
  revert res2 mux
  decide

theorem unpackHdr_buildFrame (dst : Byte) (data16 : BitVec 16) (mux : BitVec 5) (hdr : Hdr) {payload : List Byte}
    (h : payload.length ≤ 8) : unpackHdr (buildFrame dst data16 mux hdr payload) = hdr := by
  unfold unpackHdr
  simp only [read_buildFrame _ _ _ _ _ h]
  exact congrArg (Hdr.mk · hdr.len hdr.pad hdr.res0 hdr.len8) (res2_of_built hdr.res2 mux)

theorem muxOf_buildFrame (dst : Byte) (data16 : BitVec 16) (mux : BitVec 5) (hdr : Hdr) {payload : List Byte}
    (h : payload.length ≤ 8) : muxOf (buildFrame dst data16 mux hdr payload) = mux := by
  have hbits : ∀ (res2 : BitVec 2) (mux : BitVec 5),
      (((res2.setWidth 8 <<< 5) ||| mux.setWidth 8 ||| 0x80) &&& muxMask).setWidth 5 = mux := by decide
  unfold muxOf
  rw [read_buildFrame _ _ _ _ _ h]
  exact hbits hdr.res2 mux

theorem loadControlReq_store (m : ControlReq) : loadControlReq (clearEff (storeControlReq m)) = m := by
  simp [loadControlReq, storeControlReq, frameLe16, frameBe16, read_clearEff_buildFrame, builtBytes]

theorem loadReadAllParamsReq_store (p : Params) (m : ReadAllParamsReq) :
    loadReadAllParamsReq (clearEff (storeReadAllParamsReq p m)) = m := by
  simp [loadReadAllParamsReq, storeReadAllParamsReq, frameLe64, frameBytes8, read_clearEff_buildFrame, builtBytes]

theorem loadParamReadReq_store (p : Params) (m : ParamReadReq) :
    loadParamReadReq (clearEff (storeParamReadReq p m)) = m := by
  simp [loadParamReadReq, storeParamReadReq, frameLe16, read_clearEff_buildFrame, builtBytes]

theorem loadParamWriteReq_store (p : Params) (m : ParamWriteReq) :
    loadParamWriteReq (clearEff (storeParamWriteReq p m)) = m := by
  simp [loadParamWriteReq, storeParamWriteReq, frameLe16, frameBytes4, Bytes4.toList, read_clearEff_buildFrame, builtBytes]

theorem loadObtainIdResp_store (m : ObtainIdResp) : loadObtainIdResp (storeObtainIdResp m) = m := by
  simp [loadObtainIdResp, storeObtainIdResp, frameLe64, frameBytes8, read_buildFrame, unpackHdr_buildFrame, builtBytes]

theorem loadFeedbackResp_store (m : FeedbackResp) : loadFeedbackResp (storeFeedbackResp m) = m := by
  simp [loadFeedbackResp, storeFeedbackResp, frameBe16, frameBytes2, Bytes2.toList, read_buildFrame, unpackHdr_buildFrame,
    builtBytes]

theorem loadReadAllParamsResp_store (m : ReadAllParamsResp) : loadReadAllParamsResp (storeReadAllParamsResp m) = m := by
  simp [loadReadAllParamsResp, storeReadAllParamsResp, frameLe16, frameBytes6, Bytes6.toList, read_buildFrame,
    unpackHdr_buildFrame, builtBytes]

theorem loadParamReadResp_store (m : ParamReadResp) : loadParamReadResp (storeParamReadResp m) = m := by
  simp [loadParamReadResp, storeParamReadResp, frameLe16, frameBytes2, frameBytes4, Bytes2.toList, Bytes4.toList,
    read_buildFrame, unpackHdr_buildFrame, builtBytes]

/-- The destination of a request, all that a request without operands carries. -/
theorem read_request_canId (canId : Byte) (data16 : BitVec 16) (mux : BitVec 5) {payload : List Byte} (h : payload.length ≤ 8) :
    Memory.read (clearEff (buildFrame canId data16 mux Hdr.canonical payload)) 0 = canId :=
  read_clearEff_buildFrame _ _ _ _ h (by omega)

/-- An encoder and an unpacker round trip if the unpacker's reading of the cleared frame is the message. -/
theorem roundTrips_of_eq {s : State} {encoder decoder : Instr} {f : Frame} {v w : Value}
    (hencode : exec encoder s = .next (s.built f))
    (hdecode : exec decoder { s.built f with frameIn := clearEff f } =
      .next (State.answered { s.built f with frameIn := clearEff f } w)) (hvalue : w = v) :
    RoundTrips s encoder decoder v :=
  ⟨f, hencode, hvalue ▸ hdecode⟩

/-- Settles O36: the five bare requests carry their destination, the other four their operands too. -/
theorem requestsRoundTrip : Obligations.RequestsRoundTrip := by
  refine fun s => ⟨fun m => ?obtainId, fun m => ?control, fun m => ?motorEnable, fun m => ?feedback, fun m => ?readAllParams,
    fun m => ?zeroPosition, fun m => ?paramRead, fun m => ?paramWrite, fun m => ?dataSave⟩
  all_goals refine roundTrips_of_eq rfl rfl ?_
  case control => exact congrArg Value.controlReq (loadControlReq_store m)
  case readAllParams => exact congrArg Value.readAllParamsReq (loadReadAllParamsReq_store s.params m)
  case paramRead => exact congrArg Value.paramReadReq (loadParamReadReq_store s.params m)
  case paramWrite => exact congrArg Value.paramWriteReq (loadParamWriteReq_store s.params m)
  case obtainId => exact congrArg (Value.obtainIdReq ⟨·⟩) (read_request_canId _ _ _ (by simp))
  case motorEnable => exact congrArg (Value.motorEnableReq ⟨·⟩) (read_request_canId _ _ _ (by simp))
  case feedback => exact congrArg (Value.feedbackReq ⟨·⟩) (read_request_canId _ _ _ (by simp))
  case zeroPosition => exact congrArg (Value.zeroPositionReq ⟨·⟩) (read_request_canId _ _ _ (by simp [Bytes8.toList]))
  case dataSave => exact congrArg (Value.dataSaveReq ⟨·⟩) (read_request_canId _ _ _ (by simp [Bytes8.toList]))

/-- `DEC` on a frame of a decodable mux: the response read from the frame as it stands. -/
theorem exec_dec_of_muxOf {s : State} {f : Frame} {m : BitVec 5} {r : Response} (hm : muxOf f = m)
    (hd : decodable s.params m = true) (hr : responseOf m f = r) :
    exec .dec { s with frameIn := f } = .next (State.answered { s with frameIn := f } (.response r)) :=
  hr ▸ exec_dec_of_mux (s := { s with frameIn := f }) ((muxOf_toNat f).symm.trans (congrArg _ hm)) hd

/-- Settles O37: the unpackers read the records back, and the built frame's mux is the shape's. -/
theorem responsesRoundTrip : Obligations.ResponsesRoundTrip := by
  refine fun s => ⟨fun m => ?obtainId, fun m => ?feedback, fun m => ?readAllParams, fun m => ?paramRead⟩
  case obtainId =>
    have hmux : muxOf (storeObtainIdResp m) = muxObtainId := muxOf_buildFrame _ _ _ _ (by simp)
    exact ⟨roundTrips_of_eq rfl rfl
        (congrArg Value.obtainIdResp ((loadObtainIdResp_clearEff _).trans (loadObtainIdResp_store m))),
      fun hd => ⟨_, rfl, exec_dec_of_muxOf hmux ((decodable_iff ..).2 (.inl ⟨rfl, hd⟩))
        (congrArg Response.obtainId (loadObtainIdResp_store m))⟩⟩
  case feedback =>
    have hmux : muxOf (storeFeedbackResp m) = muxFeedback := muxOf_buildFrame _ _ _ _ (by simp [Bytes2.toList])
    exact ⟨roundTrips_of_eq rfl rfl
        (congrArg Value.feedbackResp ((loadFeedbackResp_clearEff _).trans (loadFeedbackResp_store m))),
      fun hd => ⟨_, rfl, exec_dec_of_muxOf hmux ((decodable_iff ..).2 (.inr (.inl ⟨rfl, hd⟩)))
        (congrArg Response.feedback (loadFeedbackResp_store m))⟩⟩
  case readAllParams =>
    have hmux : muxOf (storeReadAllParamsResp m) = muxReadAllParams :=
      muxOf_buildFrame _ _ _ _ (by simp [Bytes6.toList])
    exact ⟨roundTrips_of_eq rfl rfl
        (congrArg Value.readAllParamsResp ((loadReadAllParamsResp_clearEff _).trans (loadReadAllParamsResp_store m))),
      fun hd => ⟨_, rfl, exec_dec_of_muxOf hmux ((decodable_iff ..).2 (.inr (.inr (.inr ⟨rfl, hd⟩))))
        (congrArg Response.readAllParams (loadReadAllParamsResp_store m))⟩⟩
  case paramRead =>
    have hmux : muxOf (storeParamReadResp m) = muxParamRead :=
      muxOf_buildFrame _ _ _ _ (by simp [Bytes2.toList, Bytes4.toList])
    exact ⟨roundTrips_of_eq rfl rfl
        (congrArg Value.paramReadResp ((loadParamReadResp_clearEff _).trans (loadParamReadResp_store m))),
      fun hd => ⟨_, rfl, exec_dec_of_muxOf hmux ((decodable_iff ..).2 (.inr (.inr (.inl ⟨rfl, hd⟩))))
        (congrArg Response.paramRead (loadParamReadResp_store m))⟩⟩

/-! ### Frame to message to frame -/

/-- Byte 3 rebuilt from the `res2` and the mux read off it, with the flag set. -/
theorem byte3_rebuilt (b : Byte) :
    (((b.extractLsb' 5 2).setWidth 8 <<< 5) ||| ((b &&& muxMask).setWidth 5).setWidth 8) ||| 0x80 = b ||| 0x80 := by
  revert b
  decide

/-- A frame built from what a canonical frame reads as is that frame with its flag set. -/
theorem buildFrame_eq_setEff {f : Frame} (hwf : Memory.wf f = true) {mux : BitVec 5} (hmux : muxOf f = mux)
    {payload : List Byte} (hpayload : payload = frameRead f 8 8) :
    buildFrame (Memory.read f 0) (le16 (Memory.read f 1) (Memory.read f 2)) mux (unpackHdr f) payload = setEff f := by
  subst hpayload hmux
  refine Memory.ext_of_wf (buildFrame_wf ..) (setEff_wf hwf) fun x hx => ?_
  rw [read_buildFrame _ _ _ _ _ (by simp [frameRead]), read_setEff]
  have hbyte3 := byte3_rebuilt (Memory.read f 3)
  by_cases h3 : x = 3
  · subst h3
    exact hbyte3
  · rw [if_neg h3]
    interval_cases x <;> simp_all [builtBytes, frameRead, unpackHdr, List.range_succ]

theorem muxOf_eq_of_toNat {f : Frame} {m : BitVec 5} (h : (Memory.read f 3).toNat % 32 = m.toNat) : muxOf f = m :=
  BitVec.eq_of_toNat_eq ((muxOf_toNat f).trans h)

theorem storeObtainIdResp_load {f : Frame} (hwf : Memory.wf f = true) (hm : muxOf f = muxObtainId) :
    storeObtainIdResp (loadObtainIdResp f) = setEff f := by
  refine buildFrame_eq_setEff hwf hm ?_
  obtain ⟨h0, h1, h2, h3, h4, h5, h6, h7⟩ := byteOf_le64 (frameBytes8 f 8)
  rw [bytesLe_eight]
  simp only [loadObtainIdResp, frameLe64, h0, h1, h2, h3, h4, h5, h6, h7]
  rfl

theorem storeFeedbackResp_load {f : Frame} (hwf : Memory.wf f = true) (hm : muxOf f = muxFeedback) :
    storeFeedbackResp (loadFeedbackResp f) = setEff f := by
  refine buildFrame_eq_setEff hwf hm ?_
  simp only [loadFeedbackResp, frameBe16, bytesBe_two, byteOf_be16_zero, byteOf_be16_one]
  rfl

theorem storeReadAllParamsResp_load {f : Frame} (hwf : Memory.wf f = true) (hm : muxOf f = muxReadAllParams) :
    storeReadAllParamsResp (loadReadAllParamsResp f) = setEff f := by
  refine buildFrame_eq_setEff hwf hm ?_
  simp only [loadReadAllParamsResp, frameLe16, bytesLe_two, byteOf_le16_zero, byteOf_le16_one]
  rfl

theorem storeParamReadResp_load {f : Frame} (hwf : Memory.wf f = true) (hm : muxOf f = muxParamRead) :
    storeParamReadResp (loadParamReadResp f) = setEff f := by
  refine buildFrame_eq_setEff hwf hm ?_
  simp only [loadParamReadResp, frameLe16, bytesLe_two, byteOf_le16_zero, byteOf_le16_one]
  rfl

/-- Settles O38: the unpacker reads the same record with the flag cleared, and that record rebuilds the frame. -/
theorem responsesAreLossless : Obligations.ResponsesAreLossless := by
  refine fun s hwf => ⟨fun hm => ?obtainId, fun hm => ?feedback, fun hm => ?readAllParams, fun hm => ?paramRead⟩
  all_goals refine ⟨_, rfl, congrArg (fun f => Host.Outcome.next (s.built f)) ?_⟩
  case obtainId =>
    rw [loadObtainIdResp_clearEff]
    exact storeObtainIdResp_load hwf (muxOf_eq_of_toNat hm)
  case feedback =>
    rw [loadFeedbackResp_clearEff]
    exact storeFeedbackResp_load hwf (muxOf_eq_of_toNat hm)
  case readAllParams =>
    rw [loadReadAllParamsResp_clearEff]
    exact storeReadAllParamsResp_load hwf (muxOf_eq_of_toNat hm)
  case paramRead =>
    rw [loadParamReadResp_clearEff]
    exact storeParamReadResp_load hwf (muxOf_eq_of_toNat hm)

end Sys2Proof.Machine
end

section
/-! The finite binary64 values as a scale (40_scaler.md section 2): the size of a magnitude rises with it, one binade
at a time, and `roundMag` picks one of the two magnitudes a quotient lies between. -/

namespace Sys2Proof

/-! ### Magnitudes and their sizes -/

/-- Magnitude zero is the number zero. -/
@[simp] theorem F64.unitsOfMag_zero : F64.unitsOfMag 0 = 0 := rfl

/-- A multiple `R` of the spacing of binade `k`, the upper end of the binade included. -/
theorem F64.unitsOfMag_binade {k R : Nat} (hlow : k = 0 ∨ 2 ^ 52 ≤ R) (hhigh : R ≤ 2 ^ 53) :
    F64.unitsOfMag (k * 2 ^ 52 + R) = R * 2 ^ k := by
  by_cases hsub : R < 2 ^ 52
  · obtain rfl : k = 0 := by omega
    rw [F64.unitsOfMag_of_subnormal (by omega)]
    omega
  · by_cases htop : R = 2 ^ 53
    · subst htop
      have he : (k * 2 ^ 52 + 2 ^ 53) / 2 ^ 52 = k + 2 := by omega
      rw [F64.unitsOfMag_of_normal (by omega), he, show (k * 2 ^ 52 + 2 ^ 53) % 2 ^ 52 = 0 by omega,
        show k + 2 - 1 = k + 1 by omega, pow_succ]
      ring
    · have he : (k * 2 ^ 52 + R) / 2 ^ 52 = k + 1 := by omega
      rw [F64.unitsOfMag_of_normal (by omega), he, Nat.add_sub_cancel]
      congr 1
      omega

/-- Every magnitude is a multiple of the spacing of its binade. -/
theorem F64.exists_binade (mag : Nat) : ∃ k R, (k = 0 ∨ 2 ^ 52 ≤ R) ∧ R < 2 ^ 53 ∧ mag = k * 2 ^ 52 + R := by
  by_cases h : mag < 2 ^ 53
  · exact ⟨0, mag, .inl rfl, h, by omega⟩
  · exact ⟨mag / 2 ^ 52 - 1, 2 ^ 52 + mag % 2 ^ 52, by omega, by omega, by omega⟩

theorem F64.unitsOfMag_lt_succ (mag : Nat) : F64.unitsOfMag mag < F64.unitsOfMag (mag + 1) := by
  obtain ⟨k, R, hlow, hhigh, rfl⟩ := F64.exists_binade mag
  rw [Nat.add_assoc, F64.unitsOfMag_binade hlow hhigh.le, F64.unitsOfMag_binade (by omega) hhigh]
  exact Nat.mul_lt_mul_of_pos_right (Nat.lt_succ_self R) (Nat.two_pow_pos k)

theorem F64.unitsOfMag_strictMono : StrictMono F64.unitsOfMag := strictMono_nat_of_lt_succ F64.unitsOfMag_lt_succ

theorem F64.unitsOfOne_pos : 0 < F64.unitsOfOne := by
  unfold F64.unitsOfOne
  positivity

/-! ### Rounding a quotient -/

/-- Whether `n / d`, which lies between the sizes of `mag` and of the next magnitude, rounds to the greater. -/
def F64.roundsUp (n d mag : Nat) : Prop :=
  (F64.unitsOfMag mag + F64.unitsOfMag (mag + 1)) * d < 2 * n ∨
    ((F64.unitsOfMag mag + F64.unitsOfMag (mag + 1)) * d = 2 * n ∧ mag % 2 = 1)

/-- The binade `roundMag` works in: the quotient, in its spacing, fills 53 bits or the binade is the lowest. -/
theorem F64.quotient_in_binade (n d : Nat) :
    ((n / d).log2 - 52 = 0 ∨ 2 ^ 52 ≤ n / (d * 2 ^ ((n / d).log2 - 52))) ∧ n / (d * 2 ^ ((n / d).log2 - 52)) < 2 ^ 53 := by
  rw [← Nat.div_div_eq_div_mul]
  generalize n / d = Q
  have hlt : Q < 2 ^ (Q.log2 + 1) := Nat.lt_log2_self
  by_cases hsmall : Q.log2 ≤ 52
  · have hk : Q.log2 - 52 = 0 := by omega
    rw [hk, Nat.pow_zero, Nat.div_one]
    exact ⟨.inl rfl, hlt.trans_le (Nat.pow_le_pow_right (by omega) (by omega))⟩
  · obtain ⟨k, hk⟩ : ∃ k, Q.log2 = 52 + k := ⟨Q.log2 - 52, by omega⟩
    have hQ : Q ≠ 0 := by rintro rfl; simp at hsmall
    have hge : 2 ^ (52 + k) ≤ Q := hk ▸ Nat.log2_self_le hQ
    rw [hk, show 52 + k + 1 = 53 + k by omega, Nat.pow_add] at hlt
    rw [Nat.pow_add] at hge
    rw [hk, Nat.add_sub_cancel_left]
    exact ⟨.inr ((Nat.le_div_iff_mul_le (Nat.two_pow_pos k)).2 hge), Nat.div_lt_of_lt_mul (by rwa [Nat.mul_comm])⟩

/-- `roundMag` takes the magnitude below the quotient or the one above it, whichever is nearer, the even one on a tie. -/
theorem F64.roundMag_spec (n : Nat) {d : Nat} (hd : 0 < d) :
    ∃ mag, F64.unitsOfMag mag * d ≤ n ∧ n < F64.unitsOfMag (mag + 1) * d ∧
      ((F64.roundsUp n d mag ∧ F64.roundMag n d = min (mag + 1) F64.infMag) ∨
        (¬ F64.roundsUp n d mag ∧ F64.roundMag n d = min mag F64.infMag)) := by
  obtain ⟨hlow, hhigh⟩ := F64.quotient_in_binade n d
  unfold F64.roundMag F64.roundsUp
  dsimp only
  generalize (n / d).log2 - 52 = k at *
  have hD : 0 < d * 2 ^ k := Nat.mul_pos hd (Nat.two_pow_pos k)
  have hn : d * 2 ^ k * (n / (d * 2 ^ k)) + n % (d * 2 ^ k) = n := Nat.div_add_mod ..
  have hr : n % (d * 2 ^ k) < d * 2 ^ k := Nat.mod_lt _ hD
  refine ⟨k * 2 ^ 52 + n / (d * 2 ^ k), ?_⟩
  rw [Nat.add_assoc, F64.unitsOfMag_binade hlow hhigh.le, F64.unitsOfMag_binade (by omega) hhigh]
  unfold F64.nearestEven
  dsimp only
  generalize n / (d * 2 ^ k) = q at *
  generalize n % (d * 2 ^ k) = r at *
  have hq : q * 2 ^ k * d = d * 2 ^ k * q := by ring
  have hq1 : (q + 1) * 2 ^ k * d = d * 2 ^ k * q + d * 2 ^ k := by ring
  have hsum : (q * 2 ^ k + (q + 1) * 2 ^ k) * d = 2 * (d * 2 ^ k * q) + d * 2 ^ k := by ring
  have hparity : (k * 2 ^ 52 + q) % 2 = q % 2 := by omega
  rw [hq, hq1, hsum, hparity]
  generalize d * 2 ^ k * q = lower at *
  generalize d * 2 ^ k = D at *
  refine ⟨by omega, by omega, ?_⟩
  by_cases hup : D < 2 * r ∨ (2 * r = D ∧ q % 2 = 1)
  · refine .inl ⟨by omega, ?_⟩
    rw [if_pos (by simpa using hup)]
  · refine .inr ⟨by omega, ?_⟩
    rw [if_neg (by simpa using hup)]

/-- A greater quotient never rounds to a smaller magnitude. -/
theorem F64.roundMag_mono {n d n' d' : Nat} (hd : 0 < d) (hd' : 0 < d') (h : n * d' ≤ n' * d) :
    F64.roundMag n d ≤ F64.roundMag n' d' := by
  obtain ⟨m, hle, hlt, hm⟩ := F64.roundMag_spec n hd
  obtain ⟨m', hle', hlt', hm'⟩ := F64.roundMag_spec n' hd'
  have hmm : m ≤ m' := by
    have hunits : F64.unitsOfMag m < F64.unitsOfMag (m' + 1) := by
      by_contra hge
      have := Nat.mul_le_mul_right (d * d') (Nat.not_lt.1 hge)
      nlinarith [Nat.mul_le_mul_right d' hle, Nat.mul_lt_mul_of_pos_right hlt' hd]
    exact Nat.lt_succ_iff.1 (F64.unitsOfMag_strictMono.lt_iff_lt.1 hunits)
  have hups : m = m' → F64.roundsUp n d m → F64.roundsUp n' d' m' := by
    rintro rfl hup
    unfold F64.roundsUp at *
    generalize F64.unitsOfMag m + F64.unitsOfMag (m + 1) = mid at *
    rcases hup with hup | ⟨htie, hodd⟩
    · refine .inl (Nat.lt_of_mul_lt_mul_right (a := d) ?_)
      nlinarith [Nat.mul_lt_mul_of_pos_right hup hd']
    · have : mid * d' ≤ 2 * n' := Nat.le_of_mul_le_mul_right (c := d) (by nlinarith [congrArg (· * d') htie]) hd
      omega
  rcases hm with ⟨hup, hm⟩ | ⟨-, hm⟩ <;> rcases hm' with ⟨-, hm'⟩ | ⟨hup', hm'⟩ <;> rw [hm, hm']
  · exact min_le_min_right _ (by omega)
  · have : m ≠ m' := fun heq => hup' (hups heq hup)
    exact min_le_min_right _ (by omega)
  · exact min_le_min_right _ (by omega)
  · exact min_le_min_right _ hmm

end Sys2Proof
end

section
/-! Correct rounding (40_scaler.md R82): `roundKey` is the place, in the order of all values, that an exact number of units rounds
to. Every finite result of the four operations stands at the `roundKey` of its exact result; that place determines the
number, is monotone, and is correctly rounded. -/

namespace Sys2Proof

/-! ### Order and number -/

theorem F64.key_nonneg_iff (x : F64) : 0 ≤ x.key ↔ x.sign = false ∨ x.mag = 0 := by
  unfold F64.key
  cases x.sign <;> simp

theorem F64.key_natAbs (x : F64) : x.key.natAbs = x.mag := by
  unfold F64.key
  split <;> simp

/-- The number of units at a place of the order. -/
def F64.unitsAt (key : Int) : Int := key.sign * (F64.unitsOfMag key.natAbs : Int)

theorem F64.signedUnits_eq (x : F64) : x.signedUnits = F64.unitsAt x.key := by
  unfold F64.signedUnits F64.unitsAt F64.units
  rw [F64.key_natAbs]
  rcases Nat.eq_zero_or_pos x.mag with h | h
  · simp [h]
  · have hpos : (0 : Int) < x.mag := by omega
    unfold F64.key
    cases x.sign
    · simp [Int.sign_eq_one_of_pos hpos]
    · simp [Int.sign_eq_one_of_pos hpos]

theorem F64.unitsAt_natCast (mag : Nat) : F64.unitsAt mag = F64.unitsOfMag mag := by
  unfold F64.unitsAt
  rcases Nat.eq_zero_or_pos mag with rfl | h
  · rfl
  · rw [Int.sign_eq_one_of_pos (by omega), one_mul, Int.natAbs_natCast]

theorem F64.unitsAt_neg (key : Int) : F64.unitsAt (-key) = -F64.unitsAt key := by
  simp [F64.unitsAt]

theorem F64.unitsAt_strictMono : StrictMono F64.unitsAt := by
  refine strictMono_of_odd_strictMonoOn_nonneg F64.unitsAt_neg fun a ha b hb hab => ?_
  obtain ⟨m, rfl⟩ := Int.eq_ofNat_of_zero_le ha
  obtain ⟨m', rfl⟩ := Int.eq_ofNat_of_zero_le hb
  rw [F64.unitsAt_natCast, F64.unitsAt_natCast]
  exact_mod_cast F64.unitsOfMag_strictMono (by exact_mod_cast hab)

theorem F64.signedUnits_le_iff (x y : F64) : x.signedUnits ≤ y.signedUnits ↔ x.key ≤ y.key := by
  rw [F64.signedUnits_eq, F64.signedUnits_eq, F64.unitsAt_strictMono.le_iff_le]

theorem F64.signedUnits_inj (x y : F64) : x.signedUnits = y.signedUnits ↔ x.key = y.key := by
  rw [F64.signedUnits_eq, F64.signedUnits_eq, F64.unitsAt_strictMono.injective.eq_iff]

theorem F64.unitsOfOne_pos_rat : (0 : ℚ) < F64.unitsOfOne := by exact_mod_cast F64.unitsOfOne_pos

theorem F64.value_le_iff (x y : F64) : x.value ≤ y.value ↔ x.key ≤ y.key := by
  unfold F64.value
  rw [div_le_div_iff_of_pos_right F64.unitsOfOne_pos_rat, Int.cast_le, F64.signedUnits_le_iff]

theorem F64.value_inj (x y : F64) : x.value = y.value ↔ x.key = y.key := by
  rw [le_antisymm_iff, F64.value_le_iff, F64.value_le_iff, ← le_antisymm_iff]

/-! ### The place a number of units rounds to -/

/-- The place of the value nearest to `q` units, ties to even; an infinity's where `q` is too large. -/
def F64.roundKey (q : ℚ) : Int :=
  if q < 0 then -(F64.roundMag q.num.natAbs q.den : Int) else (F64.roundMag q.num.natAbs q.den : Int)

theorem F64.roundMag_congr {n d n' d' : Nat} (hd : 0 < d) (hd' : 0 < d') (h : n * d' = n' * d) :
    F64.roundMag n d = F64.roundMag n' d' :=
  le_antisymm (F64.roundMag_mono hd hd' h.le) (F64.roundMag_mono hd' hd h.ge)

theorem F64.roundKey_div (n : Nat) {d : Nat} (hd : 0 < d) : F64.roundKey ((n : ℚ) / d) = F64.roundMag n d := by
  have hq : 0 ≤ (n : ℚ) / d := by positivity
  unfold F64.roundKey
  rw [if_neg hq.not_gt, Nat.cast_inj]
  refine F64.roundMag_congr (Rat.den_pos _) hd ?_
  have hnum : (((n : ℚ) / d).num.natAbs : ℚ) = ((n : ℚ) / d).num := by
    rw [Nat.cast_natAbs, abs_of_nonneg (Rat.num_nonneg.2 hq)]
  have hfrac : (((n : ℚ) / d).num : ℚ) = (n : ℚ) / d * ((n : ℚ) / d).den := (Rat.mul_den_eq_num _).symm
  have hcross : (((n : ℚ) / d).num.natAbs : ℚ) * d = n * ((n : ℚ) / d).den := by
    rw [hnum, hfrac]
    field_simp
  exact_mod_cast hcross

theorem F64.roundKey_zero : F64.roundKey 0 = 0 := by decide

theorem F64.roundKey_neg (q : ℚ) : F64.roundKey (-q) = -F64.roundKey q := by
  rcases lt_trichotomy q 0 with h | rfl | h
  · unfold F64.roundKey
    rw [if_pos h, if_neg (by linarith), Rat.neg_num, Rat.neg_den, Int.natAbs_neg, neg_neg]
  · rw [neg_zero, F64.roundKey_zero, neg_zero]
  · unfold F64.roundKey
    rw [if_neg h.not_gt, if_pos (by linarith), Rat.neg_num, Rat.neg_den, Int.natAbs_neg]

/-- A number of units that is not negative is a quotient of two natural numbers. -/
theorem exists_nat_div {q : ℚ} (h : 0 ≤ q) : ∃ n d : Nat, 0 < d ∧ q = (n : ℚ) / d := by
  refine ⟨q.num.natAbs, q.den, q.den_pos, ?_⟩
  rw [Nat.cast_natAbs, abs_of_nonneg (Rat.num_nonneg.2 h), Rat.num_div_den]

theorem F64.roundKey_mono : Monotone F64.roundKey := by
  refine monotone_of_odd_of_monotoneOn_nonneg F64.roundKey_neg fun q hq q' hq' hle => ?_
  obtain ⟨n, d, hd, rfl⟩ := exists_nat_div hq
  obtain ⟨n', d', hd', rfl⟩ := exists_nat_div hq'
  rw [F64.roundKey_div n hd, F64.roundKey_div n' hd']
  rw [div_le_div_iff₀ (by exact_mod_cast hd) (by exact_mod_cast hd')] at hle
  exact_mod_cast F64.roundMag_mono hd hd' (by exact_mod_cast hle)

/-- A sign and a rounded magnitude stand at the place of the signed quotient. -/
theorem F64.key_ofMag_roundMag (negative : Bool) (n : Nat) {d : Nat} (hd : 0 < d) :
    (F64.ofMag negative (F64.roundMag n d)).key = F64.roundKey (if negative then -((n : ℚ) / d) else (n : ℚ) / d) := by
  unfold F64.key
  rw [F64.sign_ofMag _ (F64.roundMag_lt n d), F64.mag_ofMag _ (F64.roundMag_lt n d)]
  cases negative
  · simp [F64.roundKey_div n hd]
  · simp [F64.roundKey_neg, F64.roundKey_div n hd]

/-- A finite value needs no rounding. -/
theorem F64.roundKey_signedUnits {x : F64} (hx : x.isFinite = true) : F64.roundKey (x.signedUnits : ℚ) = x.key := by
  have hexact : F64.roundKey ((x.units : ℚ) / (1 : Nat)) = x.mag := by
    have := F64.roundMag_exact one_pos ((F64.isFinite_iff x).1 hx)
    rw [one_mul] at this
    rw [F64.roundKey_div _ one_pos, F64.units, this]
  rw [Nat.cast_one, div_one] at hexact
  unfold F64.signedUnits F64.key
  cases x.sign
  · simpa using hexact
  · simp [F64.roundKey_neg, hexact]

/-! ### Correct rounding -/

theorem F64.isNaN_ofMag {mag : Nat} (negative : Bool) (h : mag ≤ F64.infMag) : (F64.ofMag negative mag).isNaN = false := by
  have := F64.infMag_lt
  unfold F64.isNaN
  rw [F64.mag_ofMag _ (by omega)]
  simpa using h

/-- Of all finite values none lies strictly between the sizes of a magnitude and of the next. -/
theorem F64.signedUnits_le_or_ge (z : F64) (mag : Nat) :
    z.signedUnits ≤ F64.unitsOfMag mag ∨ (F64.unitsOfMag (mag + 1) : Int) ≤ z.signedUnits := by
  rw [F64.signedUnits_eq, ← F64.unitsAt_natCast, ← F64.unitsAt_natCast, F64.unitsAt_strictMono.le_iff_le,
    F64.unitsAt_strictMono.le_iff_le]
  omega

end Sys2Proof
end

section
/-! A value that stands at the place its exact result rounds to is that result correctly rounded (40_scaler.md R82), and so is
every finite sum, difference, product and quotient of the default arithmetic. -/

namespace Sys2Proof

/-! ### Negation -/

@[simp] theorem F64.key_neg (x : F64) : x.neg.key = -x.key := by
  unfold F64.key
  rw [F64.sign_neg, F64.mag_neg]
  cases x.sign <;> simp

@[simp] theorem F64.value_neg (x : F64) : x.neg.value = -x.value := by
  unfold F64.value
  rw [F64.signedUnits_neg, Int.cast_neg, neg_div]

@[simp] theorem F64.neg_neg (x : F64) : x.neg.neg = x := F64.eq_of_sign_mag (by simp) (by simp)

theorem overflowBound_pos : 0 < overflowBound := by
  exact sub_pos.2 (pow_lt_pow_right₀ one_lt_two (by omega))

theorem CorrectlyRounded.neg {exact : ℚ} {r : F64} (h : CorrectlyRounded exact r) : CorrectlyRounded (-exact) r.neg := by
  obtain ⟨hnan, hinf, hfinite⟩ := h
  refine ⟨by simpa using hnan, fun hr => ?_, fun hr => ?_⟩
  · obtain ⟨hbound, hsign⟩ := hinf (by simpa using hr)
    have hne : exact ≠ 0 := by
      rintro rfl
      rw [abs_zero] at hbound
      exact overflowBound_pos.not_ge hbound
    refine ⟨by rwa [abs_neg], ?_⟩
    rw [F64.sign_neg, Bool.not_eq_true', ← Bool.not_eq_true, hsign, neg_neg_iff_pos, not_lt]
    exact ⟨fun h => lt_of_le_of_ne h hne.symm, le_of_lt⟩
  · obtain ⟨hbound, hnearest⟩ := hfinite (by simpa using hr)
    refine ⟨by rwa [abs_neg], fun z hz => ?_⟩
    have hflip (v w : ℚ) (hvw : v = -w) : |-exact - v| = |exact - w| := by
      rw [hvw, ← abs_neg]
      ring_nf
    rw [hflip r.neg.value r.value (F64.value_neg r), hflip z.value z.neg.value (by simp), F64.mag_neg,
      F64.value_neg r, ← neg_eq_iff_eq_neg, ← F64.value_neg z]
    exact hnearest z.neg (by simpa using hz)

/-! ### The overflow bound -/

/-- The greatest finite magnitude. -/
def F64.topMag : Nat := F64.infMag - 1

theorem F64.infMag_eq : F64.infMag = F64.topMag + 1 := by decide

theorem F64.unitsOfMag_topMag : F64.unitsOfMag F64.topMag = (2 ^ 53 - 1) * 2 ^ 2045 := by
  rw [show F64.topMag = 2045 * 2 ^ 52 + (2 ^ 53 - 1) by decide]
  exact F64.unitsOfMag_binade (by decide) (by decide)

theorem F64.unitsOfMag_infMag : F64.unitsOfMag F64.infMag = 2 ^ 53 * 2 ^ 2045 := by
  rw [show F64.infMag = 2045 * 2 ^ 52 + 2 ^ 53 by decide]
  exact F64.unitsOfMag_binade (by decide) (by decide)

/-- The overflow bound, in units, is halfway from the greatest finite magnitude to the infinity's. -/
theorem F64.overflowBound_units :
    2 * (overflowBound * F64.unitsOfOne) = ((F64.unitsOfMag F64.topMag + F64.unitsOfMag F64.infMag : Nat) : ℚ) := by
  have hone : (F64.unitsOfOne : ℚ) = 2 ^ 1074 := by
    unfold F64.unitsOfOne
    generalize 1074 = k
    exact_mod_cast rfl
  have h1024 : (2 : ℚ) ^ 1024 = 2 ^ 54 * 2 ^ 970 := by rw [← pow_add]
  have h2045 : (2 : ℚ) ^ 2045 = 2 * (2 ^ 970 * 2 ^ 1074) := by rw [← pow_add, ← pow_succ']
  rw [F64.unitsOfMag_topMag, F64.unitsOfMag_infMag, ← Nat.add_mul, Nat.cast_mul, Nat.cast_pow _ 2045, Nat.cast_ofNat,
    hone, overflowBound, h1024, h2045]
  generalize (2 : ℚ) ^ 970 = a
  generalize (2 : ℚ) ^ 1074 = b
  push_cast
  ring

/-- A quotient rounds to a finite magnitude exactly below the overflow bound: the tie at the bound goes up, because the
greatest finite magnitude is odd. -/
theorem F64.roundMag_lt_infMag_iff (n : Nat) {d : Nat} (hd : 0 < d) :
    F64.roundMag n d < F64.infMag ↔ 2 * n < (F64.unitsOfMag F64.topMag + F64.unitsOfMag F64.infMag) * d := by
  obtain ⟨m, hle, hlt, hm⟩ := F64.roundMag_spec n hd
  have hmono {a b : Nat} (hab : a ≤ b) : F64.unitsOfMag a * d ≤ F64.unitsOfMag b * d :=
    Nat.mul_le_mul_right d (F64.unitsOfMag_strictMono.monotone hab)
  have hodd : F64.topMag % 2 = 1 := by decide
  rw [F64.infMag_eq] at *
  generalize F64.topMag = top at *
  rw [Nat.add_mul]
  rcases lt_trichotomy m top with hmtop | rfl | hmtop
  · have hnext := hmono (a := m + 1) (b := top) hmtop
    have htop := hmono (Nat.le_add_right top 1)
    rcases hm with ⟨-, hm⟩ | ⟨-, hm⟩ <;> rw [hm] <;> omega
  · unfold F64.roundsUp at hm
    rw [Nat.add_mul] at hm
    rcases hm with ⟨hup, hm⟩ | ⟨hup, hm⟩ <;> rw [hm] <;> omega
  · have htop := hmono (Nat.le_add_right top 1)
    have hbeyond := hmono (a := top + 1) (b := m) hmtop
    rcases hm with ⟨-, hm⟩ | ⟨-, hm⟩ <;> rw [hm] <;> omega

/-! ### Nearest on a grid -/

/-- Between two neighbours of a grid, the nearer one is nearest of the whole grid; only on a tie is another point as near. -/
theorem nearest_of_neighbours {e lo hi r z : ℚ} (hlo : lo ≤ e) (hhi : e < hi) (hz : z ≤ lo ∨ hi ≤ z)
    (hr : (r = lo ∧ 2 * e ≤ lo + hi) ∨ (r = hi ∧ lo + hi ≤ 2 * e)) :
    |e - r| < |e - z| ∨ (|e - r| = |e - z| ∧ (z = r ∨ lo + hi = 2 * e)) := by
  rcases hr with ⟨rfl, hmid⟩ | ⟨rfl, hmid⟩ <;> rcases hz with hz | hz
  · rw [abs_of_nonneg (by linarith : 0 ≤ e - r), abs_of_nonneg (by linarith : 0 ≤ e - z)]
    rcases hz.lt_or_eq with hz | rfl
    · exact .inl (by linarith)
    · exact .inr ⟨rfl, .inl rfl⟩
  · rw [abs_of_nonneg (by linarith : 0 ≤ e - r), abs_of_nonpos (by linarith : e - z ≤ 0)]
    rcases hmid.lt_or_eq with hmid | hmid
    · exact .inl (by linarith)
    · rcases hz.lt_or_eq with hz | rfl
      · exact .inl (by linarith)
      · exact .inr ⟨by linarith, .inr hmid.symm⟩
  · rw [abs_of_nonpos (by linarith : e - r ≤ 0), abs_of_nonneg (by linarith : 0 ≤ e - z)]
    rcases hmid.lt_or_eq with hmid | hmid
    · exact .inl (by linarith)
    · rcases hz.lt_or_eq with hz | rfl
      · exact .inl (by linarith)
      · exact .inr ⟨by linarith, .inr hmid⟩
  · rw [abs_of_nonpos (by linarith : e - r ≤ 0), abs_of_nonpos (by linarith : e - z ≤ 0)]
    rcases hz.lt_or_eq with hz | rfl
    · exact .inl (by linarith)
    · exact .inr ⟨rfl, .inl rfl⟩

/-- A finite rounded magnitude is the nearer of the two the quotient lies between, the even one on a tie. -/
theorem F64.roundMag_finite_spec (n : Nat) {d : Nat} (hd : 0 < d) (hfinite : F64.roundMag n d < F64.infMag) :
    ∃ mag, F64.unitsOfMag mag * d ≤ n ∧ n < F64.unitsOfMag (mag + 1) * d ∧
      ((F64.roundMag n d = mag ∧ 2 * n ≤ (F64.unitsOfMag mag + F64.unitsOfMag (mag + 1)) * d) ∨
        (F64.roundMag n d = mag + 1 ∧ (F64.unitsOfMag mag + F64.unitsOfMag (mag + 1)) * d ≤ 2 * n)) ∧
      ((F64.unitsOfMag mag + F64.unitsOfMag (mag + 1)) * d = 2 * n → F64.roundMag n d % 2 = 0) := by
  obtain ⟨m, hle, hlt, hm⟩ := F64.roundMag_spec n hd
  refine ⟨m, hle, hlt, ?_⟩
  unfold F64.roundsUp at hm
  rcases hm with ⟨hup, hm⟩ | ⟨hup, hm⟩ <;> omega

/-- Correct rounding of a quotient `n / d`, in units. -/
theorem correctlyRounded_of_key_nonneg {n d : Nat} (hd : 0 < d) {r : F64} (hnan : r.isNaN = false)
    (hkey : r.key = F64.roundMag n d) : CorrectlyRounded ((n : ℚ) / d / F64.unitsOfOne) r := by
  have hU := F64.unitsOfOne_pos_rat
  have hdq : (0 : ℚ) < d := by exact_mod_cast hd
  have hmag : r.mag = F64.roundMag n d := by rw [← F64.key_natAbs, hkey, Int.natAbs_natCast]
  have hbound : (n : ℚ) / d / F64.unitsOfOne < overflowBound ↔ r.mag < F64.infMag := by
    rw [hmag, F64.roundMag_lt_infMag_iff n hd, div_lt_iff₀ hU, div_lt_iff₀ hdq, ← @Nat.cast_lt ℚ, Nat.cast_mul,
      Nat.cast_mul, ← F64.overflowBound_units, Nat.cast_ofNat, mul_assoc 2, mul_lt_mul_iff_right₀ two_pos]
  have habs : |(n : ℚ) / d / F64.unitsOfOne| = (n : ℚ) / d / F64.unitsOfOne := abs_of_nonneg (by positivity)
  refine ⟨hnan, fun hinf => ?_, fun hfinite => ?_⟩
  · have hmax : r.mag = F64.infMag := by simpa [F64.isInf] using hinf
    have hsign : r.sign = false := by
      rcases (F64.key_nonneg_iff r).1 (by omega) with h | h
      · exact h
      · exact absurd (hmax.symm.trans h) (by decide)
    rw [habs, hsign, ← not_lt, hbound]
    refine ⟨by omega, by simp, fun h => absurd h (not_lt.2 (by positivity))⟩
  · refine ⟨by rwa [habs, hbound, ← F64.isFinite_iff], fun z _ => ?_⟩
    have hvalue (x : F64) : (n : ℚ) / d / F64.unitsOfOne - x.value = ((n : ℚ) / d - x.signedUnits) / F64.unitsOfOne := by
      rw [F64.value, sub_div]
    have hsame : z.value = r.value ↔ (z.signedUnits : ℚ) = r.signedUnits := by
      rw [F64.value_inj, ← F64.signedUnits_inj, Int.cast_inj]
    rw [hvalue, hvalue, abs_div, abs_div, div_lt_div_iff_of_pos_right (abs_pos.2 hU.ne'),
      div_left_inj' (abs_pos.2 hU.ne').ne', hsame]
    obtain ⟨m, hle, hlt, hpick, htie⟩ := F64.roundMag_finite_spec n hd (hmag ▸ (F64.isFinite_iff r).1 hfinite)
    have hr : r.signedUnits = F64.unitsOfMag r.mag := by rw [F64.signedUnits_eq, hkey, F64.unitsAt_natCast, hmag]
    have hz : (z.signedUnits : ℚ) ≤ F64.unitsOfMag m ∨ (F64.unitsOfMag (m + 1) : ℚ) ≤ z.signedUnits := by
      exact_mod_cast z.signedUnits_le_or_ge m
    have hlo : (F64.unitsOfMag m : ℚ) ≤ (n : ℚ) / d := by
      rw [le_div_iff₀ hdq]
      exact_mod_cast hle
    have hhi : (n : ℚ) / d < F64.unitsOfMag (m + 1) := by
      rw [div_lt_iff₀ hdq]
      exact_mod_cast hlt
    have hmid (a b : Nat) : (a : ℚ) + b ≤ 2 * ((n : ℚ) / d) ↔ (a + b) * d ≤ 2 * n := by
      rw [mul_div_assoc', le_div_iff₀ hdq]
      norm_cast
    have hmid' (a b : Nat) : 2 * ((n : ℚ) / d) ≤ (a : ℚ) + b ↔ 2 * n ≤ (a + b) * d := by
      rw [mul_div_assoc', div_le_iff₀ hdq]
      norm_cast
    have hnearest := nearest_of_neighbours (r := r.signedUnits) hlo hhi hz (by
      rw [hr, hmid, hmid', hmag]
      rcases hpick with ⟨h, hle⟩ | ⟨h, hle⟩ <;> rw [h]
      · exact .inl ⟨rfl, hle⟩
      · exact .inr ⟨rfl, hle⟩)
    refine hnearest.imp_right (And.imp_right (Or.imp_right fun h => hmag ▸ htie ?_))
    exact le_antisymm ((hmid _ _).1 h.le) ((hmid' _ _).1 h.ge)

/-- A value at the place its exact result rounds to is that result correctly rounded. -/
theorem correctlyRounded_of_key {q : ℚ} {r : F64} (hnan : r.isNaN = false) (hkey : r.key = F64.roundKey q) :
    CorrectlyRounded (q / F64.unitsOfOne) r := by
  have hnonneg {q : ℚ} {r : F64} (hq : 0 ≤ q) (hnan : r.isNaN = false) (hkey : r.key = F64.roundKey q) :
      CorrectlyRounded (q / F64.unitsOfOne) r := by
    obtain ⟨n, d, hd, rfl⟩ := exists_nat_div hq
    exact correctlyRounded_of_key_nonneg hd hnan (hkey.trans (F64.roundKey_div n hd))
  rcases le_total 0 q with hq | hq
  · exact hnonneg hq hnan hkey
  · have hneg := (hnonneg (q := -q) (r := r.neg) (by linarith) (by simpa using hnan)
      (by rw [F64.key_neg, hkey, F64.roundKey_neg])).neg
    rwa [F64.neg_neg, neg_div, neg_neg] at hneg

end Sys2Proof
end

section
/-! The four operations of the default arithmetic (40_scaler.md R82, R84): on finite operands each result stands at the place its
exact result rounds to; infinities and NaNs give what IEEE 754 says. -/

namespace Sys2Proof

/-! ### Finite operands -/

theorem F64.isNaN_ofMag_roundMag (negative : Bool) (n d : Nat) : (F64.ofMag negative (F64.roundMag n d)).isNaN = false :=
  F64.isNaN_ofMag negative (F64.roundMag_le n d)

@[simp] theorem F64.isNaN_zero (negative : Bool) : (F64.zero negative).isNaN = false := by
  cases negative <;> decide

@[simp] theorem F64.key_zero (negative : Bool) : (F64.zero negative).key = 0 := by
  cases negative <;> decide

@[simp] theorem F64.isNaN_infinity (negative : Bool) : (F64.infinity negative).isNaN = false := by
  cases negative <;> decide

theorem F64.signedUnits_cast (x : F64) : (x.signedUnits : ℚ) = if x.sign then -(x.units : ℚ) else (x.units : ℚ) := by
  unfold F64.signedUnits
  split <;> simp

theorem F64.isZero_iff (x : F64) : x.isZero = true ↔ x.mag = 0 := by simp [F64.isZero]

theorem F64.isZero_iff_key (x : F64) : x.isZero = true ↔ x.key = 0 := by
  rw [F64.isZero_iff, ← F64.key_natAbs, Int.natAbs_eq_zero]

theorem F64.isZero_iff_signedUnits (x : F64) : x.isZero = true ↔ x.signedUnits = 0 := by
  rw [F64.isZero_iff_key, ← F64.unitsAt_strictMono.injective.eq_iff, ← F64.signedUnits_eq]
  rfl

theorem F64.units_pos {x : F64} (h : x.isZero = false) : 0 < x.units := by
  have : 0 < x.mag := by
    simp [F64.isZero] at h
    omega
  exact F64.unitsOfMag_strictMono this

theorem F64.addAs_finite (op : FloatOp) {x y : F64} (hx : x.isFinite = true) (hy : y.isFinite = true) :
    F64.addAs op x y =
      if x.signedUnits + y.signedUnits = 0 then F64.zero (x.sign && y.sign)
      else F64.ofMag (decide (x.signedUnits + y.signedUnits < 0)) (F64.roundMag (x.signedUnits + y.signedUnits).natAbs 1) := by
  unfold F64.addAs
  simp [F64.not_isNaN_of_isFinite, F64.not_isInf_of_isFinite, hx, hy]

theorem F64.isNaN_addAs (op : FloatOp) {x y : F64} (hx : x.isFinite = true) (hy : y.isFinite = true) :
    (F64.addAs op x y).isNaN = false := by
  rw [F64.addAs_finite op hx hy]
  split
  · exact F64.isNaN_zero _
  · exact F64.isNaN_ofMag_roundMag _ _ _

theorem F64.key_addAs (op : FloatOp) {x y : F64} (hx : x.isFinite = true) (hy : y.isFinite = true) :
    (F64.addAs op x y).key = F64.roundKey ((x.signedUnits : ℚ) + y.signedUnits) := by
  rw [F64.addAs_finite op hx hy, ← Int.cast_add]
  generalize x.signedUnits + y.signedUnits = sum
  split
  · next h => rw [h, Int.cast_zero, F64.roundKey_zero, F64.key_zero]
  · rw [F64.key_ofMag_roundMag _ _ one_pos, Nat.cast_one, div_one, Nat.cast_natAbs]
    congr 1
    by_cases hneg : sum < 0
    · simp [hneg, abs_of_neg hneg]
    · simp [hneg, abs_of_nonneg (not_lt.1 hneg)]

theorem F64.mul_finite {x y : F64} (hx : x.isFinite = true) (hy : y.isFinite = true) :
    x.mul y = F64.ofMag (x.sign != y.sign) (F64.roundMag (x.units * y.units) F64.unitsOfOne) := by
  unfold F64.mul
  simp [F64.not_isNaN_of_isFinite, F64.not_isInf_of_isFinite, hx, hy]

theorem F64.key_mul {x y : F64} (hx : x.isFinite = true) (hy : y.isFinite = true) :
    (x.mul y).key = F64.roundKey ((x.signedUnits : ℚ) * y.signedUnits / F64.unitsOfOne) := by
  rw [F64.mul_finite hx hy, F64.key_ofMag_roundMag _ _ F64.unitsOfOne_pos, F64.signedUnits_cast, F64.signedUnits_cast,
    Nat.cast_mul]
  congr 1
  cases x.sign <;> cases y.sign <;> simp <;> ring

theorem F64.div_finite {x y : F64} (hx : x.isFinite = true) (hy : y.isFinite = true) (hne : y.isZero = false) :
    x.div y = F64.ofMag (x.sign != y.sign) (F64.roundMag (x.units * F64.unitsOfOne) y.units) := by
  unfold F64.div
  simp [F64.not_isNaN_of_isFinite, F64.not_isInf_of_isFinite, hx, hy, hne]

theorem F64.key_div {x y : F64} (hx : x.isFinite = true) (hy : y.isFinite = true) (hne : y.isZero = false) :
    (x.div y).key = F64.roundKey ((x.signedUnits : ℚ) * F64.unitsOfOne / y.signedUnits) := by
  rw [F64.div_finite hx hy hne, F64.key_ofMag_roundMag _ _ (F64.units_pos hne), F64.signedUnits_cast, F64.signedUnits_cast,
    Nat.cast_mul]
  congr 1
  cases x.sign <;> cases y.sign <;> simp <;> ring

theorem F64.isNaN_mul {x y : F64} (hx : x.isFinite = true) (hy : y.isFinite = true) : (x.mul y).isNaN = false :=
  F64.mul_finite hx hy ▸ F64.isNaN_ofMag_roundMag _ _ _

theorem F64.isNaN_div {x y : F64} (hx : x.isFinite = true) (hy : y.isFinite = true) (hne : y.isZero = false) :
    (x.div y).isNaN = false :=
  F64.div_finite hx hy hne ▸ F64.isNaN_ofMag_roundMag _ _ _

/-! ### Infinities and NaNs -/

theorem F64.not_isZero_of_isInf {x : F64} (h : x.isInf = true) : x.isZero = false := (F64.class_of_isInf h).2.2

theorem F64.not_isNaN_of_isInf {x : F64} (h : x.isInf = true) : x.isNaN = false := (F64.class_of_isInf h).1

theorem F64.addAs_of_nan (op : FloatOp) {x y : F64} (h : x.isNaN = true ∨ y.isNaN = true) :
    (F64.addAs op x y).isNaN = true := by
  unfold F64.addAs
  rw [if_pos (by simpa using h)]
  exact F64.isNaN_nan op x y

theorem F64.addAs_inf_finite (op : FloatOp) {x y : F64} (hx : x.isInf = true) (hy : y.isFinite = true) :
    F64.addAs op x y = x := by
  simp [F64.addAs, F64.not_isNaN_of_isInf hx, F64.not_isNaN_of_isFinite hy, hx, F64.not_isInf_of_isFinite hy]

theorem F64.addAs_finite_inf (op : FloatOp) {x y : F64} (hx : x.isFinite = true) (hy : y.isInf = true) :
    F64.addAs op x y = y := by
  simp [F64.addAs, F64.not_isNaN_of_isInf hy, F64.not_isNaN_of_isFinite hx, hy, F64.not_isInf_of_isFinite hx]

theorem F64.addAs_inf_same (op : FloatOp) {x y : F64} (hx : x.isInf = true) (hy : y.isInf = true) (hsign : x.sign = y.sign) :
    F64.addAs op x y = x := by
  simp [F64.addAs, F64.not_isNaN_of_isInf hx, F64.not_isNaN_of_isInf hy, hx, hsign]

theorem F64.addAs_inf_opposite (op : FloatOp) {x y : F64} (hx : x.isInf = true) (hy : y.isInf = true)
    (hsign : x.sign ≠ y.sign) : (F64.addAs op x y).isNaN = true := by
  simp [F64.addAs, F64.not_isNaN_of_isInf hx, F64.not_isNaN_of_isInf hy, hx, hy, hsign, F64.isNaN_nan]

/-- The sum of finite values as numbers. -/
theorem F64.value_add_eq (x y : F64) : x.value + y.value = ((x.signedUnits : ℚ) + y.signedUnits) / F64.unitsOfOne :=
  (add_div ..).symm

theorem F64.addAs_zero_sign (op : FloatOp) {x y : F64} (hx : x.isFinite = true) (hy : y.isFinite = true)
    (h : x.value + y.value = 0) :
    (F64.addAs op x y).isZero = true ∧ (F64.addAs op x y).sign = (x.sign && y.sign) := by
  rw [F64.value_add_eq, div_eq_zero_iff, or_iff_left F64.unitsOfOne_pos_rat.ne'] at h
  have hsum : x.signedUnits + y.signedUnits = 0 := by exact_mod_cast h
  rw [F64.addAs_finite op hx hy, if_pos hsum]
  exact ⟨F64.isZero_zero _, F64.sign_zero _⟩

theorem F64.addAs_correctlyRounded (op : FloatOp) {x y : F64} (hx : x.isFinite = true) (hy : y.isFinite = true) :
    CorrectlyRounded (x.value + y.value) (F64.addAs op x y) := by
  rw [F64.value_add_eq]
  exact correctlyRounded_of_key (F64.isNaN_addAs op hx hy) (F64.key_addAs op hx hy)

/-- Settles O39: subtraction is addition of the negated operand, so each clause is one rule of `addAs` at both. -/
theorem sumsAreCorrectlyRounded : Obligations.SumsAreCorrectlyRounded := by
  refine ⟨fun x y hx hy => ?finite, fun x y h => ?nan, fun x y hx hy => ?infFinite, fun x y hx hy => ?finiteInf,
    fun x y hx hy => ?infInf⟩
  case finite =>
    have hy' : y.neg.isFinite = true := by rwa [F64.isFinite_neg]
    have hsub : x.value - y.value = x.value + y.neg.value := by rw [F64.value_neg, sub_eq_add_neg]
    rw [hsub, ← F64.sign_neg y]
    exact ⟨F64.addAs_correctlyRounded .add hx hy, F64.addAs_correctlyRounded .sub hx hy',
      F64.addAs_zero_sign .add hx hy, F64.addAs_zero_sign .sub hx hy'⟩
  case nan => exact ⟨F64.addAs_of_nan .add h, F64.addAs_of_nan .sub (by rwa [F64.isNaN_neg])⟩
  case infFinite =>
    exact ⟨F64.addAs_inf_finite .add hx hy, F64.addAs_inf_finite .sub hx (by rwa [F64.isFinite_neg])⟩
  case finiteInf =>
    have hsub : x.sub y = y.neg := F64.addAs_finite_inf .sub hx (by rwa [F64.isInf_neg])
    rw [hsub, F64.isInf_neg, F64.sign_neg]
    exact ⟨F64.addAs_finite_inf .add hx hy, hy, rfl⟩
  case infInf =>
    have hy' : y.neg.isInf = true := by rwa [F64.isInf_neg]
    refine ⟨fun hsign => ?_, fun hsign => ?_⟩
    · exact ⟨F64.addAs_inf_same .add hx hy hsign, F64.addAs_inf_opposite .sub hx hy' (by simp [hsign])⟩
    · exact ⟨F64.addAs_inf_opposite .add hx hy hsign,
        F64.addAs_inf_same .sub hx hy' (by rwa [F64.sign_neg, Bool.eq_not])⟩

/-! ### Products and quotients -/

theorem F64.mul_of_nan {x y : F64} (h : x.isNaN = true ∨ y.isNaN = true) : (x.mul y).isNaN = true := by
  unfold F64.mul
  rw [if_pos (by simpa using h)]
  exact F64.isNaN_nan _ x y

theorem F64.div_of_nan {x y : F64} (h : x.isNaN = true ∨ y.isNaN = true) : (x.div y).isNaN = true := by
  unfold F64.div
  rw [if_pos (by simpa using h)]
  exact F64.isNaN_nan _ x y

/-- An infinite factor: a NaN beside a zero, else an infinity. -/
theorem F64.mul_of_inf {x y : F64} (hinf : x.isInf = true ∨ y.isInf = true) (hx : x.isNaN = false) (hy : y.isNaN = false) :
    x.mul y = if x.isZero || y.isZero then F64.nan .mul x y else F64.infinity (x.sign != y.sign) := by
  unfold F64.mul
  rw [hx, hy, if_neg (by simp), if_pos (by simpa using hinf)]

theorem F64.div_inf_inf {x y : F64} (hx : x.isInf = true) (hy : y.isInf = true) : (x.div y).isNaN = true := by
  simp [F64.div, F64.not_isNaN_of_isInf, hx, hy, F64.isNaN_nan]

theorem F64.div_inf_finite {x y : F64} (hx : x.isInf = true) (hy : y.isFinite = true) :
    x.div y = F64.infinity (x.sign != y.sign) := by
  simp [F64.div, F64.not_isNaN_of_isInf hx, F64.not_isNaN_of_isFinite hy, hx, F64.not_isInf_of_isFinite hy]

theorem F64.div_finite_inf {x y : F64} (hx : x.isFinite = true) (hy : y.isInf = true) :
    x.div y = F64.zero (x.sign != y.sign) := by
  simp [F64.div, F64.not_isNaN_of_isInf hy, F64.not_isNaN_of_isFinite hx, hy, F64.not_isInf_of_isFinite hx]

/-- A zero divisor of a finite value: a NaN below a zero, else an infinity. -/
theorem F64.div_zero {x y : F64} (hx : x.isFinite = true) (hy : y.isFinite = true) (hzero : y.isZero = true) :
    x.div y = if x.isZero then F64.nan .div x y else F64.infinity (x.sign != y.sign) := by
  simp [F64.div, F64.not_isNaN_of_isFinite, F64.not_isInf_of_isFinite, hx, hy, hzero]

/-- A product that is no NaN has the exclusive or of the signs. -/
theorem F64.mul_cases (x y : F64) :
    (x.mul y).isNaN = true ∨ ∃ mag, mag < 2 ^ 63 ∧ x.mul y = F64.ofMag (x.sign != y.sign) mag := by
  unfold F64.mul
  split
  · exact .inl (F64.isNaN_nan ..)
  · split
    · split
      · exact .inl (F64.isNaN_nan ..)
      · exact .inr ⟨F64.infMag, F64.infMag_lt, rfl⟩
    · exact .inr ⟨_, F64.roundMag_lt _ _, rfl⟩

/-- So has a quotient. -/
theorem F64.div_cases (x y : F64) :
    (x.div y).isNaN = true ∨ ∃ mag, mag < 2 ^ 63 ∧ x.div y = F64.ofMag (x.sign != y.sign) mag := by
  unfold F64.div
  split
  · exact .inl (F64.isNaN_nan ..)
  · split
    · split
      · exact .inl (F64.isNaN_nan ..)
      · exact .inr ⟨F64.infMag, F64.infMag_lt, rfl⟩
    · split
      · exact .inr ⟨0, by decide, rfl⟩
      · split
        · split
          · exact .inl (F64.isNaN_nan ..)
          · exact .inr ⟨F64.infMag, F64.infMag_lt, rfl⟩
        · exact .inr ⟨_, F64.roundMag_lt _ _, rfl⟩

theorem F64.sign_of_nan_or_ofMag {r : F64} {negative : Bool}
    (h : r.isNaN = true ∨ ∃ mag, mag < 2 ^ 63 ∧ r = F64.ofMag negative mag) (hnan : r.isNaN = false) :
    r.sign = negative := by
  rcases h with h | ⟨mag, hmag, rfl⟩
  · exact absurd (h.symm.trans hnan) (by decide)
  · exact F64.sign_ofMag negative hmag

/-- The product of finite values as numbers. -/
theorem F64.value_mul_eq (x y : F64) :
    x.value * y.value = (x.signedUnits : ℚ) * y.signedUnits / F64.unitsOfOne / F64.unitsOfOne := by
  rw [F64.value, F64.value, div_mul_div_comm, div_div]

/-- The quotient of finite values as numbers. -/
theorem F64.value_div_eq (x y : F64) :
    x.value / y.value = (x.signedUnits : ℚ) * F64.unitsOfOne / y.signedUnits / F64.unitsOfOne := by
  have hU := F64.unitsOfOne_pos_rat.ne'
  rw [F64.value, F64.value, div_div_div_cancel_right₀ hU, mul_div_right_comm, mul_div_cancel_right₀ _ hU]

theorem F64.mul_correctlyRounded {x y : F64} (hx : x.isFinite = true) (hy : y.isFinite = true) :
    CorrectlyRounded (x.value * y.value) (x.mul y) := by
  rw [F64.value_mul_eq]
  exact correctlyRounded_of_key (F64.isNaN_mul hx hy) (F64.key_mul hx hy)

theorem F64.div_correctlyRounded {x y : F64} (hx : x.isFinite = true) (hy : y.isFinite = true) (hne : y.isZero = false) :
    CorrectlyRounded (x.value / y.value) (x.div y) := by
  rw [F64.value_div_eq]
  exact correctlyRounded_of_key (F64.isNaN_div hx hy hne) (F64.key_div hx hy hne)

/-- Settles O40: the finite operands by their places, the others by the operations' rules for infinities, NaNs and zeros. -/
theorem productsAreCorrectlyRounded : Obligations.ProductsAreCorrectlyRounded := by
  refine ⟨fun x y hx hy => ⟨F64.mul_correctlyRounded hx hy, F64.div_correctlyRounded hx hy, fun hzero hne => ?overZero,
    fun hzero hx0 => ?zeroOverZero⟩, fun x y h => ⟨F64.mul_of_nan h, F64.div_of_nan h⟩,
    fun x y hx hy => ⟨fun hzero => ?infTimesZero, fun hne => ?infTimes, F64.div_inf_inf hx, fun hfinite => ?infAndFinite⟩,
    fun x y => ⟨F64.sign_of_nan_or_ofMag (F64.mul_cases x y), F64.sign_of_nan_or_ofMag (F64.div_cases x y)⟩⟩
  case overZero =>
    rw [F64.div_zero hx hy hzero, hne, if_neg Bool.false_ne_true]
    exact F64.isInf_infinity _
  case zeroOverZero =>
    rw [F64.div_zero hx hy hzero, hx0, if_pos rfl]
    exact F64.isNaN_nan ..
  case infTimesZero =>
    have hx' := F64.not_isNaN_of_isInf hx
    rw [F64.mul_of_inf (.inl hx) hx' hy, F64.mul_of_inf (.inr hx) hy hx', hzero, Bool.or_true, Bool.true_or, if_pos rfl,
      if_pos rfl]
    exact ⟨F64.isNaN_nan .., F64.isNaN_nan ..⟩
  case infTimes =>
    have hx' := F64.not_isNaN_of_isInf hx
    rw [F64.mul_of_inf (.inl hx) hx' hy, F64.mul_of_inf (.inr hx) hy hx', hne, F64.not_isZero_of_isInf hx, Bool.or_self,
      if_neg Bool.false_ne_true, if_neg Bool.false_ne_true]
    exact ⟨F64.isInf_infinity _, F64.isInf_infinity _⟩
  case infAndFinite =>
    rw [F64.div_inf_finite hx hfinite, F64.div_finite_inf hfinite hx]
    exact ⟨F64.isInf_infinity _, F64.isZero_zero _⟩

/-! ### Comparison (40_scaler.md section 2) -/

theorem F64.eq_iff {x y : F64} (hx : x.isNaN = false) (hy : y.isNaN = false) : x.eq y = true ↔ x.key = y.key := by
  simp [F64.eq, hx, hy]

theorem F64.le_iff {x y : F64} (hx : x.isNaN = false) (hy : y.isNaN = false) : x.le y = true ↔ x.key ≤ y.key := by
  simp [F64.le, hx, hy]

theorem F64.eq_swap (x y : F64) : x.eq y = y.eq x := by
  simp [F64.eq, Bool.and_comm, eq_comm]

/-- Away from zero a place in the order is one value's. -/
theorem F64.eq_of_key {x y : F64} (hne : x.key ≠ 0) (h : x.key = y.key) : x = y := by
  have hmag : x.mag = y.mag := by rw [← F64.key_natAbs, ← F64.key_natAbs, h]
  refine F64.eq_of_sign_mag ?_ hmag
  unfold F64.key at *
  cases hx : x.sign <;> cases hy : y.sign <;> simp [hx, hy] at * <;> omega

theorem F64.key_of_isInf {x : F64} (h : x.isInf = true) : x.key = if x.sign then -(F64.infMag : Int) else F64.infMag := by
  have hmag : x.mag = F64.infMag := by simpa [F64.isInf] using h
  unfold F64.key
  rw [hmag]

theorem F64.abs_key_le {x : F64} (h : x.isNaN = false) : x.key.natAbs ≤ F64.infMag := by
  rw [F64.key_natAbs]
  simpa [F64.isNaN] using h

/-- An infinity's place is its own. -/
theorem F64.eq_of_key_isInf {x y : F64} (hx : x.isInf = true) (h : x.key = y.key) : y = x := by
  have hpos : 0 < F64.infMag := by decide
  refine (F64.eq_of_key ?_ h).symm
  rw [F64.key_of_isInf hx]
  split <;> omega

/-- Settles O41: numbers and places agree on finite values, and an infinity stands at an end of the order. -/
theorem comparisonIsByValue : Obligations.ComparisonIsByValue := by
  refine ⟨fun x y hx hy => ?finite, fun x y hx hy => ?infinite, fun x y h => ?nan⟩
  case finite =>
    have hx' := F64.not_isNaN_of_isFinite hx
    have hy' := F64.not_isNaN_of_isFinite hy
    rw [F64.eq_iff hx' hy', F64.le_iff hx' hy', F64.value_inj, F64.value_le_iff]
    exact ⟨Iff.rfl, Iff.rfl⟩
  case infinite =>
    have hx' := F64.not_isNaN_of_isInf hx
    have hkey := F64.key_of_isInf hx
    have hbound := F64.abs_key_le hy
    have heq : x.key = y.key ↔ y = x := ⟨F64.eq_of_key_isInf hx, fun h => h ▸ rfl⟩
    rw [F64.eq_swap y x, F64.eq_iff hx' hy, F64.le_iff hx' hy, F64.le_iff hy hx', ← heq]
    refine ⟨Iff.rfl, Iff.rfl, fun hsign => ?_, fun hsign => ?_⟩
    all_goals
      rw [hsign] at hkey
      simp only [Bool.false_eq_true, if_false, if_true] at hkey
      omega
  case nan =>
    unfold F64.eq F64.le
    rcases h with h | h <;> simp [h]

end Sys2Proof
end

section
/-! The quantiser (40_scaler.md R85, R86): `roundToInt` is the nearest integer with `QUANT_ROUND`'s tie, so a scaled value has a
code exactly where that integer lies in 0..65535. -/

namespace Sys2Proof

/-! ### The nearest integer -/

/-- `n` is the integer nearest to `v`, a tie being broken as `QUANT_ROUND` says: `IsQuantised` for any integer. -/
def NearestInt (mode : QuantRound) (v : ℚ) (n : Int) : Prop :=
  |(n : ℚ) - v| ≤ 1 / 2 ∧
  (|(n : ℚ) - v| = 1 / 2 →
    match mode with
    | .tiesAway => |v| < |(n : ℚ)|
    | .tiesEven => n % 2 = 0
    | .halfUp => v < (n : ℚ))

/-- Which way `QUANT_ROUND` sends the magnitude of a tie above `q`. -/
def QuantRound.tieUp (mode : QuantRound) (negative : Bool) (q : Nat) : Prop :=
  match mode with
  | .tiesAway => True
  | .tiesEven => q % 2 = 1
  | .halfUp => negative = false

theorem abs_ite_self_neg (v : ℚ) (negative : Bool) : |if negative then -v else v| = |v| := by
  split
  · exact abs_neg v
  · rfl

theorem abs_ite_neg {n v : ℚ} (negative : Bool) :
    |(if negative then -n else n) - (if negative then -v else v)| = |n - v| := by
  cases negative
  · rfl
  · simp only [if_true]
    rw [← abs_neg]
    ring_nf

/-- A magnitude `q + t` goes to `q + 1` from the half on as the tie says, and to `q` below. -/
theorem nearestInt_of_magnitude {mode : QuantRound} {negative : Bool} {q N : Nat} {t : ℚ} (ht0 : 0 ≤ t) (ht1 : t < 1)
    (hN : (N = q + 1 ∧ (1 / 2 < t ∨ (t = 1 / 2 ∧ mode.tieUp negative q))) ∨
      (N = q ∧ (t < 1 / 2 ∨ (t = 1 / 2 ∧ ¬ mode.tieUp negative q)))) :
    NearestInt mode (if negative then -((q : ℚ) + t) else q + t) (if negative then -(N : Int) else N) := by
  have hcast : (((if negative then -(N : Int) else N) : Int) : ℚ) = if negative then -(N : ℚ) else N := by
    split <;> simp
  have hq : (0 : ℚ) ≤ q := Nat.cast_nonneg q
  unfold NearestInt
  rw [hcast, abs_ite_neg]
  rcases hN with ⟨rfl, hup⟩ | ⟨rfl, hdown⟩
  · have habs : |((q + 1 : Nat) : ℚ) - (q + t)| = 1 - t := by
      push_cast
      rw [abs_of_nonneg (by linarith)]
      ring
    rw [habs]
    refine ⟨by rcases hup with h | ⟨h, -⟩ <;> linarith, fun htie => ?_⟩
    have ht : t = 1 / 2 := by linarith
    have hmode : mode.tieUp negative q := by
      rcases hup with h | ⟨-, h⟩
      · linarith
      · exact h
    cases mode
    case tiesAway =>
      dsimp only
      rw [abs_ite_self_neg, abs_ite_self_neg, abs_of_nonneg (by linarith), Nat.abs_cast]
      push_cast
      linarith
    case tiesEven =>
      change q % 2 = 1 at hmode
      dsimp only
      split <;> omega
    case halfUp =>
      obtain rfl : negative = false := hmode
      simpa using ht1
  · have habs : |((N : Nat) : ℚ) - (N + t)| = t := by
      rw [abs_of_nonpos (by linarith)]
      ring
    rw [habs]
    refine ⟨by rcases hdown with h | ⟨h, -⟩ <;> linarith, fun htie => ?_⟩
    have hmode : ¬ mode.tieUp negative N := by
      rcases hdown with h | ⟨-, h⟩
      · linarith
      · exact h
    cases mode
    case tiesAway => exact absurd trivial hmode
    case tiesEven =>
      change ¬ N % 2 = 1 at hmode
      dsimp only
      split <;> omega
    case halfUp =>
      obtain rfl : negative = true := by simpa [QuantRound.tieUp] using hmode
      simp only [if_true]
      linarith

/-- The number of a finite value: its sign, and its magnitude as a whole number and a fraction. -/
theorem F64.value_eq (x : F64) :
    x.value =
      if x.sign then
        -(((x.units / F64.unitsOfOne : Nat) : ℚ) + ((x.units % F64.unitsOfOne : Nat) : ℚ) / F64.unitsOfOne)
      else ((x.units / F64.unitsOfOne : Nat) : ℚ) + ((x.units % F64.unitsOfOne : Nat) : ℚ) / F64.unitsOfOne := by
  have hU := F64.unitsOfOne_pos_rat
  have hdiv : F64.unitsOfOne * (x.units / F64.unitsOfOne) + x.units % F64.unitsOfOne = x.units := Nat.div_add_mod ..
  have hmagnitude : (x.units : ℚ) / F64.unitsOfOne =
      ((x.units / F64.unitsOfOne : Nat) : ℚ) + ((x.units % F64.unitsOfOne : Nat) : ℚ) / F64.unitsOfOne := by
    rw [div_eq_iff hU.ne', add_mul, div_mul_cancel₀ _ hU.ne', mul_comm]
    exact_mod_cast hdiv.symm
  rw [F64.value, F64.signedUnits_cast, ← hmagnitude]
  split
  · rw [neg_div]
  · rfl

/-- `ROUND` is the nearest integer. -/
theorem F64.roundToInt_nearest (mode : QuantRound) (x : F64) : NearestInt mode x.value (x.roundToInt mode) := by
  have hUq := F64.unitsOfOne_pos_rat
  have hr : x.units % F64.unitsOfOne < F64.unitsOfOne := Nat.mod_lt _ F64.unitsOfOne_pos
  have hhalf : (1 / 2 : ℚ) < (x.units % F64.unitsOfOne : Nat) / F64.unitsOfOne ↔
      F64.unitsOfOne < 2 * (x.units % F64.unitsOfOne) := by
    rw [lt_div_iff₀ hUq, ← @Nat.cast_lt ℚ]
    push_cast
    constructor <;> intro h <;> linarith
  have hhalf' : ((x.units % F64.unitsOfOne : Nat) : ℚ) / F64.unitsOfOne < 1 / 2 ↔
      2 * (x.units % F64.unitsOfOne) < F64.unitsOfOne := by
    rw [div_lt_iff₀ hUq, ← @Nat.cast_lt ℚ]
    push_cast
    constructor <;> intro h <;> linarith
  have htie : ((x.units % F64.unitsOfOne : Nat) : ℚ) / F64.unitsOfOne = 1 / 2 ↔
      2 * (x.units % F64.unitsOfOne) = F64.unitsOfOne := by
    rw [div_eq_iff hUq.ne', ← @Nat.cast_inj ℚ]
    push_cast
    constructor <;> intro h <;> linarith
  rw [F64.value_eq]
  unfold F64.roundToInt
  dsimp only
  refine nearestInt_of_magnitude (by positivity) ((div_lt_one hUq).2 (by exact_mod_cast hr)) ?_
  generalize x.units / F64.unitsOfOne = q
  generalize x.units % F64.unitsOfOne = r at *
  have hbranch (tieUp : Bool) (htieUp : tieUp = true ↔ mode.tieUp x.sign q) :
      ((if decide (F64.unitsOfOne < 2 * r) || (2 * r == F64.unitsOfOne && tieUp) then q + 1 else q) = q + 1 ∧
          (F64.unitsOfOne < 2 * r ∨ (2 * r = F64.unitsOfOne ∧ mode.tieUp x.sign q))) ∨
        ((if decide (F64.unitsOfOne < 2 * r) || (2 * r == F64.unitsOfOne && tieUp) then q + 1 else q) = q ∧
          (2 * r < F64.unitsOfOne ∨ (2 * r = F64.unitsOfOne ∧ ¬ mode.tieUp x.sign q))) := by
    rw [← htieUp]
    by_cases hup : F64.unitsOfOne < 2 * r ∨ (2 * r = F64.unitsOfOne ∧ tieUp = true)
    · exact .inl ⟨if_pos (by simpa using hup), hup⟩
    · refine .inr ⟨if_neg (by simpa using hup), ?_⟩
      rcases Nat.lt_trichotomy (2 * r) F64.unitsOfOne with h | h | h
      · exact .inl h
      · exact .inr ⟨h, fun htie => hup (.inr ⟨h, htie⟩)⟩
      · exact absurd (.inl h) hup
  rw [hhalf, hhalf', htie]
  exact hbranch _ (by cases mode <;> simp [QuantRound.tieUp])

/-! ### What the nearest integer is for the codes -/

theorem NearestInt.mono {mode : QuantRound} {v v' : ℚ} {n n' : Int} (h : NearestInt mode v n) (h' : NearestInt mode v' n')
    (hle : v ≤ v') : n ≤ n' := by
  obtain ⟨hnear, htie⟩ := h
  obtain ⟨hnear', htie'⟩ := h'
  by_contra hlt
  have hstep : (n' : ℚ) + 1 ≤ n := by exact_mod_cast not_le.1 hlt
  have hn := abs_le.1 hnear
  have hn' := abs_le.1 hnear'
  -- the two are next to one another, and `v = v'` lies halfway between them
  have hv : (n : ℚ) - v = 1 / 2 := by linarith
  have hv' : (n' : ℚ) - v' = -(1 / 2) := by linarith
  have hnext : n = n' + 1 := by
    have : (n : ℚ) = n' + 1 := by linarith
    exact_mod_cast this
  have ht := htie (by rw [hv]; norm_num)
  have ht' := htie' (by rw [hv']; norm_num)
  cases mode
  case tiesAway =>
    dsimp only at ht ht'
    rcases le_or_gt n 0 with hsign | hsign
    · have hn0 : (n : ℚ) ≤ 0 := by exact_mod_cast hsign
      rw [abs_of_nonpos hn0, abs_of_nonpos (by linarith)] at ht
      linarith
    · have hn0 : (0 : ℚ) ≤ n' := by exact_mod_cast (by omega : 0 ≤ n')
      rw [abs_of_nonneg hn0, abs_of_nonneg (by linarith)] at ht'
      linarith
  case tiesEven =>
    dsimp only at ht ht'
    omega
  case halfUp =>
    dsimp only at ht'
    linarith

/-- The nearest integer is a code exactly for the numbers `F64.hasCode` names. -/
theorem NearestInt.code_iff {mode : QuantRound} {v : ℚ} {n : Int} (h : NearestInt mode v n) :
    (0 ≤ n ∧ n ≤ 65535) ↔ (-1 / 2 < v ∨ (v = -1 / 2 ∧ mode ≠ .tiesAway)) ∧ v < 65535 + 1 / 2 := by
  obtain ⟨hnear, htie⟩ := h
  obtain ⟨hlow, hhigh⟩ := abs_le.1 hnear
  constructor
  · rintro ⟨h0, h1⟩
    have h0' : (0 : ℚ) ≤ n := by exact_mod_cast h0
    have h1' : (n : ℚ) ≤ 65535 := by exact_mod_cast h1
    constructor
    · rcases (show -1 / 2 ≤ v by linarith).lt_or_eq with hv | rfl
      · exact .inl hv
      · refine .inr ⟨rfl, ?_⟩
        rintro rfl
        have hn : (n : ℚ) = 0 := by linarith
        have := htie (by rw [hn]; norm_num)
        norm_num [hn] at this
    · refine lt_of_le_of_ne (by linarith) ?_
      rintro rfl
      have hn : (n : ℚ) = 65535 := by linarith
      have := htie (by rw [hn]; norm_num)
      cases mode
      case tiesAway => norm_num [hn] at this
      case tiesEven =>
        obtain rfl : n = 65535 := by exact_mod_cast hn
        norm_num at this
      case halfUp => norm_num [hn] at this
  · rintro ⟨hv, htop⟩
    constructor
    · by_contra hneg
      have hn : (n : ℚ) ≤ -1 := by exact_mod_cast (by omega : n ≤ -1)
      obtain ⟨rfl, hmode⟩ : v = -1 / 2 ∧ mode ≠ .tiesAway := hv.resolve_left (by linarith)
      have hn : (n : ℚ) = -1 := by linarith
      have := htie (by rw [hn]; norm_num)
      cases mode
      case tiesAway => exact hmode rfl
      case tiesEven =>
        obtain rfl : n = -1 := by exact_mod_cast hn
        norm_num at this
      case halfUp => norm_num [hn] at this
    · have hn : (n : ℚ) < 65536 := by linarith
      have : n < 65536 := by exact_mod_cast hn
      omega

theorem F64.hasCode_iff {mode : QuantRound} {r : F64} (hr : r.isFinite = true) :
    r.hasCode mode ↔ 0 ≤ r.roundToInt mode ∧ r.roundToInt mode ≤ 65535 := by
  rw [(F64.roundToInt_nearest mode r).code_iff]
  exact and_iff_right hr

/-- A code as the nearest integer. -/
theorem NearestInt.isQuantised {mode : QuantRound} {v : ℚ} {n : Int} (h : NearestInt mode v n) (h0 : 0 ≤ n)
    (h1 : n ≤ 65535) : IsQuantised mode v (BitVec.ofInt 16 n) := by
  obtain ⟨k, rfl⟩ := Int.eq_ofNat_of_zero_le h0
  have hk : (BitVec.ofInt 16 (k : Int)).toNat = k := by
    rw [BitVec.ofInt_natCast, BitVec.toNat_ofNat]
    omega
  obtain ⟨hnear, htie⟩ := h
  unfold IsQuantised
  rw [hk]
  refine ⟨by exact_mod_cast hnear, fun heq => ?_⟩
  have := htie (by exact_mod_cast heq)
  cases mode
  case tiesAway => simpa using this
  case tiesEven =>
    dsimp only at this ⊢
    omega
  case halfUp => simpa using this

end Sys2Proof

namespace Sys2Proof.Machine

/-! ### `QUANT16` -/

theorem quant16_of_hasCode {p : Params} {r : F64} (h : r.hasCode p.quantRound) :
    ∃ n, IsQuantised p.quantRound r.value n ∧ quant16 p r = .ok n := by
  obtain ⟨h0, h1⟩ := (F64.hasCode_iff h.1).1 h
  exact ⟨_, (F64.roundToInt_nearest p.quantRound r).isQuantised h0 h1, quant16_of_inRange h.1 h0 h1⟩

/-- The end code nearest to a value that has none (R86). -/
def endCode (r : F64) : BitVec 16 :=
  if r.isNaN = true ∨ r = F64.infinity true ∨ (r.isFinite = true ∧ r.value < 0) then 0 else 65535

theorem quant16_of_not_hasCode {p : Params} {r : F64} (h : ¬ r.hasCode p.quantRound) :
    quant16 p r = quantOutOfRange p r (endCode r) := by
  unfold quant16 endCode
  cases hnan : r.isNaN
  case true => simp
  case false =>
  cases hinf : r.isInf
  case true =>
    have hfinite : r.isFinite = false := (F64.class_of_isInf hinf).2.1
    have hsign : r = F64.infinity true ↔ r.sign = true := by
      refine ⟨fun h => by rw [h, F64.sign_infinity], fun h => F64.eq_of_sign_mag (by rw [h, F64.sign_infinity]) ?_⟩
      have hmag : r.mag = F64.infMag := by simpa [F64.isInf] using hinf
      rw [hmag]
      rfl
    simp [hfinite, hsign]
  case false =>
    have hfinite : r.isFinite = true := by
      simp only [F64.isNaN, F64.isInf, F64.isFinite, decide_eq_false_iff_not, decide_eq_true_eq] at *
      omega
    have hne : r ≠ F64.infinity true := by
      rintro rfl
      simp at hinf
    obtain ⟨hnear, -⟩ := F64.roundToInt_nearest p.quantRound r
    obtain ⟨hlow, hhigh⟩ := abs_le.1 hnear
    rw [F64.hasCode_iff hfinite] at h
    generalize r.roundToInt p.quantRound = n at *
    by_cases hneg : n < 0
    · have hn : (n : ℚ) ≤ -1 := by exact_mod_cast (by omega : n ≤ -1)
      have hv : r.value < 0 := by linarith
      simp [hneg, hfinite, hv]
    · have hbig : 65535 < n := by omega
      have hn : (65535 : ℚ) < n := by exact_mod_cast hbig
      have hv : ¬ r.value < 0 := by linarith
      simp [hneg, hbig, hne, hv]

/-- Settles O44: such a value has a code, and it is the nearest integer. -/
theorem quantiseInRange : Obligations.QuantiseInRange := by
  intro s r h
  obtain ⟨n, hn, hquant⟩ := quant16_of_hasCode h
  exact ⟨n, hn, by rw [exec_quant16_eq, hquant]⟩

/-- Settles O45: the policy decides between the error and the end code. -/
theorem quantiseOutOfRange : Obligations.QuantiseOutOfRange := by
  intro s r h
  rw [exec_quant16_eq, quant16_of_not_hasCode h]
  obtain ⟨hp, hquant⟩ | ⟨hp, hquant⟩ := quantOutOfRange_cases s.params r (endCode r) <;> rw [hquant, hp]
  · exact ⟨fun _ => rfl, nofun⟩
  · exact ⟨nofun, fun _ => rfl⟩

end Sys2Proof.Machine
end

section
/-! The scaler's operations in terms of its formula and the quantiser (40_scaler.md R82, R87), and the compound encoder that
runs it five times (41_encode.md R112). -/

namespace Sys2Proof.Machine

theorem exec_scale_of_nondegenerate {source : PhysicalRange} (h : source.max.eq source.min = false) (value : F64)
    (target : PhysicalRange) (s : State) :
    exec (.scale value source target) s =
      .next (s.answered (.f64 (scaleFormula s.params.numerics value source target))) := by
  obtain ⟨hd, -⟩ | ⟨-, hs⟩ := scale_cases s.params.numerics value source target
  · cases hd.symm.trans h
  · rw [exec_scale_eq, hs]

theorem scaleToWire_of_nondegenerate {eng : PhysicalRange} (h : eng.max.eq eng.min = false) (p : Params) (value : F64) :
    scaleToWire p value eng = quant16 p (scaleFormula p.numerics value eng transportRange) := by
  obtain ⟨hd, -⟩ | ⟨-, hs⟩ := scaleToWire_cases p value eng
  · cases hd.symm.trans h
  · exact hs

theorem scaleToWire_of_degenerate {eng : PhysicalRange} (h : eng.max.eq eng.min = true) (p : Params) (value : F64) :
    scaleToWire p value eng = .error (.scaleDegenerateRange eng) := by
  obtain ⟨-, hs⟩ | ⟨hd, -⟩ := scaleToWire_cases p value eng
  · exact hs
  · cases h.symm.trans hd

/-- Settles O42: the formula, and the formula in the default arithmetic. -/
theorem scaleCompletes : Obligations.ScaleCompletes := by
  rintro s n value source target rfl h
  refine ⟨exec_scale_of_nondegenerate h value target s, fun hn => ?_⟩
  rw [exec_scale_of_nondegenerate h, hn, scaleFormula_ieee754]

/-- Settles O43: the degenerate range before the formula, and a scaled value without a code under the policy `fault`. -/
theorem scalerTraps : Obligations.ScalerTraps := by
  refine ⟨fun s value source target h => ⟨?_, ?_⟩, fun s value r eng hp hscale hcode => ?_⟩
  · obtain ⟨-, hs⟩ | ⟨hd, -⟩ := scale_cases s.params.numerics value source target
    · rw [exec_scale_eq, hs]
    · cases h.symm.trans hd
  · rw [exec_scaleToWire_eq, scaleToWire_of_degenerate h]
  · cases hd : eng.max.eq eng.min with
    | true =>
      obtain ⟨-, hs⟩ | ⟨hd', -⟩ := scale_cases s.params.numerics value eng transportRange
      · rw [exec_scale_eq, hs] at hscale
        exact absurd hscale.symm answered_ne_failed
      · cases hd.symm.trans hd'
    | false =>
      rw [exec_scale_of_nondegenerate hd, answered_inj, Value.f64.injEq] at hscale
      obtain ⟨-, hquant⟩ | ⟨hp', -⟩ := quantOutOfRange_cases s.params r (endCode r)
      · rw [exec_scaleToWire_eq, scaleToWire_of_nondegenerate hd, hscale, quant16_of_not_hasCode hcode, hquant]
      · cases hp.symm.trans hp'

/-- A value that has a code or may be saturated is quantised. -/
theorem quant16_ok_of {p : Params} {r : F64} (h : p.quantPolicy = .saturate ∨ r.hasCode p.quantRound) :
    ∃ n, quant16 p r = .ok n ∧ (r.hasCode p.quantRound → IsQuantised p.quantRound r.value n) := by
  by_cases hcode : r.hasCode p.quantRound
  · obtain ⟨n, hn, hquant⟩ := quant16_of_hasCode hcode
    exact ⟨n, hquant, fun _ => hn⟩
  · obtain ⟨hp, -⟩ | ⟨-, hquant⟩ := quantOutOfRange_cases p r (endCode r)
    · cases hp.symm.trans (h.resolve_right hcode)
    · exact ⟨_, (quant16_of_not_hasCode hcode).trans hquant, fun h => absurd h hcode⟩

/-- Settles O46: `SCALE_TO_WIRE` is the quantiser on the formula's value. -/
theorem scaleToWireCompletes : Obligations.ScaleToWireCompletes := by
  intro s value eng hd
  refine ⟨_, exec_scale_of_nondegenerate hd value transportRange s, ?_, fun hcode => ?_⟩
  · rw [exec_scaleToWire_eq, exec_quant16_eq, scaleToWire_of_nondegenerate hd]
  · obtain ⟨n, hquant, hn⟩ := quant16_ok_of hcode
    exact ⟨n, by rw [exec_scaleToWire_eq, scaleToWire_of_nondegenerate hd, hquant], hn⟩

/-! ### `CONTROL_FROM_ENG` -/

theorem exec_scaleToWire_of_ok {value : F64} {eng : PhysicalRange} {s : State} {n : BitVec 16}
    (h : scaleToWire s.params value eng = .ok n) : exec (.scaleToWire value eng) s = .next (s.answered (.u16 n)) := by
  rw [exec_scaleToWire_eq, h]

/-- Five codes make the Control frame (R112, R103). -/
theorem exec_controlFromEng_of_ok {canId : Byte} {cmd : ActuatorCommand} {ranges : RangeSet} {s : State}
    {a v t p d : BitVec 16} (ha : scaleToWire s.params cmd.qpos ranges.angle = .ok a)
    (hv : scaleToWire s.params cmd.qvel ranges.velocity = .ok v) (ht : scaleToWire s.params cmd.qfrc ranges.torque = .ok t)
    (hp : scaleToWire s.params cmd.kp ranges.kp = .ok p) (hd : scaleToWire s.params cmd.kd ranges.kd = .ok d) :
    exec (.controlFromEng canId cmd ranges) s = .next (s.built (frameOfBytes
      [canId, byteOf t 0, byteOf t 1, 0x81, 8, 0, 0, 0, byteOf a 1, byteOf a 0, byteOf v 1, byteOf v 0,
       byteOf p 1, byteOf p 0, byteOf d 1, byteOf d 0])) := by
  have hcommand : scaleCommand s.params canId cmd ranges = .ok ⟨canId, a, v, t, p, d⟩ :=
    scaleCommand_ok.2 ⟨rfl, ha, hv, ht, hp, hd⟩
  rw [exec_controlFromEng_eq, hcommand]
  exact congrArg (fun f => Host.Outcome.next (s.built f)) (storeControlReq_bytes _)

theorem scaleToWire_of_admits {p : Params} {eng : PhysicalRange} {value : F64} (h : eng.admits p value) :
    ∃ n, scaleToWire p value eng = .ok n := by
  obtain ⟨hd, hcode⟩ := h
  obtain ⟨n, hquant, -⟩ := quant16_ok_of hcode
  exact ⟨n, (scaleToWire_of_nondegenerate hd p value).trans hquant⟩

/-- Settles O52: each admitted axis has a code. -/
theorem controlFromEngCompletes : Obligations.ControlFromEngCompletes := by
  intro s canId cmd ranges hangle hvelocity htorque hkp hkd
  obtain ⟨a, ha⟩ := scaleToWire_of_admits hangle
  obtain ⟨v, hv⟩ := scaleToWire_of_admits hvelocity
  obtain ⟨t, ht⟩ := scaleToWire_of_admits htorque
  obtain ⟨p, hp⟩ := scaleToWire_of_admits hkp
  obtain ⟨d, hd⟩ := scaleToWire_of_admits hkd
  exact ⟨a, v, t, p, d, exec_scaleToWire_of_ok ha, exec_scaleToWire_of_ok hv, exec_scaleToWire_of_ok ht,
    exec_scaleToWire_of_ok hp, exec_scaleToWire_of_ok hd, exec_controlFromEng_of_ok ha hv ht hp hd⟩

/-- An error of the five scalings is the operation's. -/
theorem exec_controlFromEng_of_error {canId : Byte} {cmd : ActuatorCommand} {ranges : RangeSet} {s : State} {e : OpError}
    (h : scaleCommand s.params canId cmd ranges = .error e) :
    exec (.controlFromEng canId cmd ranges) s = .next (s.failed e) := by
  rw [exec_controlFromEng_eq, h]

/-- Settles O53: the scalings run in the order of the axes, each on the codes of those before it. -/
theorem controlFromEngFirstError : Obligations.ControlFromEngFirstError := by
  refine fun s canId cmd ranges e a v t p => ⟨fun he => ?angle, fun ha he => ?velocity, fun ha hv he => ?torque,
    fun ha hv ht he => ?kp, fun ha hv ht hp he => ?kd⟩
  all_goals
    refine exec_controlFromEng_of_error ?_
    unfold scaleCommand
  case angle => rw [scaleToWire_of_failed he]
  case velocity => rw [scaleToWire_of_answered ha, scaleToWire_of_failed he]
  case torque => rw [scaleToWire_of_answered ha, scaleToWire_of_answered hv, scaleToWire_of_failed he]
  case kp =>
    rw [scaleToWire_of_answered ha, scaleToWire_of_answered hv, scaleToWire_of_answered ht, scaleToWire_of_failed he]
  case kd =>
    rw [scaleToWire_of_answered ha, scaleToWire_of_answered hv, scaleToWire_of_answered ht, scaleToWire_of_answered hp,
      scaleToWire_of_failed he]

end Sys2Proof.Machine
end

section
/-! Exact values of the scaler (40_scaler.md section 4): doubling loses nothing, so every code is held exactly, and the ratios
0, 1/2 and 1 that the ends and the middle of a range give are the values `0.0`, `0.5` and `1.0`. -/

namespace Sys2Proof

/-! ### Doubling -/

theorem F64.exists_double (mag : Nat) :
    ∃ mag', mag' ≤ mag + 2 ^ 52 ∧ F64.unitsOfMag mag' = 2 * F64.unitsOfMag mag := by
  obtain ⟨k, R, hlow, hhigh, rfl⟩ := F64.exists_binade mag
  rw [F64.unitsOfMag_binade hlow hhigh.le]
  by_cases hR : R < 2 ^ 52
  · obtain rfl : k = 0 := by omega
    refine ⟨0 * 2 ^ 52 + 2 * R, by omega, ?_⟩
    rw [F64.unitsOfMag_binade (.inl rfl) (by omega)]
    ring
  · refine ⟨(k + 1) * 2 ^ 52 + R, by omega, ?_⟩
    rw [F64.unitsOfMag_binade (by omega) hhigh.le]
    ring

/-- A small whole number of the unit `2^k` is a magnitude's size. -/
theorem F64.exists_mag_of_scaled (n k : Nat) (hn : n < 2 ^ 52) :
    ∃ mag, mag ≤ n + k * 2 ^ 52 ∧ F64.unitsOfMag mag = n * 2 ^ k := by
  induction k with
  | zero =>
    refine ⟨n, by omega, ?_⟩
    rw [F64.unitsOfMag_of_subnormal (by omega), Nat.pow_zero, Nat.mul_one]
  | succ k ih =>
    obtain ⟨mag, hle, hmag⟩ := ih
    obtain ⟨mag', hle', hmag'⟩ := F64.exists_double mag
    refine ⟨mag', by omega, ?_⟩
    rw [hmag', hmag, Nat.pow_succ]
    ring

/-! ### Rounding an exact size -/

/-- A size that rounds to a finite magnitude rounds to its own. -/
theorem F64.roundMag_unitsOfMag {mag : Nat} (h : F64.roundMag (F64.unitsOfMag mag) 1 < F64.infMag) :
    F64.roundMag (F64.unitsOfMag mag) 1 = mag := by
  have hmag : mag < F64.infMag := by
    rw [F64.roundMag_lt_infMag_iff _ one_pos] at h
    by_contra hge
    have h1 := F64.unitsOfMag_strictMono.monotone (not_lt.1 hge)
    have h2 := F64.unitsOfMag_strictMono.monotone (show F64.topMag ≤ F64.infMag by decide)
    omega
  simpa using F64.roundMag_exact one_pos hmag

/-- The sum of a finite value with itself is exact where it does not overflow. -/
theorem F64.unitsAt_roundKey_double {k : Int} (h : (F64.roundKey (2 * F64.unitsAt k : Int)).natAbs < F64.infMag) :
    F64.unitsAt (F64.roundKey (2 * F64.unitsAt k : Int)) = 2 * F64.unitsAt k := by
  have hnat (mag : Nat) (h : (F64.roundKey (2 * F64.unitsAt mag : Int)).natAbs < F64.infMag) :
      F64.unitsAt (F64.roundKey (2 * F64.unitsAt mag : Int)) = 2 * F64.unitsAt mag := by
    obtain ⟨mag', -, hdouble⟩ := F64.exists_double mag
    have hunits : 2 * F64.unitsAt mag = (F64.unitsOfMag mag' : Int) := by
      rw [F64.unitsAt_natCast, hdouble]
      push_cast
      rfl
    have hround : F64.roundKey ((2 * F64.unitsAt mag : Int) : ℚ) = F64.roundMag (F64.unitsOfMag mag') 1 := by
      rw [hunits, ← F64.roundKey_div _ one_pos, Nat.cast_one, div_one, Int.cast_natCast]
    rw [hround, Int.natAbs_natCast] at h
    rw [hround, F64.roundMag_unitsOfMag h, F64.unitsAt_natCast, hunits]
  obtain ⟨mag, rfl | rfl⟩ := k.eq_nat_or_neg
  · exact hnat mag h
  · rw [F64.unitsAt_neg, mul_neg, Int.cast_neg, F64.roundKey_neg, Int.natAbs_neg] at *
    rw [F64.unitsAt_neg, hnat mag h]

/-- A whole number of units that is not zero does not round to zero. -/
theorem F64.roundKey_pos {n : Int} (h : 0 < n) : 0 < F64.roundKey n := by
  have hone : F64.roundKey ((1 : Int) : ℚ) = 1 := by decide +kernel
  have hle : (((1 : Int) : ℚ)) ≤ n := by exact_mod_cast h
  have := F64.roundKey_mono hle
  omega

theorem F64.roundKey_ne_zero {n : Int} (h : n ≠ 0) : F64.roundKey n ≠ 0 := by
  rcases lt_or_gt_of_ne h with hneg | hpos
  · have := F64.roundKey_pos (n := -n) (by omega)
    rw [Int.cast_neg, F64.roundKey_neg] at this
    omega
  · exact (F64.roundKey_pos hpos).ne'

/-! ### A finite value by its place -/

theorem F64.isFinite_iff_key (x : F64) : x.isFinite = true ↔ x.key.natAbs < F64.infMag := by
  rw [F64.isFinite_iff, F64.key_natAbs]

theorem F64.isFinite_of_key_zero {x : F64} (h : x.key = 0) : x.isFinite = true := by
  rw [F64.isFinite_iff_key, h]
  decide

theorem F64.signedUnits_of_key_zero {x : F64} (h : x.key = 0) : x.signedUnits = 0 := by
  rw [F64.signedUnits_eq, h]
  rfl

theorem F64.isFinite_or_isInf {x : F64} (h : x.isNaN = false) : x.isFinite = true ∨ x.isInf = true := by
  simp only [F64.isNaN, F64.isInf, F64.isFinite, decide_eq_false_iff_not, decide_eq_true_eq] at *
  omega

/-- The difference of finite values, by its place. -/
theorem F64.key_sub {x y : F64} (hx : x.isFinite = true) (hy : y.isFinite = true) :
    (x.sub y).key = F64.roundKey ((x.signedUnits - y.signedUnits : Int) : ℚ) := by
  rw [F64.sub, F64.key_addAs _ hx (by rwa [F64.isFinite_neg]), F64.signedUnits_neg, Int.cast_sub, Int.cast_neg, sub_eq_add_neg]

theorem F64.isNaN_sub {x y : F64} (hx : x.isFinite = true) (hy : y.isFinite = true) : (x.sub y).isNaN = false :=
  F64.isNaN_addAs _ hx (by rwa [F64.isFinite_neg])

/-- Zero over a value that is neither a zero nor a NaN is a zero. -/
theorem F64.key_div_of_zero {x y : F64} (hx : x.key = 0) (hy : y.isNaN = false) (hne : y.key ≠ 0) : (x.div y).key = 0 := by
  have hfinite := F64.isFinite_of_key_zero hx
  rcases F64.isFinite_or_isInf hy with hy | hy
  · have hne' : y.isZero = false := by rwa [← Bool.not_eq_true, F64.isZero_iff_key]
    rw [F64.key_div hfinite hy hne', F64.signedUnits_of_key_zero hx, Int.cast_zero, zero_mul, zero_div, F64.roundKey_zero]
  · rw [F64.div_finite_inf hfinite hy, F64.key_zero]

/-- Zero times a finite value is a zero. -/
theorem F64.key_mul_of_zero {x y : F64} (hx : x.key = 0) (hy : y.isFinite = true) : (x.mul y).key = 0 := by
  rw [F64.key_mul (F64.isFinite_of_key_zero hx) hy, F64.signedUnits_of_key_zero hx, Int.cast_zero, zero_mul, zero_div,
    F64.roundKey_zero]

end Sys2Proof
end

section
/-! The ends and the middle of a range (40_scaler.md section 4, 90_conflicts.md C7): the ratio the formula divides out is
0, 1 or 1/2 exactly, and what follows is arithmetic on the transport range alone. -/

namespace Sys2Proof

/-! ### The values `1.0` and `0.5` -/

/-- `1.0`, by its bit pattern. -/
def F64.one : F64 := ⟨0x3FF0000000000000⟩

/-- `0.5`, by its bit pattern. -/
def F64.half : F64 := ⟨0x3FE0000000000000⟩

theorem F64.one_spec : F64.one.isFinite = true ∧ F64.one.signedUnits = F64.unitsOfOne ∧ F64.one.key ≠ 0 := by
  decide +kernel

theorem F64.half_spec : F64.half.isFinite = true ∧ 2 * F64.half.signedUnits = F64.unitsOfOne ∧ F64.half.key ≠ 0 := by
  decide +kernel

/-- A value over itself is one. -/
theorem F64.div_self {w : F64} (hw : w.isFinite = true) (hne : w.isZero = false) : w.div w = F64.one := by
  obtain ⟨hfinite, hunits, hkey⟩ := F64.one_spec
  have hwu : (w.signedUnits : ℚ) ≠ 0 := by
    rw [Int.cast_ne_zero, ne_eq, ← F64.isZero_iff_signedUnits, hne]
    exact Bool.false_ne_true
  refine (F64.eq_of_key hkey ?_).symm
  rw [F64.key_div hw hw hne, mul_div_cancel_left₀ _ hwu, ← F64.roundKey_signedUnits hfinite, hunits, Int.cast_natCast]

/-- A value over its double is one half. -/
theorem F64.div_double {x w : F64} (hx : x.isFinite = true) (hw : w.isFinite = true) (hne : w.isZero = false)
    (hdouble : w.signedUnits = 2 * x.signedUnits) : x.div w = F64.half := by
  obtain ⟨hfinite, hunits, hkey⟩ := F64.half_spec
  have hxu : (x.signedUnits : ℚ) ≠ 0 := by
    intro h
    rw [Int.cast_eq_zero] at h
    rw [← Bool.not_eq_true, F64.isZero_iff_signedUnits, hdouble, h] at hne
    exact hne rfl
  have hU : (F64.unitsOfOne : ℚ) = 2 * F64.half.signedUnits := by exact_mod_cast hunits.symm
  have hratio : (x.signedUnits : ℚ) * F64.unitsOfOne / w.signedUnits = F64.half.signedUnits := by
    rw [hdouble, hU]
    push_cast
    field_simp
  refine (F64.eq_of_key hkey ?_).symm
  rw [F64.key_div hx hw hne, hratio, F64.roundKey_signedUnits hfinite]

namespace Machine

/-! ### The transport range (40_scaler.md R81) -/

theorem transportRange_width : transportRange.max.sub transportRange.min = transportRange.max := by decide +kernel

theorem transportRange_max_finite : transportRange.max.isFinite = true := by decide +kernel

theorem transportRange_max_units : transportRange.max.signedUnits = 65535 * F64.unitsOfOne := by decide +kernel

/-- Adding the lower end `+0.0` moves no value. -/
theorem key_transportRange_add {p : F64} (hp : p.isNaN = false) : (transportRange.min.add p).key = p.key := by
  have hmin : transportRange.min.isFinite = true ∧ transportRange.min.signedUnits = 0 := by decide +kernel
  rcases F64.isFinite_or_isInf hp with hp | hp
  · rw [F64.add, F64.key_addAs _ hmin.1 hp, hmin.2, Int.cast_zero, zero_add, F64.roundKey_signedUnits hp]
  · rw [F64.add, F64.addAs_finite_inf _ hmin.1 hp]

/-! ### Codes of whole numbers -/

theorem quant16_of_value {p : Params} {r : F64} {k : Nat} (hr : r.isFinite = true) (hk : k ≤ 65535) (hv : r.value = k) :
    quant16 p r = .ok (BitVec.ofNat 16 k) := by
  have hround : r.roundToInt p.quantRound = k := by
    obtain ⟨hnear, -⟩ := F64.roundToInt_nearest p.quantRound r
    obtain ⟨hlow, hhigh⟩ := abs_le.1 hnear
    rw [hv] at hlow hhigh
    have h1 : ((r.roundToInt p.quantRound : Int) : ℚ) < k + 1 := by linarith
    have h2 : (k : ℚ) < (r.roundToInt p.quantRound : Int) + 1 := by linarith
    have h1' : r.roundToInt p.quantRound < (k : Int) + 1 := by exact_mod_cast h1
    have h2' : (k : Int) < r.roundToInt p.quantRound + 1 := by exact_mod_cast h2
    omega
  rw [quant16_of_inRange hr (by omega) (by omega), hround, BitVec.ofInt_natCast]

theorem quant16_of_key_zero {p : Params} {r : F64} (h : r.key = 0) : quant16 p r = .ok 0 :=
  quant16_of_value (k := 0) (F64.isFinite_of_key_zero h) (by omega) (by
    rw [F64.value, F64.signedUnits_of_key_zero h]
    simp)

theorem quant16_transportRange_max (p : Params) : quant16 p transportRange.max = .ok 65535 :=
  quant16_of_value (k := 65535) transportRange_max_finite le_rfl (by
    rw [F64.value, transportRange_max_units]
    push_cast
    exact mul_div_cancel_right₀ _ F64.unitsOfOne_pos_rat.ne')

/-! ### The ratio of the formula -/

/-- Where the engineering width is no NaN and no zero, a zero distance from the lower end scales to a zero. -/
theorem key_scaleFormula_of_zero {value : F64} {eng : PhysicalRange} (hdistance : (value.sub eng.min).key = 0)
    (hwidth : (eng.max.sub eng.min).isNaN = false) (hne : (eng.max.sub eng.min).key ≠ 0) :
    (scaleFormula .ieee754 value eng transportRange).key = 0 := by
  have hproduct := F64.key_mul_of_zero (F64.key_div_of_zero hdistance hwidth hne) transportRange_max_finite
  rw [scaleFormula_ieee754, transportRange_width,
    key_transportRange_add (F64.not_isNaN_of_isFinite (F64.isFinite_of_key_zero hproduct)), hproduct]

/-- A finite range whose ends differ has a width that is neither a NaN nor a zero. -/
theorem width_of_nondegenerate {eng : PhysicalRange} (hfinite : eng.finite = true) (hne : eng.max.eq eng.min = false) :
    (eng.max.sub eng.min).isNaN = false ∧ (eng.max.sub eng.min).key ≠ 0 := by
  obtain ⟨hmin, hmax⟩ : eng.min.isFinite = true ∧ eng.max.isFinite = true := by simpa [PhysicalRange.finite] using hfinite
  refine ⟨F64.isNaN_sub hmax hmin, ?_⟩
  rw [F64.key_sub hmax hmin]
  refine F64.roundKey_ne_zero fun h => ?_
  have hkey := (F64.signedUnits_inj eng.max eng.min).1 (by omega)
  rw [← F64.eq_iff (F64.not_isNaN_of_isFinite hmax) (F64.not_isNaN_of_isFinite hmin), hne] at hkey
  cases hkey

/-- A value equal to the lower end gets the code 0. -/
theorem scaleToWire_lowerEnd {p : Params} (hp : p.numerics = .ieee754) {eng : PhysicalRange} (hfinite : eng.finite = true)
    (hne : eng.max.eq eng.min = false) {value : F64} (hvalue : value.eq eng.min = true) :
    scaleToWire p value eng = .ok 0 := by
  have hmin : eng.min.isFinite = true := by
    simp only [PhysicalRange.finite, Bool.and_eq_true] at hfinite
    exact hfinite.1
  have hnan : value.isNaN = false := by
    simp only [F64.eq, Bool.and_eq_true, Bool.not_eq_true'] at hvalue
    exact hvalue.1.1
  have hkey := (F64.eq_iff hnan (F64.not_isNaN_of_isFinite hmin)).1 hvalue
  have hv : value.isFinite = true := by rwa [F64.isFinite_iff_key, hkey, ← F64.isFinite_iff_key]
  have hdistance : (value.sub eng.min).key = 0 := by
    rw [F64.key_sub hv hmin, (F64.signedUnits_inj _ _).2 hkey, sub_self, Int.cast_zero, F64.roundKey_zero]
  obtain ⟨hwidth, hwidth0⟩ := width_of_nondegenerate hfinite hne
  rw [scaleToWire_of_nondegenerate hne, hp]
  exact quant16_of_key_zero (key_scaleFormula_of_zero hdistance hwidth hwidth0)

/-- The upper end scales to 65535 exactly where the width is finite. -/
theorem scaleFormula_upperEnd {eng : PhysicalRange} (hfinite : eng.finite = true) (hne : eng.max.eq eng.min = false)
    (hwidth : (eng.max.sub eng.min).isFinite = true) :
    scaleFormula .ieee754 eng.max eng transportRange = transportRange.max := by
  have hclosed : transportRange.min.add (F64.one.mul (transportRange.max.sub transportRange.min)) = transportRange.max := by
    decide +kernel
  have hzero : (eng.max.sub eng.min).isZero = false := by
    rw [← Bool.not_eq_true, F64.isZero_iff_key]
    exact (width_of_nondegenerate hfinite hne).2
  rw [scaleFormula_ieee754, F64.div_self hwidth hzero, hclosed]

/-- Settles O47: the distance from the lower end is zero at that end, and the whole width at the other. -/
theorem scaleToWireAtTheEnds : Obligations.ScaleToWireAtTheEnds := by
  refine fun s eng hp hfinite hne => ⟨fun value hvalue => ?_, fun hwidth => ?_⟩
  · exact exec_scaleToWire_of_ok (scaleToWire_lowerEnd hp hfinite hne hvalue)
  · refine exec_scaleToWire_of_ok ?_
    rw [scaleToWire_of_nondegenerate hne, hp, scaleFormula_upperEnd hfinite hne hwidth, quant16_transportRange_max]

/-! ### The middle of a symmetric range -/

/-- Zero scales to 32767.5 exactly. -/
theorem scaleFormula_middle {value : F64} {eng : PhysicalRange} (hzero : value.isZero = true) (hfinite : eng.finite = true)
    (hsymmetric : eng.symmetric = true) (hne : eng.max.eq eng.min = false)
    (hwidth : (eng.max.sub eng.min).isFinite = true) :
    scaleFormula .ieee754 value eng transportRange = ⟨0x40DFFFE000000000⟩ := by
  obtain ⟨hmin, hmax⟩ : eng.min.isFinite = true ∧ eng.max.isFinite = true := by simpa [PhysicalRange.finite] using hfinite
  have hclosed : transportRange.min.add (F64.half.mul (transportRange.max.sub transportRange.min)) = ⟨0x40DFFFE000000000⟩ := by
    decide +kernel
  have hends : eng.min.key = eng.max.neg.key :=
    (F64.eq_iff (F64.not_isNaN_of_isFinite hmin) (by simpa using F64.not_isNaN_of_isFinite hmax)).1 hsymmetric
  have hminUnits : eng.min.signedUnits = -eng.max.signedUnits := by
    rw [(F64.signedUnits_inj _ _).2 hends, F64.signedUnits_neg]
  have hvalueKey := (F64.isZero_iff_key value).1 hzero
  have hvalue := F64.isFinite_of_key_zero hvalueKey
  have hdistanceKey : (value.sub eng.min).key = eng.max.key := by
    rw [F64.key_sub hvalue hmin, F64.signedUnits_of_key_zero hvalueKey, hminUnits, zero_sub, neg_neg,
      F64.roundKey_signedUnits hmax]
  have hdistance : (value.sub eng.min).isFinite = true := by
    rw [F64.isFinite_iff_key, hdistanceKey, ← F64.isFinite_iff_key]
    exact hmax
  have hwidthKey : (eng.max.sub eng.min).key = F64.roundKey (2 * F64.unitsAt eng.max.key : Int) := by
    rw [F64.key_sub hmax hmin, hminUnits, ← F64.signedUnits_eq, sub_neg_eq_add, two_mul]
  have hdouble : (eng.max.sub eng.min).signedUnits = 2 * (value.sub eng.min).signedUnits := by
    rw [F64.isFinite_iff_key, hwidthKey] at hwidth
    rw [F64.signedUnits_eq, hwidthKey, F64.unitsAt_roundKey_double hwidth, F64.signedUnits_eq, hdistanceKey]
  have hwidth0 : (eng.max.sub eng.min).isZero = false := by
    rw [← Bool.not_eq_true, F64.isZero_iff_key]
    exact (width_of_nondegenerate hfinite hne).2
  rw [scaleFormula_ieee754, F64.div_double hdistance hwidth hwidth0 hdouble, hclosed]

/-- All three roundings send 32767.5 up (90_conflicts.md C7). -/
theorem quant16_middle (p : Params) : quant16 p ⟨0x40DFFFE000000000⟩ = .ok 32768 := by
  have hround (mode : QuantRound) : F64.roundToInt mode ⟨0x40DFFFE000000000⟩ = 32768 := by
    cases mode <;> decide +kernel
  rw [quant16_of_inRange (by decide) (by rw [hround]; decide) (by rw [hround]; decide), hround]
  rfl

theorem scaleToWire_middle {p : Params} (hp : p.numerics = .ieee754) {value : F64} {eng : PhysicalRange}
    (hzero : value.isZero = true) (hfinite : eng.finite = true) (hsymmetric : eng.symmetric = true)
    (hne : eng.max.eq eng.min = false) (hwidth : (eng.max.sub eng.min).isFinite = true) :
    scaleToWire p value eng = .ok 32768 := by
  rw [scaleToWire_of_nondegenerate hne, hp, scaleFormula_middle hzero hfinite hsymmetric hne hwidth, quant16_middle]

/-- Settles O48: zero lies half a width above the lower end. -/
theorem zeroOfSymmetricRangeIs32768 : Obligations.ZeroOfSymmetricRangeIs32768 := by
  intro s value eng hp hzero hfinite hsymmetric hne hwidth
  refine ⟨?_, exec_scaleToWire_of_ok (scaleToWire_middle hp hzero hfinite hsymmetric hne hwidth)⟩
  rw [exec_scale_of_nondegenerate hne, hp, scaleFormula_middle hzero hfinite hsymmetric hne hwidth]

/-- Settles O54: three axes in the middle of their ranges, two at the lower end. -/
theorem zeroCommandEndToEnd : Obligations.ZeroCommandEndToEnd := by
  rintro s canId cmd ranges hp ⟨hqpos, hqvel, hqfrc, hkp, hkd⟩ hsymmetric hfromZero
  have hmiddle {value : F64} {r : PhysicalRange} (hzero : value.isZero = true)
      (hr : r ∈ [ranges.angle, ranges.velocity, ranges.torque]) : scaleToWire s.params value r = .ok 32768 := by
    obtain ⟨hfinite, hsym, hne, hwidth⟩ := hsymmetric r hr
    exact scaleToWire_middle hp hzero hfinite hsym hne hwidth
  have hlower {value : F64} {r : PhysicalRange} (hzero : value.isZero = true) (hr : r ∈ [ranges.kp, ranges.kd]) :
      scaleToWire s.params value r = .ok 0 := by
    obtain ⟨hfinite, hmin, hne⟩ := hfromZero r hr
    rw [F64.isZero_iff_key] at hzero hmin
    have heq : value.eq r.min = true :=
      (F64.eq_iff (F64.not_isNaN_of_isFinite (F64.isFinite_of_key_zero hzero))
        (F64.not_isNaN_of_isFinite (F64.isFinite_of_key_zero hmin))).2 (hzero.trans hmin.symm)
    exact scaleToWire_lowerEnd hp hfinite hne heq
  have hbytes : byteOf (32768 : BitVec 16) 0 = 0x00 ∧ byteOf (32768 : BitVec 16) 1 = 0x80 ∧
      byteOf (0 : BitVec 16) 0 = 0x00 ∧ byteOf (0 : BitVec 16) 1 = 0x00 := by decide
  obtain ⟨h0, h1, h2, h3⟩ := hbytes
  rw [exec_controlFromEng_of_ok (hmiddle hqpos (by simp)) (hmiddle hqvel (by simp)) (hmiddle hqfrc (by simp))
    (hlower hkp (by simp)) (hlower hkd (by simp)), h0, h1, h2, h3]

end Machine

end Sys2Proof
end

section
/-! Scaling from the transport range (40_scaler.md R88): every code is held exactly, and the end codes give the ratios 0 and 1. -/

namespace Sys2Proof

/-- `f64(raw)` holds the code exactly. -/
theorem F64.ofU16_exact (raw : BitVec 16) :
    (F64.ofU16 raw).isFinite = true ∧ (F64.ofU16 raw).sign = false ∧ (F64.ofU16 raw).value = (raw.toNat : ℚ) := by
  have hraw := raw.isLt
  obtain ⟨k, hk, hU⟩ : ∃ k, k = 1074 ∧ F64.unitsOfOne = 2 ^ k := by
    unfold F64.unitsOfOne
    generalize 1074 = k
    exact ⟨k, rfl, rfl⟩
  obtain ⟨mag, hle, hmag⟩ := F64.exists_mag_of_scaled raw.toNat k (by omega)
  have hone : F64.unitsOfMag mag = raw.toNat * F64.unitsOfOne := by rw [hmag, hU]
  have htop : mag < F64.infMag := by
    have : F64.infMag = 2047 * 2 ^ 52 := rfl
    omega
  have hlt : mag < 2 ^ 63 := htop.trans F64.infMag_lt
  have hround : F64.ofU16 raw = F64.ofMag false mag := by
    have := F64.roundMag_exact one_pos htop
    rw [one_mul, hone] at this
    rw [F64.ofU16, this]
  have hsign : (F64.ofMag false mag).sign = false := F64.sign_ofMag false hlt
  rw [hround]
  refine ⟨by rwa [F64.isFinite_iff, F64.mag_ofMag false hlt], hsign, ?_⟩
  rw [F64.value, F64.signedUnits_cast, hsign, if_neg Bool.false_ne_true, F64.units, F64.mag_ofMag false hlt, hone,
    Nat.cast_mul, mul_div_cancel_right₀ _ F64.unitsOfOne_pos_rat.ne']

/-- One times a finite value is at the value's place. -/
theorem F64.key_one_mul {w : F64} (hw : w.isFinite = true) : (F64.one.mul w).key = w.key := by
  obtain ⟨hfinite, hunits, -⟩ := F64.one_spec
  rw [F64.key_mul hfinite hw, hunits, Int.cast_natCast, mul_div_cancel_left₀ _ F64.unitsOfOne_pos_rat.ne',
    F64.roundKey_signedUnits hw]

/-- The place of a sum of finite values is fixed by the places of its terms. -/
theorem F64.key_add_congr {x y z : F64} (hx : x.isFinite = true) (hz : z.isFinite = true) (h : y.key = z.key) :
    (x.add y).key = (x.add z).key ∧ (x.add y).isNaN = false ∧ (x.add z).isNaN = false := by
  have hy : y.isFinite = true := by rwa [F64.isFinite_iff_key, h, ← F64.isFinite_iff_key]
  refine ⟨?_, F64.isNaN_addAs _ hx hy, F64.isNaN_addAs _ hx hz⟩
  rw [F64.add, F64.add, F64.key_addAs _ hx hy, F64.key_addAs _ hx hz, (F64.signedUnits_inj y z).2 h]

namespace Machine

/-- Settles O50: the code as a value, scaled from the transport range. -/
theorem scaleFromWireCompletes : Obligations.ScaleFromWireCompletes := by
  intro s raw eng
  obtain ⟨hfinite, hsign, hvalue⟩ := F64.ofU16_exact raw
  refine ⟨F64.ofU16 raw, scaleFromWire s.params.numerics raw eng, hfinite, hsign, hvalue, ?_,
    exec_scaleFromWire_eq raw eng s⟩
  rw [exec_scale_eq, scale_fromWire]

/-- The end codes divide out to 0 and 1. -/
theorem endCode_ratios :
    ((F64.ofU16 0).sub transportRange.min).div (transportRange.max.sub transportRange.min) = F64.zero false ∧
    ((F64.ofU16 65535).sub transportRange.min).div (transportRange.max.sub transportRange.min) = F64.one := by
  decide +kernel

/-- Settles O51: the lower end plus nothing, and the lower end plus the whole width. -/
theorem scaleFromWireAtTheEnds : Obligations.ScaleFromWireAtTheEnds := by
  intro s eng hp hfinite hwidth
  have hmin : eng.min.isFinite = true := by
    simp only [PhysicalRange.finite, Bool.and_eq_true] at hfinite
    exact hfinite.1
  obtain ⟨hlower, hupper⟩ := endCode_ratios
  refine ⟨⟨_, exec_scaleFromWire_eq 0 eng s, ?_⟩, ⟨_, exec_scaleFromWire_eq 65535 eng s, ?_⟩⟩
  · have hproduct : ((F64.zero false).mul (eng.max.sub eng.min)).key = (F64.zero false).key := by
      rw [F64.key_mul_of_zero (F64.key_zero false) hwidth, F64.key_zero]
    obtain ⟨hkey, hnan, -⟩ := F64.key_add_congr hmin (by decide) hproduct
    have hsame : (eng.min.add (F64.zero false)).key = eng.min.key := by
      rw [F64.add, F64.key_addAs _ hmin (by decide), F64.signedUnits_of_key_zero (F64.key_zero false), Int.cast_zero, add_zero,
        F64.roundKey_signedUnits hmin]
    rw [scaleFromWire, hp, scaleFormula_ieee754, hlower, F64.eq_iff hnan (F64.not_isNaN_of_isFinite hmin), hkey, hsame]
  · obtain ⟨hkey, hnan, hnan'⟩ := F64.key_add_congr hmin hwidth (F64.key_one_mul hwidth)
    rw [scaleFromWire, hp, scaleFormula_ieee754, hupper, F64.eq_iff hnan hnan', hkey]

end Machine

end Sys2Proof
end

section
/-! The scaler is monotone (40_scaler.md section 4): each operation of the formula keeps the order of places, infinities among
them, and so does the quantiser. -/

namespace Sys2Proof

/-- A function of values that never makes a NaN of a value that is none, and keeps the order of places. -/
def F64.Rising (f : F64 → F64) : Prop :=
  (∀ x : F64, x.isNaN = false → (f x).isNaN = false) ∧
  ∀ x y : F64, x.isNaN = false → y.isNaN = false → x.key ≤ y.key → (f x).key ≤ (f y).key

theorem F64.Rising.comp {f g : F64 → F64} (hf : F64.Rising f) (hg : F64.Rising g) : F64.Rising (fun x => f (g x)) := by
  obtain ⟨hfnan, hfmono⟩ := hf
  obtain ⟨hgnan, hgmono⟩ := hg
  exact ⟨fun x hx => hfnan _ (hgnan x hx),
    fun x y hx hy h => hfmono _ _ (hgnan x hx) (hgnan y hy) (hgmono x y hx hy h)⟩

/-- It is enough to rise on finite values and to keep each infinity. -/
theorem F64.Rising.of_finite {f : F64 → F64} (hnan : ∀ x : F64, x.isFinite = true → (f x).isNaN = false)
    (hfinite : ∀ x y : F64, x.isFinite = true → y.isFinite = true → x.key ≤ y.key → (f x).key ≤ (f y).key)
    (hinf : ∀ x : F64, x.isInf = true → f x = F64.infinity x.sign) : F64.Rising f := by
  have hnan' (x : F64) (hx : x.isNaN = false) : (f x).isNaN = false := by
    rcases F64.isFinite_or_isInf hx with hx | hx
    · exact hnan x hx
    · rw [hinf x hx, F64.isNaN_infinity]
  have hplace (x : F64) (hx : x.isInf = true) :
      (x.key = F64.infMag ∧ (f x).key = F64.infMag) ∨ (x.key = -(F64.infMag : Int) ∧ (f x).key = -(F64.infMag : Int)) := by
    rw [hinf x hx, F64.key_of_isInf (F64.isInf_infinity _), F64.sign_infinity, F64.key_of_isInf hx]
    cases x.sign
    · exact .inl ⟨rfl, rfl⟩
    · exact .inr ⟨rfl, rfl⟩
  refine ⟨hnan', fun x y hx hy h => ?_⟩
  have hpos : 0 < F64.infMag := by decide
  have hfx := F64.abs_key_le (hnan' x hx)
  have hfy := F64.abs_key_le (hnan' y hy)
  rcases F64.isFinite_or_isInf hx with hx | hx <;> rcases F64.isFinite_or_isInf hy with hy | hy
  · exact hfinite x y hx hy h
  · have := (F64.isFinite_iff_key x).1 hx
    have := hplace y hy
    omega
  · have := (F64.isFinite_iff_key y).1 hy
    have := hplace x hx
    omega
  · have := hplace x hx
    have := hplace y hy
    omega

theorem F64.sign_of_pos {w : F64} (hpos : 0 < w.signedUnits) : w.sign = false ∧ w.isZero = false := by
  constructor
  · by_contra hs
    rw [Bool.not_eq_false] at hs
    have : w.signedUnits = -(w.units : Int) := by rw [F64.signedUnits, hs, if_pos rfl]
    omega
  · rw [← Bool.not_eq_true, F64.isZero_iff_signedUnits]
    omega

/-- Dividing by a positive finite value keeps the order. -/
theorem F64.rising_div {w : F64} (hw : w.isFinite = true) (hpos : 0 < w.signedUnits) : F64.Rising (fun x => x.div w) := by
  obtain ⟨hsign, hne⟩ := F64.sign_of_pos hpos
  refine .of_finite (fun x hx => F64.isNaN_div hx hw hne) (fun x y hx hy h => ?_) (fun x hx => ?_)
  · have hle : (x.signedUnits : ℚ) ≤ y.signedUnits := by exact_mod_cast (F64.signedUnits_le_iff x y).2 h
    have hw' : (0 : ℚ) ≤ w.signedUnits := by exact_mod_cast hpos.le
    have hU := F64.unitsOfOne_pos_rat.le
    rw [F64.key_div hx hw hne, F64.key_div hy hw hne]
    exact F64.roundKey_mono (by gcongr)
  · rw [F64.div_inf_finite hx hw, hsign, Bool.bne_false]

/-- Multiplying by a positive finite value keeps the order. -/
theorem F64.rising_mul {w : F64} (hw : w.isFinite = true) (hpos : 0 < w.signedUnits) : F64.Rising (fun x => x.mul w) := by
  obtain ⟨hsign, hne⟩ := F64.sign_of_pos hpos
  refine .of_finite (fun x hx => F64.isNaN_mul hx hw) (fun x y hx hy h => ?_) (fun x hx => ?_)
  · have hle : (x.signedUnits : ℚ) ≤ y.signedUnits := by exact_mod_cast (F64.signedUnits_le_iff x y).2 h
    have hw' : (0 : ℚ) ≤ w.signedUnits := by exact_mod_cast hpos.le
    have hU := F64.unitsOfOne_pos_rat.le
    rw [F64.key_mul hx hw, F64.key_mul hy hw]
    exact F64.roundKey_mono (by gcongr)
  · rw [F64.mul_of_inf (.inl hx) (F64.not_isNaN_of_isInf hx) (F64.not_isNaN_of_isFinite hw), F64.not_isZero_of_isInf hx, hne,
      Bool.or_self, if_neg Bool.false_ne_true, hsign, Bool.bne_false]

namespace Machine

/-- Adding the lower end of the transport range keeps the order. -/
theorem rising_transportRange_add : F64.Rising (fun x => transportRange.min.add x) := by
  have hmin : transportRange.min.isFinite = true := by decide
  refine ⟨fun x hx => ?_, fun x y hx hy h => ?_⟩
  · rcases F64.isFinite_or_isInf hx with hx | hx
    · exact F64.isNaN_addAs _ hmin hx
    · have hsum : transportRange.min.add x = x := F64.addAs_finite_inf _ hmin hx
      exact (congrArg F64.isNaN hsum).trans (F64.not_isNaN_of_isInf hx)
  · rwa [key_transportRange_add hx, key_transportRange_add hy]

/-- The steps of the formula after the distance from the lower end. -/
theorem rising_scaled {w : F64} (hw : w.isFinite = true) (hpos : 0 < w.signedUnits) :
    F64.Rising (fun d => transportRange.min.add ((d.div w).mul (transportRange.max.sub transportRange.min))) := by
  rw [transportRange_width]
  have hmax : 0 < transportRange.max.signedUnits := by
    have := F64.unitsOfOne_pos
    rw [transportRange_max_units]
    omega
  exact rising_transportRange_add.comp ((F64.rising_mul transportRange_max_finite hmax).comp (F64.rising_div hw hpos))

/-! ### The quantiser -/

/-- The code of a value that is no NaN, as a number: an end where the nearest integer is none. -/
def codeNumber (mode : QuantRound) (r : F64) : Int :=
  if r.isInf then if r.sign then 0 else 65535 else max 0 (min 65535 (r.roundToInt mode))

theorem quant16_toNat {p : Params} {r : F64} {n : BitVec 16} (hr : r.isNaN = false) (h : quant16 p r = .ok n) :
    (n.toNat : Int) = codeNumber p.quantRound r := by
  have hend (m : BitVec 16) (h : quantOutOfRange p r m = .ok n) : n = m := by
    obtain ⟨-, hq⟩ | ⟨-, hq⟩ := quantOutOfRange_cases p r m <;> cases hq.symm.trans h
    rfl
  unfold quant16 at h
  unfold codeNumber
  rw [hr, if_neg Bool.false_ne_true] at h
  cases hinf : r.isInf
  case true =>
    rw [hinf, if_pos rfl] at h
    rw [hend _ h, if_pos rfl]
    cases r.sign <;> rfl
  case false =>
    rw [hinf, if_neg Bool.false_ne_true] at h
    rw [if_neg Bool.false_ne_true]
    dsimp only at h
    generalize r.roundToInt p.quantRound = k at *
    split at h
    · rw [hend _ h, show ((0 : BitVec 16).toNat : Int) = 0 from rfl]
      omega
    · split at h
      · rw [hend _ h, show ((65535 : BitVec 16).toNat : Int) = 65535 from rfl]
        omega
      · cases h
        obtain ⟨m, rfl⟩ := Int.eq_ofNat_of_zero_le (by omega : 0 ≤ k)
        rw [BitVec.ofInt_natCast, BitVec.toNat_ofNat]
        omega

theorem codeNumber_bounds (mode : QuantRound) (r : F64) : 0 ≤ codeNumber mode r ∧ codeNumber mode r ≤ 65535 := by
  unfold codeNumber
  split
  · split <;> omega
  · omega

theorem codeNumber_mono (mode : QuantRound) {r r' : F64} (hr : r.isNaN = false) (hr' : r'.isNaN = false)
    (h : r.key ≤ r'.key) : codeNumber mode r ≤ codeNumber mode r' := by
  have hround : r.roundToInt mode ≤ r'.roundToInt mode :=
    (F64.roundToInt_nearest mode r).mono (F64.roundToInt_nearest mode r') ((F64.value_le_iff r r').2 h)
  have hlow := (codeNumber_bounds mode r').1
  have hhigh := (codeNumber_bounds mode r).2
  have hbound' := F64.abs_key_le hr'
  have hinfinite {x : F64} (hx : x.isInf = true) : codeNumber mode x = if x.sign then 0 else 65535 := if_pos hx
  rcases F64.isFinite_or_isInf hr with hf | hi
  · rcases F64.isFinite_or_isInf hr' with hf' | hi'
    · unfold codeNumber
      rw [F64.not_isInf_of_isFinite hf, F64.not_isInf_of_isFinite hf', if_neg Bool.false_ne_true, if_neg Bool.false_ne_true]
      omega
    · have hlt := (F64.isFinite_iff_key r).1 hf
      have hkey' := F64.key_of_isInf hi'
      rw [hinfinite hi']
      split at hkey'
      · omega
      · next hs => rwa [if_neg hs]
  · have hkey := F64.key_of_isInf hi
    split at hkey
    · next hs => rwa [hinfinite hi, if_pos hs]
    · have hsame : r' = r := F64.eq_of_key_isInf hi (by omega)
      rw [hsame]

/-! ### The whole formula -/

/-- On a range whose width overflows every value with a code has the code 0: the ratio is a zero or a NaN. -/
theorem scaleToWire_of_infinite_width {p : Params} (hp : p.numerics = .ieee754) {eng : PhysicalRange} {value : F64}
    {n : BitVec 16} (hdistance : (value.sub eng.min).isNaN = false) (hne : eng.max.eq eng.min = false)
    (hwidth : (eng.max.sub eng.min).isInf = true) (h : scaleToWire p value eng = .ok n) : n = 0 := by
  have hwidth' := F64.not_isNaN_of_isInf hwidth
  rw [scaleToWire_of_nondegenerate hne, hp] at h
  rcases F64.isFinite_or_isInf hdistance with hd | hd
  · have hratio : ((value.sub eng.min).div (eng.max.sub eng.min)).key = 0 := by
      rw [F64.div_finite_inf hd hwidth, F64.key_zero]
    have hproduct := F64.key_mul_of_zero hratio transportRange_max_finite
    have hr : (scaleFormula .ieee754 value eng transportRange).key = 0 := by
      rw [scaleFormula_ieee754, transportRange_width,
        key_transportRange_add (F64.not_isNaN_of_isFinite (F64.isFinite_of_key_zero hproduct)), hproduct]
    rw [quant16_of_key_zero hr] at h
    cases h
    rfl
  · have hr : (scaleFormula .ieee754 value eng transportRange).isNaN = true := by
      rw [scaleFormula_ieee754]
      exact F64.addAs_of_nan _ (.inr (F64.mul_of_nan (.inl (F64.div_inf_inf hd hwidth))))
    unfold quant16 at h
    rw [hr, if_pos rfl] at h
    obtain ⟨-, hq⟩ | ⟨-, hq⟩ := quantOutOfRange_cases p (scaleFormula .ieee754 value eng transportRange) 0 <;>
      cases hq.symm.trans h
    rfl

/-- Settles O49: the distance from the lower end rises with the value, and every later step keeps the order. -/
theorem scaleToWireIsMonotone : Obligations.ScaleToWireIsMonotone := by
  intro s v v' eng n n' hp hfinite horder hv hv' hle hn hn'
  obtain ⟨hmin, hmax⟩ : eng.min.isFinite = true ∧ eng.max.isFinite = true := by simpa [PhysicalRange.finite] using hfinite
  have hcode := scaleToWire_of_answered hn
  have hcode' := scaleToWire_of_answered hn'
  have hdistance := F64.isNaN_sub hv hmin
  have hdistance' := F64.isNaN_sub hv' hmin
  cases hne : eng.max.eq eng.min
  case true => cases (scaleToWire_of_degenerate hne s.params v).symm.trans hcode
  case false =>
  obtain ⟨hwidth, -⟩ := width_of_nondegenerate hfinite hne
  rcases F64.isFinite_or_isInf hwidth with hw | hw
  · have hends : eng.min.signedUnits < eng.max.signedUnits := by
      have hkeys := (F64.le_iff (F64.not_isNaN_of_isFinite hmin) (F64.not_isNaN_of_isFinite hmax)).1 horder
      refine lt_of_le_of_ne ((F64.signedUnits_le_iff _ _).2 hkeys) fun heq => ?_
      have := (F64.eq_iff (F64.not_isNaN_of_isFinite hmax) (F64.not_isNaN_of_isFinite hmin)).2
        ((F64.signedUnits_inj _ _).1 heq.symm)
      exact absurd (this.symm.trans hne) (by decide)
    have hpos : 0 < (eng.max.sub eng.min).signedUnits := by
      have hkey : 0 < (eng.max.sub eng.min).key := by
        rw [F64.key_sub hmax hmin]
        exact F64.roundKey_pos (by omega)
      have := F64.unitsAt_strictMono hkey
      rwa [← F64.signedUnits_eq] at this
    obtain ⟨hnan, hmono⟩ := rising_scaled hw hpos
    have hkeys : (v.sub eng.min).key ≤ (v'.sub eng.min).key := by
      have hunits := (F64.signedUnits_le_iff v v').2
        ((F64.le_iff (F64.not_isNaN_of_isFinite hv) (F64.not_isNaN_of_isFinite hv')).1 hle)
      rw [F64.key_sub hv hmin, F64.key_sub hv' hmin]
      exact F64.roundKey_mono (by exact_mod_cast (by omega : v.signedUnits - eng.min.signedUnits ≤ _))
    have hresult := codeNumber_mono s.params.quantRound (hnan _ hdistance) (hnan _ hdistance')
      (hmono _ _ hdistance hdistance' hkeys)
    rw [scaleToWire_of_nondegenerate hne, hp, scaleFormula_ieee754] at hcode hcode'
    rw [← quant16_toNat (hnan _ hdistance) hcode, ← quant16_toNat (hnan _ hdistance') hcode'] at hresult
    exact_mod_cast hresult
  · rw [scaleToWire_of_infinite_width hp hdistance hne hw hcode]
    exact Nat.zero_le _

end Machine

end Sys2Proof
end

section
/-! The table's words read from the identifier alone (30_encoding.md section 8). -/

namespace Sys2Proof

/-- Settles O4: five closed words, each decoded by evaluation. -/
theorem tableWordsDecode : Obligations.TableWordsDecode := by
  unfold Obligations.TableWordsDecode
  decide +kernel

end Sys2Proof
end

section
/-! The value decoder of the host's parameters (50_host_context.md section 3): a span is read exactly when it is as long as the
type, numbers little-endian, a text up to its first zero byte. -/

namespace Sys2Proof.Machine

theorem decodeParamValue_eq_none_iff (bytes : List Byte) (type : ParamType) :
    decodeParamValue bytes type = none ↔ bytes.length < type.requiredBytes := by
  unfold decodeParamValue
  split
  · next h => exact iff_of_true rfl h
  · next h => exact iff_of_false nofun h

theorem decodeParamValue_of_le {bytes : List Byte} {type : ParamType} (h : type.requiredBytes ≤ bytes.length) :
    decodeParamValue bytes type = some (readParamValue bytes type) := if_neg (not_lt.2 h)

/-! ### Numbers -/

theorem le16_eq_ofNat (b0 b1 : Byte) : le16 b0 b1 = BitVec.ofNat 16 (b0.toNat + 256 * b1.toNat) := by
  rw [← le16_toNat, BitVec.ofNat_toNat, BitVec.setWidth_eq]

theorem le32_eq_ofNat (b0 b1 b2 b3 : Byte) :
    le32 b0 b1 b2 b3 = BitVec.ofNat 32 (b0.toNat + 2 ^ 8 * b1.toNat + 2 ^ 16 * b2.toNat + 2 ^ 24 * b3.toNat) := by
  rw [← le32_toNat, BitVec.ofNat_toNat, BitVec.setWidth_eq]

/-- Two's complement: from half of the width's range on, the number less the range. -/
theorem le16_toInt (b0 b1 : Byte) {n : Nat} (hn : n = b0.toNat + 256 * b1.toNat) :
    (le16 b0 b1).toInt = if 32768 ≤ n then (n : Int) - 65536 else n := by
  rw [BitVec.toInt_eq_toNat_cond, le16_toNat, ← hn]
  split <;> split <;> omega

theorem le32_toInt (b0 b1 b2 b3 : Byte) {n : Nat}
    (hn : n = b0.toNat + 2 ^ 8 * b1.toNat + 2 ^ 16 * b2.toNat + 2 ^ 24 * b3.toNat) :
    (le32 b0 b1 b2 b3).toInt = if 2 ^ 31 ≤ n then (n : Int) - 2 ^ 32 else (n : Int) := by
  rw [BitVec.toInt_eq_toNat_cond, le32_toNat, ← hn]
  split <;> split <;> omega

/-! ### Texts -/

/-- A text ends before the first zero byte. -/
theorem takeWhile_text {text : List Byte} (h : ∀ b ∈ text, b ≠ 0) (more : List Byte) :
    (text ++ 0 :: more).takeWhile (· != 0) = text ∧ text.takeWhile (· != 0) = text := by
  have hall : ∀ b ∈ text, (b != 0) = true := fun b hb => bne_iff_ne.2 (h b hb)
  refine ⟨?_, List.takeWhile_eq_self_iff.2 hall⟩
  rw [List.takeWhile_append_of_pos hall]
  simp

/-- An ASCII byte begins a sequence of its own and reads as itself. -/
theorem utf8Lossy_ascii {text : List Byte} (h : ∀ b ∈ text, b.toNat < 128) : utf8Lossy 0 text = text.map BitVec.toNat := by
  induction text with
  | nil => rfl
  | cons b text ih =>
    have hb : b < 0x80 := h b (by simp)
    rw [utf8Lossy.eq_def]
    simp only [if_pos hb, List.map_cons, ih fun c hc => h c (by simp [hc])]

/-- Settles O60: the widths, then the readings of spans long enough. -/
theorem parameterValueWidths : Obligations.ParameterValueWidths := by
  refine ⟨fun bytes => ?widths, fun b0 more => rfl, fun b0 b1 more n hn => ?two, fun b0 b1 b2 b3 more n hn => ?four,
    fun text more htext => ⟨?terminated, fun hascii => ?ascii⟩⟩
  case widths =>
    simp only [ne_eq, decodeParamValue_eq_none_iff, ParamType.requiredBytes, Nat.not_lt_zero, not_false_eq_true,
      iff_self, and_self]
  case two =>
    have hlong {type : ParamType} (h : type.requiredBytes ≤ 2) :=
      decodeParamValue_of_le (bytes := b0 :: b1 :: more) (type := type) (by simp; omega)
    rw [hlong (by decide), hlong (by decide), ← le16_toInt b0 b1 hn, hn, ← le16_eq_ofNat]
    exact ⟨rfl, rfl⟩
  case four =>
    have hlong {type : ParamType} (h : type.requiredBytes ≤ 4) :=
      decodeParamValue_of_le (bytes := b0 :: b1 :: b2 :: b3 :: more) (type := type) (by simp; omega)
    rw [hlong (by decide), hlong (by decide), hlong (by decide), ← le32_toInt b0 b1 b2 b3 hn, hn, ← le32_eq_ofNat]
    exact ⟨rfl, rfl, rfl⟩
  case terminated =>
    obtain ⟨hterminated, hself⟩ := takeWhile_text htext more
    rw [decodeParamValue_of_le (Nat.zero_le _), decodeParamValue_of_le (Nat.zero_le _), readParamValue, readParamValue,
      hterminated, hself]
  case ascii =>
    rw [decodeParamValue_of_le (Nat.zero_le _), readParamValue, (takeWhile_text htext more).2, utf8Lossy_ascii hascii]

end Sys2Proof.Machine
end
